-- ==== Sys2Proof/Word.lean ====
section
/-!
DEFINITION. The word types of CPU7 (spec/00_scope.md R3, R5) and the address arithmetic they need.
-/
namespace Sys2Proof

/-- A data-stack element, a variable register, a result of arithmetic: 56 bits (R3, R5). -/
abbrev W56 := BitVec 56

/-- A byte address of the linear memory space: 28 bits (R3, R61). -/
abbrev A28 := BitVec 28

/-- The smallest unit of memory (R60). -/
abbrev Byte := BitVec 8

/-- A program word, the unit the bus moves (R60, R90). -/
abbrev Word16 := BitVec 16

/-- An instruction code (R3, R97). -/
abbrev Code7 := BitVec 7

/-- The payload of a program word: two codes, or one group of a VLN constant (R90). -/
abbrev Payload := BitVec 14

end Sys2Proof
end

