-- ==== Sys2Proof/Machine/Flags.lean ====
section
/-!
DEFINITION. CPU7 has no flags and no condition codes (spec/10_state.md R37): what takes their place is the truth value a
comparison leaves on the data stack, and the reading of operands as numbers (spec/44_arith.md R230, R247).
-/
namespace Sys2Proof.Machine

/-- The truth value of a comparison: 1 or 0 (R247). -/
def truth (b : Bool) : W56 :=
  if b then 1 else 0

/-- `val(v)` of R230: signed or unsigned as SIGNED_ARITH says. -/
def numberOf (signedArith : Bool) (v : W56) : Int :=
  if signedArith then v.toInt else (v.toNat : Int)

end Sys2Proof.Machine
end

