-- ==== Sys2Proof/Config.lean ====
section
/-!
DEFINITION. What an implementation of CPU7 fixes (the open parameters of spec/00_scope.md R3) and the free values.

The open parameters that are plain data stand in the record `Params`, which is a field of State: every statement about every
state then holds for every value of every parameter, as R3 asks ("a model takes every OPEN parameter as an argument"). The two
parameters that are functions (DIVMOD, and the effects of SYSFN_IMPL), the resolution of the delay counter, and the values the
spec leaves open are opaque constants without a body: nothing can be proved of what they are.
-/
namespace Sys2Proof

/-- The class of a program word, read from its bits 15..14 (spec/30_encoding.md R91). -/
inductive WordClass where
  | instr     -- two 7-bit instructions
  | vlnLast   -- the last, or only, group of a VLN
  | vlnMore   -- a group of a VLN that another group follows
  | reserved  -- no meaning known
  deriving DecidableEq, Repr

/-- WORD_TYPE_MAP (R91): the class of each value of bits 15..14. -/
structure TypeMap where
  c00 : WordClass
  c01 : WordClass
  c10 : WordClass
  c11 : WordClass
  deriving DecidableEq, Repr

/-- What stands in a region of the platform's memory map (spec/20_memory.md R62, R69). -/
inductive RegionKind where
  | ram          -- plain memory
  | rom          -- a location the platform marks read-only
  | peripheral   -- answered by the platform
  deriving DecidableEq, Repr

/-- A region of the platform's memory map: the addresses `base` to `base + size - 1` (R62). -/
structure Region where
  base : Nat
  size : Nat
  kind : RegionKind
  deriving DecidableEq, Repr

/-- EVENT_ADDR (spec/60_exceptions.md R325): which address a restart reports. -/
inductive EventRule where
  | slot       -- the address of the instruction slot, or of the word that could not be fetched: the spec's default
  | nextWord   -- the program pointer at that moment, NW(here)
  | unstated   -- any other choice (the data address, for one): a free value
  deriving DecidableEq, Repr

/-- The conditions a restart reports, $100 and $102 to $10c (R311, R313 to R323). $101, cold start, is no condition of a restart:
"No instruction raises it" (R312); State.reset leaves it. -/
inductive Condition where
  | invalidCode         -- $100 invalid instruction code
  | alignment           -- $102 alignment error
  | badMemory           -- $103 invalid memory location
  | badIndex            -- $104 invalid data stack index
  | stackOverflow       -- $105 data stack overflow
  | stackUnderflow      -- $106 data stack underflow
  | callOverflow        -- $107 call stack overflow
  | callUnderflow       -- $108 call stack underflow
  | arithmetic          -- $109 arithmetic error
  | badStructure        -- $10a error in a conditional structure
  | doubleEnter         -- $10b double entering error
  | leaveWithoutEnter   -- $10c LEAVE without preceding ENTER
  deriving DecidableEq, Repr

/-- The open parameters that are plain data (spec/00_scope.md R3). -/
structure Params where
  /-- MAX_THREADS, the value MAXTHDS returns. -/
  maxThreads : Nat
  /-- DSTACK_SIZE, the capacity of a data stack in elements. -/
  dstackSize : Nat
  /-- CSTACK_SIZE, the capacity of a call stack in entries. -/
  cstackSize : Nat
  /-- NEST_MAX, the depth of open IFs and of structures tracked while execution is disabled. -/
  nestMax : Nat
  /-- WORD_TYPE_MAP. -/
  typeMap : TypeMap
  /-- The platform's memory map: VALID holds of the addresses inside some region (R62). -/
  regions : List Region
  /-- SYSFN_OPCODE: `none` while unset (R100). -/
  sysfnOpcode : Option Code7
  /-- The codes SYSFN_IMPL defines (spec/46_system.md R302). -/
  sysfnCodes : List W56
  /-- SIGNED_ARITH (spec/44_arith.md R230). -/
  signedArith : Bool
  /-- EVENT_ADDR (R325). -/
  eventRule : EventRule
  deriving DecidableEq, Repr

/-- The placeholder WORD_TYPE_MAP of R91. DESIGN CHOICE of the spec, unsafe in a statement about State.reset alone (log 3). -/
def TypeMap.placeholder : TypeMap :=
  { c00 := .vlnLast, c01 := .vlnMore, c10 := .reserved, c11 := .instr }

/-- The parameters of State.reset. DESIGN CHOICE where R3 gives no default, unsafe in a statement about State.reset alone
(logs 2, 3, 4, 5): no statement about every state depends on them. -/
def Params.standard : Params where
  maxThreads := 128
  dstackSize := 64
  cstackSize := 32
  nestMax := 32
  typeMap := TypeMap.placeholder
  regions := [{ base := 0, size := 2 ^ 28, kind := .ram }]
  sysfnOpcode := some 0x00#7
  sysfnCodes := []
  signedArith := false
  eventRule := .slot

/-- The working registers of the execution unit, "hidden from the end user" (spec/10_state.md R27). -/
structure WorkRegs where
  r0 : W56
  r1 : W56
  r2 : W56
  r3 : Payload
  r4 : Payload
  deriving DecidableEq, Repr, Inhabited

/-- What a system function with a code of $80 or more does (spec/46_system.md R302): elements it takes from the data stack,
elements it leaves there (the first listed is pushed first), the platform's own state after it, bytes it stores in memory, and a restart
it may raise in the end (log 27). -/
structure SysEffect where
  pops : Nat
  pushes : List W56
  platform : Nat
  stores : List (A28 × Byte)
  raises : Option Condition
  deriving DecidableEq, Repr, Inhabited

/-- DIVMOD (spec/44_arith.md R245): quotient and remainder of `/` and `//` where an operand has bit 55 set, or `none` for the
arithmetic error. A function of the operands alone (log 25). -/
opaque Config.divMod : W56 → W56 → Option (W56 × W56)

/-- SYSFN_IMPL (spec/46_system.md R302): the effect of a defined code, from the platform's own state, the number of values drawn so
far, the code, the executing thread's data stack and the memory (log 27). -/
opaque Config.sysfnImpl : Nat → Nat → W56 → List W56 → List (Nat × Byte) → SysEffect

/-- The ticks of DLYC in a number of nanoseconds: the delay counter's resolution (spec/40_control.md R135; log 13). -/
opaque Config.delayTicks : W56 → W56

/-- A 56-bit free value for each number of values drawn before it: RANDOM, unspecified V registers, elements re-exposed by
LEAVE, DLYC (spec/93_implementation_defined.md section 4; log 11). -/
opaque Config.freeWord : Nat → W56

/-- The unspecified content of R0 to R4 (spec/10_state.md R27, R40; log 14). -/
opaque Config.freeWork : Nat → WorkRegs

/-- The unspecified content of ICR in a thread that has just begun (R40; log 10). -/
opaque Config.freePayload : Nat → Payload

/-- Which of the live threads takes the next step (spec/60_exceptions.md R333; log 12). -/
opaque Config.schedule : Nat → Nat

/-- Which free index a new thread gets (spec/41_calls_threads.md R173; log 30). -/
opaque Config.freeIndex : Nat → Nat

/-- The byte a peripheral location answers to a read, "any value on read" (spec/20_memory.md R69): from the platform's own state, the
number of values drawn so far, the width of the bus transfer in bytes, and the address (log 21). -/
opaque Config.peripheralByte : Nat → Nat → Nat → Nat → Byte

/-- The platform's own state after a bus transfer that read some bytes from an address on, from its state before and the number of values
drawn so far (R69, R75; log 21). -/
opaque Config.platformRead : Nat → Nat → Nat → Nat → Nat

/-- The platform's own state after a bus transfer that writes to peripheral locations, "any effect on write" (R69, R75): from its state
before, the number of values drawn so far, the address, and the bytes of the whole transfer, lowest address first (log 21). -/
opaque Config.platformWrite : Nat → Nat → Nat → List Byte → Nat

/-- Whether a destination byte of a block or string instruction that raised $103 was written (spec/45_memory_ops.md R260
item 5; log 24). -/
opaque Config.blockWrote : Nat → Nat → Bool

/-- The event address of a restart where EVENT_ADDR is unstated (spec/60_exceptions.md R325; log 5): an operand of 2^28 and more may be
one. -/
opaque Config.freeAddress : Nat → W56

end Sys2Proof
end

