-- ==== Sys2Proof/Syntax.lean ====
section
/-!
DEFINITION. The 71 instructions of spec/opcode_table.json, one constructor each. No instruction of CPU7 has an operand field
(spec/30_encoding.md R97): every parameter comes from the data stack, so no constructor has an argument.
-/
namespace Sys2Proof

/-- The instructions, in the order of their rules (R134 to R300). -/
inductive Instr where
  -- execution control and conditional structures, spec/40_control.md
  | nop | delay | doMark | skip | ifMark | elseMark | endIf | repeatMark | repIf | untilMark | whileMark | breakLoop | again
  -- calls, returns, threads, ENTER and LEAVE, spec/41_calls_threads.md
  | call | acall | ntcall | ntacall | ret | maxthds | threads | endAll | endThread | setpr | enter | leave
  -- the hardware data stack, spec/42_stack.md (overNth is OVER, readVar is `!`, writeVar is `=!`)
  | empty | depth | drop | dup | swap | rot | overNth | readVar | writeVar
  -- logic and bitwise operations, spec/43_logic.md
  | com | not | and | or | xor | shl | shr
  -- arithmetic, spec/44_arith.md
  | lt | le | eq | ne | ge | gt | add | sub | mul | div | modulo | inc | dec | random
  -- memory, spec/45_memory_ops.md (copy is `=`, copyStr is `=$`)
  | fill | diff | copy | lenStr | scanStr | diffStr | copyStr
  | rdvln | rd32 | rd16 | rd8 | wrvln | wr32 | wr16 | wr8
  -- system functions, spec/46_system.md
  | sysfn
  deriving DecidableEq, Repr

end Sys2Proof
end

