-- ==== Sys2Proof/WellFormed.lean ====
section
/-!
DEFINITION. Well-formed parameters and instructions: the constraints spec/00_scope.md R3 puts on the open parameters, each a
check of its own. An instruction has no fields (R97); what can be ill-formed about one is SYSFN while its code is unset (R100).
-/
namespace Sys2Proof

/-- The 58 codes no entry of the instruction list claims, as spec/30_encoding.md R99 lists them. -/
def unassignedCodes : List Nat :=
  [0x00, 0x02, 0x0a, 0x0f, 0x10, 0x1d, 0x1e, 0x1f, 0x25,
   0x2e, 0x2f, 0x30, 0x31, 0x32, 0x33, 0x34, 0x35, 0x36, 0x37, 0x38, 0x39, 0x3a, 0x3b, 0x3c, 0x3d, 0x3e, 0x3f,
   0x41, 0x43, 0x45, 0x4a, 0x4c, 0x4d, 0x4e, 0x4f, 0x51, 0x54, 0x55, 0x56, 0x57, 0x5c, 0x5d, 0x5e, 0x5f,
   0x61, 0x62, 0x63, 0x67, 0x69, 0x6a, 0x6b, 0x6f, 0x72, 0x73, 0x74, 0x75, 0x76, 0x77]

/-- Whether a region holds an address. -/
def Region.holds (r : Region) (a : Nat) : Bool :=
  decide (r.base ≤ a) && decide (a < r.base + r.size)

/-- What stands at an address: the kind of the first region that holds it, `none` where nothing exists (R62). -/
def Params.kindAt (p : Params) (a : Nat) : Option RegionKind :=
  (p.regions.find? fun r => r.holds a).map Region.kind

/-- VALID of R3 and R62. -/
def Params.valid (p : Params) (a : Nat) : Bool :=
  (p.kindAt a).isSome

/-- "1 <= MAX_THREADS <= 128" (R3). -/
def Params.threadsOk (p : Params) : Bool :=
  decide (1 ≤ p.maxThreads) && decide (p.maxThreads ≤ 128)

/-- DSTACK_SIZE "OPEN, >= 2" (R3). -/
def Params.dstackOk (p : Params) : Bool :=
  decide (2 ≤ p.dstackSize)

/-- CSTACK_SIZE "OPEN, >= 1" (R3). -/
def Params.cstackOk (p : Params) : Bool :=
  decide (1 ≤ p.cstackSize)

/-- Each class of word has one code: WORD_TYPE_MAP has an inverse (R91, R95). -/
def TypeMap.wf (m : TypeMap) : Bool :=
  decide [m.c00, m.c01, m.c10, m.c11].Nodup

/-- VALID is a predicate over 28-bit addresses: no region reaches beyond them (R3). -/
def Params.regionsOk (p : Params) : Bool :=
  p.regions.all fun r => decide (r.base + r.size ≤ 2 ^ 28)

/-- "`VALID(0)` and `VALID(1)` hold" (R62). -/
def Params.originOk (p : Params) : Bool :=
  p.valid 0 && p.valid 1

/-- SYSFN_OPCODE, where set, is "one of the unassigned codes" (R3, R100). -/
def Params.sysfnOk (p : Params) : Bool :=
  match p.sysfnOpcode with
  | none => true
  | some c => unassignedCodes.contains c.toNat

/-- SYSFN_IMPL is a "partial map from codes >= $80" (R3, R302). -/
def Params.sysfnCodesOk (p : Params) : Bool :=
  p.sysfnCodes.all fun c => decide (0x80 ≤ c.toNat)

/-- All constraints of R3 together. -/
def Params.wf (p : Params) : Bool :=
  p.threadsOk && p.dstackOk && p.cstackOk && p.typeMap.wf && p.regionsOk && p.originOk && p.sysfnOk && p.sysfnCodesOk

/-- An instruction is well-formed under the parameters when some code stands for it: every instruction but SYSFN while
SYSFN_OPCODE is unset (R98, R100). -/
def Instr.wf (p : Params) (i : Instr) : Bool :=
  match i with
  | .sysfn => p.sysfnOpcode.isSome
  | _ => true

end Sys2Proof
end

