-- ==== Sys2Proof/Decode.lean ====
section
/-!
DEFINITION. Decoding of program words (spec/30_encoding.md R90 to R101) and, after it, the encoder, written from the same
tables: the opcode map of R98, the word layout of R92, the VLN layout of R93.
-/
namespace Sys2Proof

/-- Why a decoder answers no instruction. -/
inductive DecodeError where
  /-- Fewer than the two bytes of a program word. -/
  | tooShort
  /-- The word is not of class INSTR: a VLN group or a RESERVED word (R91). -/
  | notInstructions (c : WordClass)
  /-- An unassigned code while SYSFN_OPCODE is set to another: "Invalid instruction code" (R99). -/
  | invalidCode (c : Code7)
  /-- An unassigned code while SYSFN_OPCODE is unset: "either invalid or SYSFN" (R100). -/
  | invalidOrSysfn (c : Code7)
  deriving DecidableEq, Repr

/-- The class of a value of bits 15..14 (R91). -/
def TypeMap.classOf (m : TypeMap) (t : BitVec 2) : WordClass :=
  match t.toNat with
  | 0 => m.c00
  | 1 => m.c01
  | 2 => m.c10
  | _ => m.c11

/-- The class of a program word (R90). -/
def wordClass (m : TypeMap) (w : Word16) : WordClass :=
  m.classOf (w.extractLsb' 14 2)

/-- Bits 13..0 of a program word (R90). -/
def payloadOf (w : Word16) : Payload :=
  w.extractLsb' 0 14

/-- The instruction code of a slot of a payload: slot 0 is bits 6..0, slot 1 is bits 13..7 (R92). -/
def slotCode (odd : Bool) (p : Payload) : Code7 :=
  if odd then p.extractLsb' 7 7 else p.extractLsb' 0 7

/-- Rows $01 to $0e of R98. -/
def rowsControl : List (Nat × Instr) :=
  [(0x01, .setpr), (0x03, .breakLoop), (0x04, .again), (0x05, .call), (0x06, .acall), (0x07, .ret), (0x08, .maxthds),
   (0x09, .threads), (0x0b, .endAll), (0x0c, .endThread), (0x0d, .ntcall), (0x0e, .ntacall)]

/-- Rows $11 to $1c of R98. -/
def rowsStack : List (Nat × Instr) :=
  [(0x11, .empty), (0x12, .depth), (0x13, .drop), (0x14, .dup), (0x15, .swap), (0x16, .rot), (0x17, .overNth),
   (0x18, .enter), (0x19, .leave), (0x1a, .readVar), (0x1b, .writeVar), (0x1c, .delay)]

/-- Rows $20 to $2d of R98. -/
def rowsLogic : List (Nat × Instr) :=
  [(0x20, .com), (0x21, .not), (0x22, .and), (0x23, .or), (0x24, .xor), (0x26, .shl), (0x27, .shr),
   (0x28, .lt), (0x29, .le), (0x2a, .eq), (0x2b, .ne), (0x2c, .ge), (0x2d, .gt)]

/-- Rows $40 to $4b of R98. -/
def rowsArith : List (Nat × Instr) :=
  [(0x40, .add), (0x42, .sub), (0x44, .mul), (0x46, .div), (0x47, .modulo), (0x48, .inc), (0x49, .dec), (0x4b, .random)]

/-- Rows $50 to $6e of R98. -/
def rowsMemory : List (Nat × Instr) :=
  [(0x50, .fill), (0x52, .diff), (0x53, .copy), (0x58, .lenStr), (0x59, .scanStr), (0x5a, .diffStr), (0x5b, .copyStr),
   (0x60, .rdvln), (0x64, .rd32), (0x65, .rd16), (0x66, .rd8), (0x68, .wrvln), (0x6c, .wr32), (0x6d, .wr16), (0x6e, .wr8)]

/-- Rows $70 to $7f of R98. -/
def rowsStructures : List (Nat × Instr) :=
  [(0x70, .doMark), (0x71, .skip), (0x78, .repeatMark), (0x79, .untilMark), (0x7a, .whileMark), (0x7b, .repIf),
   (0x7c, .ifMark), (0x7d, .endIf), (0x7e, .elseMark), (0x7f, .nop)]

/-- The opcode map of R98: 70 codes. SYSFN's is a parameter (R100). -/
def opcodeRows : List (Nat × Instr) :=
  rowsControl ++ rowsStack ++ rowsLogic ++ rowsArith ++ rowsMemory ++ rowsStructures

/-- The instruction of a code in a list of rows. -/
def lookupRow (c : Nat) : List (Nat × Instr) → Option Instr
  | [] => none
  | (k, i) :: rows => if k = c then some i else lookupRow c rows

/-- The instruction of a 7-bit code, under SYSFN_OPCODE (R98, R99, R100). An assigned code is its own instruction's whatever
the parameter says. -/
def decodeCode (sysfnOpcode : Option Code7) (c : Code7) : Except DecodeError Instr :=
  match lookupRow c.toNat opcodeRows with
  | some i => .ok i
  | none =>
    match sysfnOpcode with
    | none => .error (.invalidOrSysfn c)
    | some o => if o = c then .ok .sysfn else .error (.invalidCode c)

/-- The instruction in a slot of a program word (R90 to R92). -/
def decodeWord (p : Params) (odd : Bool) (w : Word16) : Except DecodeError Instr :=
  match wordClass p.typeMap w with
  | .instr => decodeCode p.sysfnOpcode (slotCode odd (payloadOf w))
  | c => .error (.notInstructions c)

/-- The instruction in a slot of the word that any bytes begin with, lower byte first (spec/20_memory.md R63), and the bytes
after the word. -/
def decodeBytes (p : Params) (odd : Bool) : List Byte → Except DecodeError (Instr × List Byte)
  | lo :: hi :: rest =>
    match decodeWord p odd (hi ++ lo) with
    | .ok i => .ok (i, rest)
    | .error e => .error e
  | _ => .error .tooShort

/-! The encoder. -/

/-- The 2-bit code of a class: the inverse of WORD_TYPE_MAP (R95). -/
def TypeMap.codeOf (m : TypeMap) (c : WordClass) : BitVec 2 :=
  if m.c00 = c then 0 else if m.c01 = c then 1 else if m.c10 = c then 2 else 3

/-- The "7-bit instruction code" line of each instruction's entry (R134 to R275); none for SYSFN (R300). -/
def Instr.fixedCode : Instr → Option Code7
  | .nop => some 0x7f | .delay => some 0x1c | .doMark => some 0x70 | .skip => some 0x71 | .ifMark => some 0x7c
  | .elseMark => some 0x7e | .endIf => some 0x7d | .repeatMark => some 0x78 | .repIf => some 0x7b | .untilMark => some 0x79
  | .whileMark => some 0x7a | .breakLoop => some 0x03 | .again => some 0x04
  | .call => some 0x05 | .acall => some 0x06 | .ntcall => some 0x0d | .ntacall => some 0x0e | .ret => some 0x07
  | .maxthds => some 0x08 | .threads => some 0x09 | .endAll => some 0x0b | .endThread => some 0x0c | .setpr => some 0x01
  | .enter => some 0x18 | .leave => some 0x19
  | .empty => some 0x11 | .depth => some 0x12 | .drop => some 0x13 | .dup => some 0x14 | .swap => some 0x15
  | .rot => some 0x16 | .overNth => some 0x17 | .readVar => some 0x1a | .writeVar => some 0x1b
  | .com => some 0x20 | .not => some 0x21 | .and => some 0x22 | .or => some 0x23 | .xor => some 0x24
  | .shl => some 0x26 | .shr => some 0x27
  | .lt => some 0x28 | .le => some 0x29 | .eq => some 0x2a | .ne => some 0x2b | .ge => some 0x2c | .gt => some 0x2d
  | .add => some 0x40 | .sub => some 0x42 | .mul => some 0x44 | .div => some 0x46 | .modulo => some 0x47
  | .inc => some 0x48 | .dec => some 0x49 | .random => some 0x4b
  | .fill => some 0x50 | .diff => some 0x52 | .copy => some 0x53 | .lenStr => some 0x58 | .scanStr => some 0x59
  | .diffStr => some 0x5a | .copyStr => some 0x5b
  | .rdvln => some 0x60 | .rd32 => some 0x64 | .rd16 => some 0x65 | .rd8 => some 0x66
  | .wrvln => some 0x68 | .wr32 => some 0x6c | .wr16 => some 0x6d | .wr8 => some 0x6e
  | .sysfn => none

/-- The code of an instruction under SYSFN_OPCODE: none for SYSFN while that is unset (R100). -/
def encodeCode (sysfnOpcode : Option Code7) (i : Instr) : Option Code7 :=
  match i.fixedCode with
  | some c => some c
  | none => sysfnOpcode

/-- A program word of a class and a payload (R90). -/
def typedWord (m : TypeMap) (c : WordClass) (payload : Payload) : Word16 :=
  m.codeOf c ++ payload

/-- A word of two instruction codes: slot 0 low, slot 1 high (R92). -/
def instrWord (m : TypeMap) (slot0 slot1 : Code7) : Word16 :=
  typedWord m .instr (slot1 ++ slot0)

/-- The program word that holds two instructions, slot 0 first. -/
def encode (p : Params) (slot0 slot1 : Instr) : Option Word16 :=
  match encodeCode p.sysfnOpcode slot0, encodeCode p.sysfnOpcode slot1 with
  | some c0, some c1 => some (instrWord p.typeMap c0 c1)
  | _, _ => none

/-- Bits 14k+13 .. 14k of a value (R93). -/
def vlnGroup (v : W56) (k : Nat) : Payload :=
  v.extractLsb' (14 * k) 14

/-- The words of a VLN, lowest address first: the fewest that hold the value (R93, R95). -/
def vlnWords (m : TypeMap) (v : W56) : List Word16 :=
  if v.toNat < 2 ^ 14 then
    [typedWord m .vlnLast (vlnGroup v 0)]
  else if v.toNat < 2 ^ 28 then
    [typedWord m .vlnMore (vlnGroup v 0), typedWord m .vlnLast (vlnGroup v 1)]
  else if v.toNat < 2 ^ 42 then
    [typedWord m .vlnMore (vlnGroup v 0), typedWord m .vlnMore (vlnGroup v 1), typedWord m .vlnLast (vlnGroup v 2)]
  else
    [typedWord m .vlnMore (vlnGroup v 0), typedWord m .vlnMore (vlnGroup v 1), typedWord m .vlnMore (vlnGroup v 2),
     typedWord m .vlnLast (vlnGroup v 3)]

/-- The lower and the higher byte of a word (spec/20_memory.md R63). -/
def wordBytes (w : Word16) : List Byte :=
  [w.extractLsb' 0 8, w.extractLsb' 8 8]

/-- The bytes of the program word that carries a row of spec/opcode_table.json: the row's 7-bit code in slot 0, NOP in slot 1
(the padding of R102), the type code of INSTR. A row has 7 bits; a number with bits above them carries none. (Log 32.) -/
def tableBytes (m : TypeMap) (w : Nat) : List Byte :=
  if w < 2 ^ 7 then wordBytes (instrWord m (BitVec.ofNat 7 w) 0x7f) else []

/-- The instruction the decoder reads from a row's bits, under the parameters of State.reset. -/
def decodeTableWord (_nbits w : Nat) : Option Instr :=
  match decodeBytes Params.standard false (tableBytes Params.standard.typeMap w) with
  | .ok (i, _) => some i
  | .error _ => none

end Sys2Proof
end

