-- ==== Sys2Proof/Machine/State.lean ====
section
/-!
DEFINITION. The state of CPU7 (spec/10_state.md), as plain data: the machine record of R34 with the registers of the register
map that R34's fields do not already stand for (PXR, DLYC, DCR, ICR, R0 to R4), the open parameters, and a counter of free
values drawn. INVENTORY.md lists every field with its rule.
-/
namespace Sys2Proof.Machine

/-- Memory: (address, byte) pairs, addresses strictly rising, no byte equal to what an unlisted address reads as. -/
abbrev Memory := List Host.Cell

/-- What a byte of memory reads as that is not listed. The content of memory at a cold start is the platform's (R40, R351):
DESIGN CHOICE 0, unsafe (log 7). -/
def Memory.unlisted : Byte := 0

/-- The canonical form, for cells at addresses not below `lo`. -/
def Memory.wfFrom (lo : Nat) : Memory → Bool
  | [] => true
  | (a, b) :: m => decide (lo ≤ a) && (b != Memory.unlisted) && Memory.wfFrom (a + 1) m

/-- The canonical form of a memory. -/
def Memory.wf (m : Memory) : Bool :=
  Memory.wfFrom 0 m

/-- What ends a scan (R36). -/
inductive ScanKind where
  | skIf     -- an IF found 0: ELSE or ENDIF
  | skElse   -- an ELSE was executed: ENDIF
  | skLoop   -- a REPIF found 0 or a BREAK fired: UNTIL or WHILE
  | skSkip   -- a SKIP: DO
  deriving DecidableEq, Repr

/-- A structure opened in passed-over code (R36). -/
inductive OpenKind where
  | ifOpen
  | loopOpen
  deriving DecidableEq, Repr

/-- Whether a thread executes what it fetches (R36). -/
inductive Mode where
  | run
  | scan (kind : ScanKind) (opened : List OpenKind)
  deriving DecidableEq, Repr

/-- An entry of the control stack (R34, R35). An address is a word address NW(here), at most 2^28: one more than the addresses
of the space, which the word after the last one would have (log 17). -/
inductive CtlEntry where
  | callE (returnTo : Nat)
  | loopE (body : Nat)
  | ifE
  deriving DecidableEq, Repr

/-- A hardware thread (R34), with its hidden registers (R20, R21). -/
structure Thread where
  /-- The thread exists. -/
  live : Bool
  /-- Byte address of the instruction slot executed next; stands for PCP (R25, R34). -/
  pc : A28
  /-- The data stack, top first; its length is the depth counter (R30). -/
  stack : List W56
  /-- The control stack, innermost first: the call stack, and the open IFs of CAR (R26, R29, R35). -/
  ctl : List CtlEntry
  /-- The depth ENTER took a snapshot of, if one is held (R31). -/
  snap : Option Nat
  /-- V0 to V7 (R33). -/
  vars : Vector W56 8
  /-- The process priority register (R32). -/
  prio : Nat
  /-- Execution enabled or disabled: the rest of CAR (R26, R36). -/
  mode : Mode
  /-- Inside a DELAY (R34). -/
  held : Bool
  /-- DCR, the delay compare register (R24). -/
  dcr : W56
  /-- ICR, the payload of the program word being executed (R28). -/
  icr : Payload
  /-- R0 to R4 (R27). -/
  work : WorkRegs
  deriving DecidableEq, Repr

/-- The state of the machine. -/
structure State where
  /-- The open parameters; no step changes them. -/
  cfg : Params
  /-- The linear memory space (R38). -/
  mem : Memory
  /-- The threads; those below MAX_THREADS may be live (R34). -/
  thr : Vector Thread 128
  /-- PXR, the index of the thread whose registers are in use (R22). -/
  pxr : BitVec 7
  /-- DLYC, the free-running delay counter (R23). -/
  dlyc : W56
  /-- The platform's own state, in a coding of the platform's: what its peripherals (R69) and system functions (R302) remember
  (logs 21, 36). -/
  platform : Nat
  /-- The model's own: how many free values have been drawn (log 11). -/
  draws : Nat
  deriving DecidableEq, Repr

/-- Reasons for a stop that the machine has no successor from. -/
inductive Fault where
  /-- Raised by `step` where no thread is live, which no run reaches, since thread 0 never ends (R336). Safe. -/
  | noLiveThread
  deriving DecidableEq, Repr

/-- Situations the spec gives no meaning and refuses (spec/00_scope.md R10, spec/93_implementation_defined.md section 3). All of
them are safe: the model stops where hardware does something the spec does not state. -/
inductive Refusal where
  /-- An instruction without a meaning in this model. Raised by `exec`. Safe. -/
  | notModelled (mnemonic : String)
  /-- Fetch of a RESERVED word in Run mode (R96, R101). Raised by the fetch. Safe. -/
  | reservedWord
  /-- A fifth word announced, or a word that is no VLN group inside a VLN (R94, R101). Raised by the fetch and RDVLN. Safe. -/
  | malformedVln
  /-- A word that is not INSTR met at an odd pc (R96, R132). Raised by the fetch. Safe. -/
  | dataAtOddSlot
  /-- No next slot or word at the top of the address space (R96, R132, R362). Raised by the fetch and by jumps. Safe. -/
  | topOfMemory
  /-- An unassigned code while SYSFN_OPCODE is unset (R100). Raised by the fetch and by SYSFN. Safe. -/
  | unassignedWhileUnset
  /-- A closing mark of the wrong kind met in scan mode (R132). Raised by the scan. Safe. -/
  | scanMismatch
  /-- More than NEST_MAX structures opened in scan mode (R132). Raised by the scan. Safe. -/
  | scanTooDeep
  /-- More than NEST_MAX open IFs (R35, R132). Raised by IF, and by ELSE ending a scan. Safe. -/
  | tooManyIfs
  /-- SKIP in slot 1 (R137). Raised by SKIP. Safe. -/
  | skipAtOddAddress
  /-- A jump target below 0 or not below 2^28 (R137, R161 to R164). Raised by SKIP and the calls. Safe. -/
  | targetOutsideMemory
  /-- ELSE or ENDIF while the innermost open entry is no IF (R139, R140). Raised by ELSE and ENDIF. Safe. -/
  | ifNotInnermost
  /-- REPEAT or REPIF whose partner slot is not NOP (R141, R142). Raised by REPEAT and REPIF. Safe. -/
  | partnerNotNop
  /-- UNTIL or WHILE while the innermost open entry is a call or an IF (R143, R144). Raised by UNTIL and WHILE. Safe. -/
  | closerNotInLoop
  /-- A true BREAK or AGAIN while the innermost open entry is no loop (R145, R146). Raised by BREAK and AGAIN. Safe. -/
  | noInnermostLoop
  /-- RETURN while the innermost open entry is a loop or an IF (R165). Raised by RETURN, END and SETPR in thread 0. Safe. -/
  | returnInsideStructure
  /-- A new thread while all MAX_THREADS threads are live (R173). Raised by NTCALL and NTACALL. Safe. -/
  | noFreeThread
  /-- A register number above 7 (R197, R198). Raised by `!` and `=!`. Safe. -/
  | badVariable
  /-- A store from slot 0 into its own program word (R76, R356). Raised by every storing instruction, SYSFN among them. Safe. -/
  | storeIntoOwnWord
  /-- An 8-bit write to a peripheral location (R75). Raised by WR8. Safe. -/
  | byteWriteToPeripheral
  /-- A block or string instruction over a peripheral location (R260 item 6). Raised by those seven. Safe. -/
  | blockOverPeripheral
  /-- A write to a location the platform marks read-only (R62). Raised by every storing instruction but a system function, which is the
  platform itself (log 27). Safe. -/
  | readOnlyLocation
  deriving DecidableEq, Repr

/-- What a step or a meaning answers. -/
abbrev Out := Host.Outcome State Fault Refusal

/-- A thread that does not exist: "All other fields of `thr[k]` cease to exist" (R174). Nothing reads its fields (log 20). -/
def Thread.ended : Thread where
  live := false
  pc := 0
  stack := []
  ctl := []
  snap := none
  vars := #v[0, 0, 0, 0, 0, 0, 0, 0]
  prio := 0
  mode := .run
  held := false
  dcr := 0
  icr := 0
  work := ⟨0, 0, 0, 0, 0⟩

/-- Thread 0 at a cold start (R40, R350). V0 to V7, DCR, ICR and R0 to R4 have no stated value: DESIGN CHOICE 0, unsafe
(logs 8, 9). -/
def Thread.coldStart : Thread where
  live := true
  pc := 0
  stack := [0x101, 0]
  ctl := []
  snap := none
  vars := #v[0, 0, 0, 0, 0, 0, 0, 0]
  prio := 1
  mode := .run
  held := false
  dcr := 0
  icr := 0
  work := ⟨0, 0, 0, 0, 0⟩

/-- The machine after a cold start (R40, R350, R354). DLYC: DESIGN CHOICE 0, unsafe (log 9); the platform's own state:
DESIGN CHOICE 0 (log 36). -/
def State.reset : State where
  cfg := Params.standard
  mem := []
  thr := (Vector.replicate 128 Thread.ended).set 0 Thread.coldStart
  pxr := 0
  dlyc := 0
  platform := 0
  draws := 0

end Sys2Proof.Machine
end

