-- ==== Sys2Proof/Machine/Ops.lean ====
section
/-!
DEFINITION. The named operations over threads, memory, the control stack and the address space, and the restart (spec/10_state.md,
spec/20_memory.md, spec/41_calls_threads.md R173 and R174, spec/60_exceptions.md R324). Operations that may end an instruction
take what comes after them as a last argument, so that a meaning reads like the spec's pseudocode.
-/
namespace Sys2Proof.Machine

/-! ## Threads and registers -/

/-- The thread of an index. -/
def State.thread (s : State) (k : BitVec 7) : Thread :=
  s.thr[k.toNat]'k.isLt

/-- Replace a thread. -/
def State.setThread (s : State) (k : BitVec 7) (t : Thread) : State :=
  { s with thr := s.thr.set k.toNat t k.isLt }

/-- The thread whose registers are in use (R22). -/
def State.cur (s : State) : Thread :=
  s.thread s.pxr

/-- Replace the thread whose registers are in use. -/
def State.setCur (s : State) (t : Thread) : State :=
  s.setThread s.pxr t

def State.withPc (s : State) (a : A28) : State :=
  s.setCur { s.cur with pc := a }

def State.withStack (s : State) (xs : List W56) : State :=
  s.setCur { s.cur with stack := xs }

def State.withCtl (s : State) (es : List CtlEntry) : State :=
  s.setCur { s.cur with ctl := es }

def State.withMode (s : State) (m : Mode) : State :=
  s.setCur { s.cur with mode := m }

/-- One more free value has been drawn (log 11). -/
def State.drawn (s : State) (n : Nat) : State :=
  { s with draws := s.draws + n }

/-- The byte address of the executing instruction: the step has already set `pc <- here + 1` (R96, R130). -/
def State.here (s : State) : A28 :=
  s.cur.pc - 1

/-- `NW(a) = (a | 1) + 1`, the address of the word following the word that holds byte address `a` (R7). -/
def nextWord (a : Nat) : Nat :=
  (a ||| 1) + 1

/-- Every thread index. -/
def threadIndices : List (BitVec 7) :=
  (List.range 128).map (BitVec.ofNat 7)

/-- The threads that exist. -/
def State.liveThreads (s : State) : List (BitVec 7) :=
  threadIndices.filter fun k => (s.thread k).live

/-- The indices NewThread may choose from: "any k in 1 .. MAX_THREADS-1 with thr[k].live = false" (R173). -/
def State.freeThreads (s : State) : List (BitVec 7) :=
  threadIndices.filter fun k =>
    decide (k.toNat ≠ 0) && decide (k.toNat < s.cfg.maxThreads) && !(s.thread k).live

/-- One of a list of indices: the only one where there is one, else the one a free number points at. -/
def pickIndex (free : Nat) : List (BitVec 7) → Option (BitVec 7)
  | [] => none
  | [k] => some k
  | ks => ks[free % ks.length]?

/-! ## Restart (R310, R324 to R328) -/

/-- The code a restart leaves on top of the data stack (R311, R313 to R323). -/
def restartCode : Condition → W56
  | .invalidCode => 0x100
  | .alignment => 0x102
  | .badMemory => 0x103
  | .badIndex => 0x104
  | .stackOverflow => 0x105
  | .stackUnderflow => 0x106
  | .callOverflow => 0x107
  | .callUnderflow => 0x108
  | .arithmetic => 0x109
  | .badStructure => 0x10a
  | .doubleEnter => 0x10b
  | .leaveWithoutEnter => 0x10c

/-- Eight unspecified variable registers, drawn from `n` on (R40, D16; log 10). -/
def freeVars (n : Nat) : Vector W56 8 :=
  #v[Config.freeWord n, Config.freeWord (n + 1), Config.freeWord (n + 2), Config.freeWord (n + 3),
     Config.freeWord (n + 4), Config.freeWord (n + 5), Config.freeWord (n + 6), Config.freeWord (n + 7)]

/-- A thread that begins at an address with a data stack: the record of R173 and R324. It uses up nine free words. -/
def Thread.begun (n : Nat) (pc : A28) (stack : List W56) : Thread where
  live := true
  pc := pc
  stack := stack
  ctl := []
  snap := none
  vars := freeVars n
  prio := 1
  mode := .run
  held := false
  dcr := Config.freeWord (n + 8)
  icr := Config.freePayload n
  work := Config.freeWork n

/-- EVENT_ADDR (R325), for a condition raised by the slot or by the fetch of the word at `at_`. The spec's second candidate is `NW(here)`;
where a later word of a constant cannot be fetched, `at_` is that word and not `here`: DESIGN CHOICE, the word after that one (log 5). -/
def State.eventAddress (s : State) (at_ : Nat) : W56 :=
  match s.cfg.eventRule with
  | .slot => BitVec.ofNat 56 at_
  | .nextWord => BitVec.ofNat 56 (nextWord at_)
  | .unstated => Config.freeAddress s.draws

/-- Restart(code), raised at an address: all threads but 0 end, thread 0 starts again at address 0 with the code and the event
address on its data stack, memory is unchanged (R324, R40). -/
def State.restart (s : State) (c : Condition) (at_ : Nat) : State :=
  { s with
    thr := (Vector.replicate 128 Thread.ended).set 0
      (Thread.begun s.draws 0 [restartCode c, s.eventAddress at_])
    pxr := 0
    draws := s.draws + 9 }

/-- `raise Restart(code)` in an instruction: a next state (R9, R324). -/
def raise (c : Condition) (s : State) : Out :=
  .next (s.restart c s.here.toNat)

/-! ## The address space (R60 to R66) -/

/-- Whether some of `n` addresses from `a` on has a property. -/
def anyByte (p : Nat → Bool) (a : Nat) : Nat → Bool
  | 0 => false
  | n + 1 => p a || anyByte p (a + 1) n

/-- Whether a byte of a range stands in a region of a kind. -/
def State.touches (s : State) (k : RegionKind) (a n : Nat) : Bool :=
  anyByte (fun b => s.cfg.kindAt b == some k) a n

/-- The checks MemRead and MemWrite make, in their order: range, alignment, validity (R64, R65, D24). -/
def State.accessCheck (s : State) (a n : Nat) : Option Condition :=
  if 2 ^ 28 < a + n then some .badMemory
  else if 1 < n ∧ a % 2 = 1 then some .alignment
  else if anyByte (fun b => !s.cfg.valid b) a n then some .badMemory
  else none

/-- A byte of memory: the first cell of the address in the list. -/
def Memory.read (a : Nat) : Memory → Byte
  | [] => Memory.unlisted
  | (k, b) :: m => if k = a then b else Memory.read a m

/-- Write a byte, keeping the canonical form. -/
def Memory.write (a : Nat) (b : Byte) : Memory → Memory
  | [] => if b = Memory.unlisted then [] else [(a, b)]
  | (k, c) :: m =>
    if a < k then (if b = Memory.unlisted then (k, c) :: m else (a, b) :: (k, c) :: m)
    else if a = k then (if b = Memory.unlisted then m else (a, b) :: m)
    else (k, c) :: Memory.write a b m

/-- Little-endian value of `n` bytes, the one at the lowest address lowest (R63, R64). -/
def leValue (byte : Nat → Byte) (a : Nat) : Nat → Nat
  | 0 => 0
  | n + 1 => (byte a).toNat + 256 * leValue byte (a + 1) n

/-- The byte that a bus transfer of `width` bytes brings from an address: the platform's at a peripheral location (R69), memory's elsewhere. -/
def State.byteAt (s : State) (width a : Nat) : Byte :=
  if s.cfg.kindAt a = some .peripheral then Config.peripheralByte s.platform s.draws width a else s.mem.read a

/-- What one bus transfer of `n` bytes brings (R63, R75). -/
def State.valueAt (s : State) (a n : Nat) : Nat :=
  leValue (s.byteAt n) a n

/-- After a bus transfer that reads: where a peripheral location answered, a free value more has been drawn and the platform has moved on
(R69; log 21). -/
def State.afterRead (s : State) (a n : Nat) : State :=
  if s.touches .peripheral a n then
    { s with platform := Config.platformRead s.platform s.draws a n, draws := s.draws + 1 }
  else s

/-- The 16-bit word at an address. -/
def State.wordAt (s : State) (a : Nat) : Word16 :=
  BitVec.ofNat 16 (s.valueAt a 2)

/-- Store a byte in memory, which keeps nothing at a peripheral location (R69; log 21). -/
def State.storeByte (s : State) (a : Nat) (b : Byte) : State :=
  if s.cfg.kindAt a = some .peripheral then s else { s with mem := s.mem.write a b }

/-- Store bytes, the first at the lowest address. -/
def State.storeBytes (s : State) (a : Nat) : List Byte → State
  | [] => s
  | b :: bs => (s.storeByte a b).storeBytes (a + 1) bs

/-- After a bus transfer that writes bytes: where some go to a peripheral location, the platform has moved on (R69, R75; log 21). -/
def State.afterWrite (s : State) (a : Nat) (bytes : List Byte) : State :=
  if s.touches .peripheral a bytes.length then { s with platform := Config.platformWrite s.platform s.draws a bytes } else s

/-- One bus transfer that writes: memory takes the bytes that are its own, the platform the transfer (R69, R75). -/
def State.transfer (s : State) (a : Nat) (bytes : List Byte) : State :=
  (s.storeBytes a bytes).afterWrite a bytes

/-- The low `n` bytes of a number, lowest first (R63, R65). -/
def leBytes (v : Nat) : Nat → List Byte
  | 0 => []
  | n + 1 => BitVec.ofNat 8 v :: leBytes (v / 256) n

/-- A store, executed from slot 0, that writes either byte of its own program word (R76, R356). -/
def State.hitsOwnWord (s : State) (a n : Nat) : Bool :=
  decide (s.here.toNat % 2 = 0) && decide (a < s.here.toNat + 2) && decide (s.here.toNat < a + n)

/-- MemRead of R64, and what follows it: one bus transfer, or "two bus transfers, low word first" for 32 bits (R75). -/
def memRead (s : State) (a n : Nat) (k : Nat → State → Out) : Out :=
  match s.accessCheck a n with
  | some c => raise c s
  | none =>
    if n = 4 then
      k (s.valueAt a 2 + 2 ^ 16 * (s.afterRead a 2).valueAt (a + 2) 2) ((s.afterRead a 2).afterRead (a + 2) 2)
    else k (s.valueAt a n) (s.afterRead a n)

/-- MemWrite of R65, and what follows it: the checks, the stores the spec refuses (R62, R75, R356), then one bus transfer, or "two bus
transfers, low word first" for 32 bits (R75). -/
def memWrite (s : State) (a : Nat) (bytes : List Byte) (k : State → Out) : Out :=
  match s.accessCheck a bytes.length with
  | some c => raise c s
  | none =>
    if s.touches .rom a bytes.length then .refused .readOnlyLocation
    else if bytes.length = 1 ∧ s.touches .peripheral a 1 then .refused .byteWriteToPeripheral
    else if s.hitsOwnWord a bytes.length then .refused .storeIntoOwnWord
    else if bytes.length = 4 then k ((s.transfer a (bytes.take 2)).transfer (a + 2) (bytes.drop 2))
    else k (s.transfer a bytes)

/-! ## VLN constants in memory (R94, R95) -/

/-- ReadVLN of R94, from the group `left` words before the fifth on. `fail` says what a condition raised by the read of a word
at an address does: RDVLN and the fetch report different addresses (R325). -/
def readVlnFrom (fail : Condition → Nat → State → Out) (k : W56 → Nat → State → Out) :
    Nat → Nat → Nat → Nat → State → Out
  | 0, _, _, _, _ => .refused .malformedVln
  | left + 1, acc, group, a, s =>
    match s.accessCheck a 2 with
    | some c => fail c a s
    | none =>
      let w := s.wordAt a
      let acc' := acc + (payloadOf w).toNat * 2 ^ (14 * group)
      match wordClass s.cfg.typeMap w with
      | .vlnLast => k (BitVec.ofNat 56 acc') (a + 2) (s.afterRead a 2)
      | .vlnMore => readVlnFrom fail k left acc' (group + 1) (a + 2) (s.afterRead a 2)
      | .instr => .refused .malformedVln
      | .reserved => .refused .malformedVln

/-- ReadVLN of R94: at most four words. -/
def readVln (fail : Condition → Nat → State → Out) (s : State) (a : Nat) (k : W56 → Nat → State → Out) : Out :=
  readVlnFrom fail k 4 0 0 a s

/-- The stores of WriteVLN (R95): one MemWrite a word; a restart on word k leaves words 0..k-1 written. Then the address after
the last word. -/
def writeWords (k : Nat → State → Out) : List Word16 → Nat → State → Out
  | [], a, s => k a s
  | w :: ws, a, s => memWrite s a (wordBytes w) fun s => writeWords k ws (a + 2) s

/-- WriteVLN of R95. -/
def writeVln (s : State) (a : Nat) (v : W56) (k : Nat → State → Out) : Out :=
  writeWords k (vlnWords s.cfg.typeMap v) a s

/-! ## The control stack (R35) -/

/-- Whether an entry occupies the hardware call stack (R35). -/
def CtlEntry.onCallStack : CtlEntry → Bool
  | .callE _ => true
  | .loopE _ => true
  | .ifE => false

/-- Occupancy of the hardware call stack (R35). -/
def callCount (es : List CtlEntry) : Nat :=
  es.countP CtlEntry.onCallStack

/-- The number of open IFs (R35). -/
def ifCount (es : List CtlEntry) : Nat :=
  es.countP fun e => !e.onCallStack

/-- Push a call or a loop entry: `Restart($107)` when the call stack is full (R35, R318). -/
def pushCall (s : State) (e : CtlEntry) (k : State → Out) : Out :=
  if callCount s.cur.ctl < s.cfg.cstackSize then k (s.withCtl (e :: s.cur.ctl)) else raise .callOverflow s

/-- PushIf of R132. -/
def pushIf (s : State) (k : State → Out) : Out :=
  if ifCount s.cur.ctl < s.cfg.nestMax then k (s.withCtl (.ifE :: s.cur.ctl)) else .refused .tooManyIfs

/-- `pc <- a`. The word after the last one of the address space does not exist: refused (R362, D37). -/
def jump (s : State) (a : Nat) : Out :=
  if a < 2 ^ 28 then .next (s.withPc (BitVec.ofNat 28 a)) else .refused .topOfMemory

/-- The pseudocode of RETURN (R165), which END (R169) and `0 SETPR` (R170) share in thread 0. -/
def returnOp (s : State) : Out :=
  if callCount s.cur.ctl = 0 then raise .callUnderflow s
  else
    match s.cur.ctl with
    | .callE r :: es => jump (s.withCtl es) r
    | _ => .refused .returnInsideStructure

/-! ## Creating and ending threads (R173, R174) -/

/-- NewThread of R173: any free index, the one a free value chooses (log 30). -/
def newThread (s : State) (target : A28) (k : State → Out) : Out :=
  match pickIndex (Config.freeIndex s.draws) s.freeThreads with
  | none => .refused .noFreeThread
  | some i => k ((s.setThread i (Thread.begun s.draws target [])).drawn 9)

/-- EndThread of R174. -/
def State.endThread (s : State) (k : BitVec 7) : State :=
  s.setThread k Thread.ended

/-- EndThread of every thread but 0 (R168). -/
def State.endOthers (s : State) : State :=
  { s with thr := (Vector.replicate 128 Thread.ended).set 0 (s.thread 0) }

/-- The pseudocode of END (R169), which `0 SETPR` shares (R170). -/
def endOp (s : State) : Out :=
  if s.pxr = 0 then returnOp s else .next (s.endThread s.pxr)

/-! ## Blocks and strings (R260 to R267) -/

/-- The part of a range that lies below 2^28. -/
def clipped (a c : Nat) : Nat :=
  min c (2 ^ 28 - a)

/-- Whether a range lies below 2^28 and every byte of it exists (R260 item 2). -/
def State.rangeOk (s : State) (a c : Nat) : Bool :=
  decide (a + c ≤ 2 ^ 28) && !anyByte (fun b => !s.cfg.valid b) a c

/-- `c` bytes of plain memory. -/
def State.bytesAt (s : State) (a : Nat) : Nat → List Byte
  | 0 => []
  | c + 1 => s.mem.read a :: s.bytesAt (a + 1) c

/-- The bytes a copy means to write, where its source exists (R260 item 5; log 24). -/
def State.sourceBytes (s : State) (a : Nat) : Nat → List (Option Byte)
  | 0 => []
  | c + 1 =>
    (if decide (a < 2 ^ 28) && s.cfg.valid a then some (s.mem.read a) else none) :: s.sourceBytes (a + 1) c

/-- "Every valid byte of its destination range holds either its old or its intended new value, which one is unspecified" (R260
item 5): a free choice for each address. -/
def State.storeSome (s : State) (a : Nat) : List (Option Byte) → State
  | [] => s
  | some b :: bs =>
    (if s.cfg.valid a && Config.blockWrote s.draws a then s.storeByte a b else s).storeSome (a + 1) bs
  | none :: bs => s.storeSome (a + 1) bs

/-- `Restart($103)` raised by a block or string instruction with these intended bytes at a destination (R260 item 5). -/
def raiseInBlock (s : State) (dst : Nat) (intended : List (Option Byte)) : Out :=
  raise .badMemory ((s.storeSome dst intended).drawn 1)

/-- The write of FILL (R261): the peripherals item 6 of R260 refuses, which the spec does not order against $103 (DESIGN CHOICE, log 22), the
range, the writes the spec refuses (R62, R356), then all bytes. -/
def fillBlock (s : State) (a c : Nat) (b : Byte) : Out :=
  if s.touches .peripheral a (clipped a c) then .refused .blockOverPeripheral
  else if !s.rangeOk a c then raiseInBlock s a (List.replicate (clipped a c) (some b))
  else if s.touches .rom a c then .refused .readOnlyLocation
  else if s.hitsOwnWord a c then .refused .storeIntoOwnWord
  else .next (s.storeBytes a (List.replicate c b))

/-- The copy of `=` and `=$` (R263, R267): "all reads before any write"; the checks in the order of `fillBlock` (log 22). -/
def copyBlock (s : State) (src dst c : Nat) : Out :=
  if s.touches .peripheral src (clipped src c) || s.touches .peripheral dst (clipped dst c) then
    .refused .blockOverPeripheral
  else if !(s.rangeOk src c && s.rangeOk dst c) then raiseInBlock s dst (s.sourceBytes src (clipped dst c))
  else if s.touches .rom dst c then .refused .readOnlyLocation
  else if s.hitsOwnWord dst c then .refused .storeIntoOwnWord
  else .next (s.storeBytes dst (s.bytesAt src c))

/-- How the search for a string's end goes (R264). -/
inductive StrEnd where
  | length (n : Nat)
  | invalid
  | peripheral
  deriving DecidableEq, Repr

/-- The least L with B(a+L) = 0, looking at `left` bytes, of which `seen` came before (R264). -/
def State.strEnd (s : State) : Nat → Nat → Nat → StrEnd
  | 0, _, _ => .invalid
  | left + 1, seen, a =>
    match s.cfg.kindAt a with
    | none => .invalid
    | some .peripheral => .peripheral
    | some _ => if s.mem.read a = 0 then .length seen else s.strEnd left (seen + 1) (a + 1)

/-- StrLen of R264, and what follows it. -/
def strLen (s : State) (a : Nat) (k : Nat → Out) : Out :=
  match s.strEnd (2 ^ 28 - a) 0 a with
  | .length n => k n
  | .invalid => raise .badMemory s
  | .peripheral => .refused .blockOverPeripheral

/-- How the comparison of two strings goes (R266). -/
inductive StrCmp where
  | equal
  | differAt (i : Nat)
  | invalid
  | peripheral
  deriving DecidableEq, Repr

/-- The least i with B(x+i) /= B(y+i) or B(x+i) = 0, looking at `left` bytes of each, of which `seen` came before (R266). Where at one
index one byte is peripheral and the other does not exist, below 2^28 or not, the spec orders neither item 6 of R260 nor $103 first:
DESIGN CHOICE, the refusal (log 22). -/
def State.strCmp (s : State) : Nat → Nat → Nat → Nat → StrCmp
  | 0, _, x, y =>
    if s.cfg.kindAt x = some .peripheral ∨ s.cfg.kindAt y = some .peripheral then .peripheral else .invalid
  | left + 1, seen, x, y =>
    if s.cfg.kindAt x = some .peripheral ∨ s.cfg.kindAt y = some .peripheral then .peripheral
    else if s.cfg.kindAt x = none ∨ s.cfg.kindAt y = none then .invalid
    else if s.mem.read x = s.mem.read y then
      (if s.mem.read x = 0 then .equal else s.strCmp left (seen + 1) (x + 1) (y + 1))
    else .differAt seen

/-- The least index at which two lists of one length differ (R262). -/
def firstDifference : List Byte → List Byte → Option Nat
  | x :: xs, y :: ys => if x = y then (firstDifference xs ys).map (· + 1) else some 0
  | _, _ => none

/-- The first place a string occurs in another (R265). -/
def findString (ys : List Byte) : List Byte → Option Nat
  | [] => if ys = [] then some 0 else none
  | x :: xs => if ys.isPrefixOf (x :: xs) then some 0 else (findString ys xs).map (· + 1)

end Sys2Proof.Machine
end

