-- ==== Sys2Proof/Machine/Operands.lean ====
section
/-!
DEFINITION. The operand forms. CPU7 has one: every parameter is popped from the executing thread's data stack, rightmost first,
and every result is pushed there (spec/00_scope.md R6, spec/30_encoding.md R97, spec/40_control.md R130).
-/
namespace Sys2Proof.Machine

/-- `pop()` of R6, and what follows it. -/
def pop (s : State) (k : W56 → State → Out) : Out :=
  match s.cur.stack with
  | [] => raise .stackUnderflow s
  | x :: xs => k x (s.withStack xs)

/-- `push(v)` of R6, and what follows it. Full is written as "not below DSTACK_SIZE", which is R6's "= DSTACK_SIZE" wherever
the stack is no deeper than that (R34; log 19). -/
def push (v : W56) (s : State) (k : State → Out) : Out :=
  if s.cur.stack.length < s.cfg.dstackSize then k (s.withStack (v :: s.cur.stack)) else raise .stackOverflow s

/-- The form `x OP` with one result. -/
def unary (f : W56 → W56) (s : State) : Out :=
  pop s fun x s => push (f x) s .next

/-- The form `x y OP` with one result: `y` is popped first. -/
def binary (f : W56 → W56 → W56) (s : State) : Out :=
  pop s fun y s => pop s fun x s => push (f x y) s .next

/-- `n` unspecified values, for the elements LEAVE exposes again (spec/41_calls_threads.md R172; log 31). -/
def freeWords (from_ : Nat) : Nat → List W56
  | 0 => []
  | n + 1 => Config.freeWord from_ :: freeWords (from_ + 1) n

/-- The exchange of S[0] and S[i] (spec/42_stack.md R194). -/
def exchange (xs : List W56) (i : Nat) : List W56 :=
  match xs[0]?, xs[i]? with
  | some top, some v => (xs.set 0 v).set i top
  | _, _ => xs

end Sys2Proof.Machine
end

