-- ==== Sys2Proof/Machine/Arith.lean ====
section
/-!
DEFINITION. Arithmetic operations (spec/44_arith.md R230 to R248): `x` is the element at position 1, `y` the one at position 0.
-/
namespace Sys2Proof.Machine

/-- `<` (R231). -/
def execLt (s : State) : Out :=
  binary (fun x y => truth (decide (numberOf s.cfg.signedArith x < numberOf s.cfg.signedArith y))) s

/-- `<=` (R232). -/
def execLe (s : State) : Out :=
  binary (fun x y => truth (decide (numberOf s.cfg.signedArith x ≤ numberOf s.cfg.signedArith y))) s

/-- `==` (R233). -/
def execEq (s : State) : Out :=
  binary (fun x y => truth (x == y)) s

/-- `<>` (R234). -/
def execNe (s : State) : Out :=
  binary (fun x y => truth (x != y)) s

/-- `>=` (R235). -/
def execGe (s : State) : Out :=
  binary (fun x y => truth (decide (numberOf s.cfg.signedArith y ≤ numberOf s.cfg.signedArith x))) s

/-- `>` (R236): strict (spec/90_conflicts.md C3). -/
def execGt (s : State) : Out :=
  binary (fun x y => truth (decide (numberOf s.cfg.signedArith y < numberOf s.cfg.signedArith x))) s

/-- `+` (R237). -/
def execAdd (s : State) : Out :=
  binary (fun x y => x + y) s

/-- `-` (R238). -/
def execSub (s : State) : Out :=
  binary (fun x y => x - y) s

/-- `*` (R239). -/
def execMul (s : State) : Out :=
  binary (fun x y => x * y) s

/-- Quotient and remainder, `none` for the arithmetic error (R240, R241, R245): DIVMOD where an operand has bit 55 set. -/
def divide (x y : W56) : Option (W56 × W56) :=
  if y = 0 then none
  else if x.msb || y.msb then Config.divMod x y
  else some (x / y, x % y)

/-- `/` (R240). -/
def execDiv (s : State) : Out :=
  pop s fun y s => pop s fun x s =>
    match divide x y with
    | none => raise .arithmetic s
    | some (q, _) => push q s .next

/-- `//` (R241). -/
def execMod (s : State) : Out :=
  pop s fun y s => pop s fun x s =>
    match divide x y with
    | none => raise .arithmetic s
    | some (_, r) => push r s .next

/-- `++` (R242). -/
def execInc (s : State) : Out :=
  unary (fun x => x + 1) s

/-- `--` (R243). -/
def execDec (s : State) : Out :=
  unary (fun x => x - 1) s

/-- RANDOM (R244): a draw from all 56-bit values (log 26). -/
def execRandom (s : State) : Out :=
  push (Config.freeWord s.draws) (s.drawn 1) .next

end Sys2Proof.Machine
end

