-- ==== Sys2Proof/Machine/Calls.lean ====
section
/-!
DEFINITION. Calls, returns, threads, ENTER and LEAVE (spec/41_calls_threads.md R160 to R174).
-/
namespace Sys2Proof.Machine

/-- The target a backward distance gives, and what follows (R161, R163): outside the space refused, odd `Restart($102)`. -/
def backTarget (s : State) (x : W56) (k : Nat → Out) : Out :=
  if nextWord s.here.toNat < x.toNat ∨ 2 ^ 28 ≤ nextWord s.here.toNat - x.toNat then .refused .targetOutsideMemory
  else if (nextWord s.here.toNat - x.toNat) % 2 = 1 then raise .alignment s
  else k (nextWord s.here.toNat - x.toNat)

/-- The target an absolute address gives, and what follows (R162, R164). -/
def absTarget (s : State) (x : W56) (k : Nat → Out) : Out :=
  if 2 ^ 28 ≤ x.toNat then .refused .targetOutsideMemory
  else if x.toNat % 2 = 1 then raise .alignment s
  else k x.toNat

/-- Push the return address NW(here) and go to a target (R160 to R162). -/
def callTo (s : State) (target : Nat) : Out :=
  pushCall s (.callE (nextWord s.here.toNat)) fun s => .next (s.withPc (BitVec.ofNat 28 target))

/-- CALL (R161). -/
def execCall (s : State) : Out :=
  pop s fun x s => backTarget s x fun a => callTo s a

/-- ACALL (R162). -/
def execAcall (s : State) : Out :=
  pop s fun x s => absTarget s x fun a => callTo s a

/-- NTCALL (R163). -/
def execNtcall (s : State) : Out :=
  pop s fun x s => backTarget s x fun a => newThread s (BitVec.ofNat 28 a) .next

/-- NTACALL (R164). -/
def execNtacall (s : State) : Out :=
  pop s fun x s => absTarget s x fun a => newThread s (BitVec.ofNat 28 a) .next

/-- RETURN (R165). -/
def execReturn (s : State) : Out :=
  returnOp s

/-- MAXTHDS (R166). -/
def execMaxthds (s : State) : Out :=
  push (BitVec.ofNat 56 s.cfg.maxThreads) s .next

/-- THREADS (R167). -/
def execThreads (s : State) : Out :=
  push (BitVec.ofNat 56 s.liveThreads.length) s .next

/-- ENDALL (R168). -/
def execEndAll (s : State) : Out :=
  .next s.endOthers

/-- END (R169). -/
def execEnd (s : State) : Out :=
  endOp s

/-- SETPR (R170). -/
def execSetpr (s : State) : Out :=
  pop s fun x s => if x = 0 then endOp s else .next (s.setCur { s.cur with prio := x.toNat })

/-- ENTER (R171). -/
def execEnter (s : State) : Out :=
  match s.cur.snap with
  | some _ => raise .doubleEnter s
  | none => .next (s.setCur { s.cur with snap := some s.cur.stack.length })

/-- LEAVE (R172): cut the stack back to the snapshot, or expose unspecified elements again where it is shallower (log 31). -/
def execLeave (s : State) : Out :=
  match s.cur.snap with
  | none => raise .leaveWithoutEnter s
  | some n =>
    if n ≤ s.cur.stack.length then
      .next (s.setCur { s.cur with stack := s.cur.stack.drop (s.cur.stack.length - n), snap := none })
    else
      .next ((s.setCur { s.cur with
        stack := freeWords s.draws (n - s.cur.stack.length) ++ s.cur.stack, snap := none }).drawn
          (n - s.cur.stack.length))

end Sys2Proof.Machine
end

