-- ==== Sys2Proof/Machine/Control.lean ====
section
/-!
DEFINITION. Execution control and conditional structures (spec/40_control.md R134 to R147), as executed in Run mode. A meaning
starts from the state in which the step has set `pc <- here + 1` (R130).
-/
namespace Sys2Proof.Machine

/-- Whether the other slot of the program word being executed holds NOP (R141, R142), read in ICR (log 29). -/
def State.partnerIsNop (s : State) : Bool :=
  slotCode (decide (s.here.toNat % 2 = 0)) s.cur.icr == 0x7f

/-- Open a loop whose body begins at the word after this one (R141, R142). -/
def openLoop (s : State) : Out :=
  pushCall s (.loopE (nextWord s.here.toNat)) .next

/-- UNTIL and WHILE with the condition that sends execution back already tested (R143, R144). -/
def closeLoop (back : Bool) (s : State) : Out :=
  match s.cur.ctl with
  | .loopE b :: es => if back then jump s b else .next (s.withCtl es)
  | es => if callCount es = 0 then raise .badStructure s else .refused .closerNotInLoop

/-- ELSE and ENDIF: remove the innermost open IF (R139, R140). -/
def popIf (s : State) (k : State → Out) : Out :=
  if ifCount s.cur.ctl = 0 then raise .badStructure s
  else
    match s.cur.ctl with
    | .ifE :: es => k (s.withCtl es)
    | _ => .refused .ifNotInnermost

/-- NOP (R134). -/
def execNop (s : State) : Out :=
  .next s

/-- DELAY (R135): the thread is held; DCR gets the count DLYC will have then (log 13). -/
def execDelay (s : State) : Out :=
  pop s fun x s => .next (s.setCur { s.cur with held := true, dcr := s.dlyc + Config.delayTicks x })

/-- DO in Run mode (R136). -/
def execDo (s : State) : Out :=
  .next s

/-- SKIP (R137). -/
def execSkip (s : State) : Out :=
  pop s fun x s =>
    if s.here.toNat % 2 = 1 then .refused .skipAtOddAddress
    else if x.toNat % 2 = 1 then raise .alignment s
    else if 2 ^ 28 ≤ nextWord s.here.toNat + x.toNat then .refused .targetOutsideMemory
    else .next ((s.withMode (.scan .skSkip [])).withPc (BitVec.ofNat 28 (nextWord s.here.toNat + x.toNat)))

/-- IF (R138). -/
def execIf (s : State) : Out :=
  pop s fun x s => if x = 0 then .next (s.withMode (.scan .skIf [])) else pushIf s .next

/-- ELSE in Run mode (R139). -/
def execElse (s : State) : Out :=
  popIf s fun s => .next (s.withMode (.scan .skElse []))

/-- ENDIF in Run mode (R140). -/
def execEndIf (s : State) : Out :=
  popIf s .next

/-- REPEAT (R141). -/
def execRepeat (s : State) : Out :=
  if s.partnerIsNop then openLoop s else .refused .partnerNotNop

/-- REPIF (R142). -/
def execRepIf (s : State) : Out :=
  pop s fun x s =>
    if !s.partnerIsNop then .refused .partnerNotNop
    else if x = 0 then .next (s.withMode (.scan .skLoop []))
    else openLoop s

/-- UNTIL (R143): back to the loop's body on 0. -/
def execUntil (s : State) : Out :=
  pop s fun x s => closeLoop (x == 0) s

/-- WHILE (R144): back to the loop's body on anything but 0. -/
def execWhile (s : State) : Out :=
  pop s fun x s => closeLoop (x != 0) s

/-- BREAK (R145). -/
def execBreak (s : State) : Out :=
  pop s fun x s =>
    if x = 0 then .next s
    else
      match s.cur.ctl with
      | .loopE _ :: es => .next ((s.withCtl es).withMode (.scan .skLoop []))
      | _ => .refused .noInnermostLoop

/-- AGAIN (R146). -/
def execAgain (s : State) : Out :=
  pop s fun x s =>
    if x = 0 then .next s
    else
      match s.cur.ctl with
      | .loopE b :: _ => jump s b
      | _ => .refused .noInnermostLoop

end Sys2Proof.Machine
end

