-- ==== Sys2Proof/Machine/Logic.lean ====
section
/-!
DEFINITION. Logic and bitwise operations (spec/43_logic.md R210 to R216).
-/
namespace Sys2Proof.Machine

/-- COM (R210): the two's complement. -/
def execCom (s : State) : Out :=
  unary (fun x => ~~~x + 1) s

/-- NOT (R211): bitwise. -/
def execNot (s : State) : Out :=
  unary (fun x => ~~~x) s

/-- AND (R212). -/
def execAnd (s : State) : Out :=
  binary (fun x y => x &&& y) s

/-- OR (R213). -/
def execOr (s : State) : Out :=
  binary (fun x y => x ||| y) s

/-- XOR (R214). -/
def execXor (s : State) : Out :=
  binary (fun x y => x ^^^ y) s

/-- SHL (R215): a count of 56 or more gives 0. -/
def execShl (s : State) : Out :=
  binary (fun x y => if y.toNat < 56 then x <<< y.toNat else 0) s

/-- SHR (R216): logical; a count of 56 or more gives 0. -/
def execShr (s : State) : Out :=
  binary (fun x y => if y.toNat < 56 then x >>> y.toNat else 0) s

end Sys2Proof.Machine
end

