-- ==== Sys2Proof/Machine/MemoryOps.lean ====
section
/-!
DEFINITION. Operations with the memory (spec/45_memory_ops.md R260 to R275).
-/
namespace Sys2Proof.Machine

/-- FILL (R261). -/
def execFill (s : State) : Out :=
  pop s fun v s => pop s fun c s => pop s fun a s =>
    if c.toNat = 0 then .next s else fillBlock s a.toNat c.toNat (v.extractLsb' 0 8)

/-- DIFF (R262): how many characters remain at the first difference, that one included. -/
def execDiff (s : State) : Out :=
  pop s fun c s => pop s fun y s => pop s fun x s =>
    if c.toNat = 0 then push 0 s .next
    else if s.touches .peripheral x.toNat (clipped x.toNat c.toNat) || s.touches .peripheral y.toNat (clipped y.toNat c.toNat)
    then .refused .blockOverPeripheral
    else if !(s.rangeOk x.toNat c.toNat && s.rangeOk y.toNat c.toNat) then raise .badMemory s
    else
      match firstDifference (s.bytesAt x.toNat c.toNat) (s.bytesAt y.toNat c.toNat) with
      | none => push 0 s .next
      | some i => push (BitVec.ofNat 56 (c.toNat - i)) s .next

/-- `=`, the block copy (R263): source first, destination second. -/
def execCopy (s : State) : Out :=
  pop s fun c s => pop s fun n s => pop s fun a s =>
    if c.toNat = 0 then .next s else copyBlock s a.toNat n.toNat c.toNat

/-- LEN$ (R264). -/
def execLenStr (s : State) : Out :=
  pop s fun a s => strLen s a.toNat fun len => push (BitVec.ofNat 56 len) s .next

/-- SCAN$ (R265): the address of the first occurrence of string Y in string X, or 0. -/
def execScanStr (s : State) : Out :=
  pop s fun y s => pop s fun x s =>
    strLen s x.toNat fun lx => strLen s y.toNat fun ly =>
      match findString (s.bytesAt y.toNat ly) (s.bytesAt x.toNat lx) with
      | some p => push (BitVec.ofNat 56 (x.toNat + p)) s .next
      | none => push 0 s .next

/-- DIFF$ (R266): the number of equal characters before the first difference, 0 for equal strings. -/
def execDiffStr (s : State) : Out :=
  pop s fun y s => pop s fun x s =>
    match s.strCmp (2 ^ 28 - max x.toNat y.toNat) 0 x.toNat y.toNat with
    | .equal => push 0 s .next
    | .differAt i => push (BitVec.ofNat 56 i) s .next
    | .invalid => raise .badMemory s
    | .peripheral => .refused .blockOverPeripheral

/-- `=$`, the string copy (R267): the terminator is copied too. -/
def execCopyStr (s : State) : Out :=
  pop s fun n s => pop s fun a s =>
    strLen s a.toNat fun len => copyBlock s a.toNat n.toNat (len + 1)

/-- A raw read of `n` bytes, zero-extended (R269 to R271). -/
def rawRead (n : Nat) (s : State) : Out :=
  pop s fun a s => memRead s a.toNat n fun v s => push (BitVec.ofNat 56 v) s .next

/-- A raw write of the low `n` bytes: the address is popped first, then the value (R273 to R275, spec/90_conflicts.md C8). -/
def rawWrite (n : Nat) (s : State) : Out :=
  pop s fun a s => pop s fun x s => memWrite s a.toNat (leBytes x.toNat n) .next

/-- RDVLN (R268): the value on top, the address after it beneath. -/
def execRdvln (s : State) : Out :=
  pop s fun a s =>
    readVln (fun c _ s => raise c s) s a.toNat fun v next s =>
      push (BitVec.ofNat 56 next) s fun s => push v s .next

/-- RD32 (R269). -/
def execRd32 (s : State) : Out :=
  rawRead 4 s

/-- RD16 (R270). -/
def execRd16 (s : State) : Out :=
  rawRead 2 s

/-- RD8 (R271). -/
def execRd8 (s : State) : Out :=
  rawRead 1 s

/-- WRVLN (R272). -/
def execWrvln (s : State) : Out :=
  pop s fun a s => pop s fun x s =>
    writeVln s a.toNat x fun next s => push (BitVec.ofNat 56 next) s .next

/-- WR32 (R273). -/
def execWr32 (s : State) : Out :=
  rawWrite 4 s

/-- WR16 (R274). -/
def execWr16 (s : State) : Out :=
  rawWrite 2 s

/-- WR8 (R275). -/
def execWr8 (s : State) : Out :=
  rawWrite 1 s

end Sys2Proof.Machine
end

