-- ==== Sys2Proof/Machine/Stack.lean ====
section
/-!
DEFINITION. Operations with the hardware data stack (spec/42_stack.md R190 to R199).
-/
namespace Sys2Proof.Machine

/-- EMPTY (R190). -/
def execEmpty (s : State) : Out :=
  .next (s.withStack [])

/-- DEPTH (R191): the depth counts the value it pushes. -/
def execDepth (s : State) : Out :=
  push (BitVec.ofNat 56 (s.cur.stack.length + 1)) s .next

/-- DROP (R192). -/
def execDrop (s : State) : Out :=
  pop s fun _ s => .next s

/-- DUP (R193). -/
def execDup (s : State) : Out :=
  pop s fun v s => push v s fun s => push v s .next

/-- SWAP (R194). -/
def execSwap (s : State) : Out :=
  pop s fun x s =>
    if x.toNat < s.cur.stack.length then .next (s.withStack (exchange s.cur.stack x.toNat)) else raise .badIndex s

/-- ROT (R195): the third element comes to the top. -/
def execRot (s : State) : Out :=
  pop s fun a s => pop s fun b s => pop s fun c s => push b s fun s => push a s fun s => push c s .next

/-- OVER (R196): copies the x-th element. -/
def execOver (s : State) : Out :=
  pop s fun x s =>
    match if x.toNat < s.cur.stack.length then s.cur.stack[x.toNat]? else none with
    | some v => push v s .next
    | none => raise .badIndex s

/-- `!` (R197): reads a variable register. -/
def execReadVar (s : State) : Out :=
  pop s fun x s =>
    if h : x.toNat < 8 then push s.cur.vars[x.toNat] s .next else .refused .badVariable

/-- `=!` (R198): writes a variable register. -/
def execWriteVar (s : State) : Out :=
  pop s fun x s => pop s fun v s =>
    if h : x.toNat < 8 then .next (s.setCur { s.cur with vars := s.cur.vars.set x.toNat v h }) else .refused .badVariable

end Sys2Proof.Machine
end

