-- ==== Sys2Proof/Machine/System.lean ====
section
/-!
DEFINITION. System functions (spec/46_system.md R300 to R304). A code below $80 runs the instruction of that code, SYSFN itself
among them; so the meanings of the other seventy are reached from here too.
-/
namespace Sys2Proof.Machine

/-- `Execute(c, here)` of R301 for a decoded code: the meaning of every instruction, with `again` for SYSFN itself. -/
def execNested (again : State → Out) (i : Instr) (s : State) : Out :=
  match i with
  | .nop => execNop s
  | .delay => execDelay s
  | .doMark => execDo s
  | .skip => execSkip s
  | .ifMark => execIf s
  | .elseMark => execElse s
  | .endIf => execEndIf s
  | .repeatMark => execRepeat s
  | .repIf => execRepIf s
  | .untilMark => execUntil s
  | .whileMark => execWhile s
  | .breakLoop => execBreak s
  | .again => execAgain s
  | .call => execCall s
  | .acall => execAcall s
  | .ntcall => execNtcall s
  | .ntacall => execNtacall s
  | .ret => execReturn s
  | .maxthds => execMaxthds s
  | .threads => execThreads s
  | .endAll => execEndAll s
  | .endThread => execEnd s
  | .setpr => execSetpr s
  | .enter => execEnter s
  | .leave => execLeave s
  | .empty => execEmpty s
  | .depth => execDepth s
  | .drop => execDrop s
  | .dup => execDup s
  | .swap => execSwap s
  | .rot => execRot s
  | .overNth => execOver s
  | .readVar => execReadVar s
  | .writeVar => execWriteVar s
  | .com => execCom s
  | .not => execNot s
  | .and => execAnd s
  | .or => execOr s
  | .xor => execXor s
  | .shl => execShl s
  | .shr => execShr s
  | .lt => execLt s
  | .le => execLe s
  | .eq => execEq s
  | .ne => execNe s
  | .ge => execGe s
  | .gt => execGt s
  | .add => execAdd s
  | .sub => execSub s
  | .mul => execMul s
  | .div => execDiv s
  | .modulo => execMod s
  | .inc => execInc s
  | .dec => execDec s
  | .random => execRandom s
  | .fill => execFill s
  | .diff => execDiff s
  | .copy => execCopy s
  | .lenStr => execLenStr s
  | .scanStr => execScanStr s
  | .diffStr => execDiffStr s
  | .copyStr => execCopyStr s
  | .rdvln => execRdvln s
  | .rd32 => execRd32 s
  | .rd16 => execRd16 s
  | .rd8 => execRd8 s
  | .wrvln => execWrvln s
  | .wr32 => execWr32 s
  | .wr16 => execWr16 s
  | .wr8 => execWr8 s
  | .sysfn => again s

/-- Take `n` elements from the data stack. -/
def popMany : Nat → State → (State → Out) → Out
  | 0, s, k => k s
  | n + 1, s, k => pop s fun _ s => popMany n s k

/-- Leave elements on the data stack, the first listed first. -/
def pushMany : List W56 → State → (State → Out) → Out
  | [], s, k => k s
  | v :: vs, s, k => push v s fun s => pushMany vs s k

/-- Store bytes where memory exists. What a system function does to peripherals is in its `platform` (log 27). -/
def State.storeAll (s : State) : List (A28 × Byte) → State
  | [] => s
  | (a, b) :: rest => (if s.cfg.valid a.toNat then s.storeByte a.toNat b else s).storeAll rest

/-- Whether stores, executed from slot 0, write either byte of the executing program word (R76, R356). -/
def State.storesOwnWord (s : State) (stores : List (A28 × Byte)) : Bool :=
  stores.any fun c => s.cfg.valid c.1.toNat && s.hitsOwnWord c.1.toNat 1

/-- A transition of "the executing thread's data stack, `mem`, the platform's own state", which "may also raise a Restart" (R302). DESIGN
CHOICE (log 27): the stack effect comes first, and where that restarts ($106, $105) neither a store is made nor the platform's state
changed; a system function that stores and restarts then is one with `raises`. -/
def systemFunction (e : SysEffect) (s : State) : Out :=
  popMany e.pops s fun s => pushMany e.pushes s fun s =>
    if s.storesOwnWord e.stores then .refused .storeIntoOwnWord
    else
      match e.raises with
      | none => .next ({ s with platform := e.platform }.storeAll e.stores)
      | some c => raise c ({ s with platform := e.platform }.storeAll e.stores)

/-- SYSFN (R300 to R302). A code of SYSFN_OPCODE "executes SYSFN again with the next stack value as its code" (R301): each turn
takes one element, so as many turns as the stack is deep, and one more that finds it empty, are all there can be. -/
def sysfnTurns : Nat → State → Out
  | 0, s => raise .stackUnderflow s
  | turns + 1, s =>
    pop s fun x s =>
      if x.toNat < 0x80 then
        match decodeCode s.cfg.sysfnOpcode (BitVec.ofNat 7 x.toNat) with
        | .ok i => execNested (sysfnTurns turns) i s
        | .error (.invalidOrSysfn _) => .refused .unassignedWhileUnset
        | .error _ => raise .invalidCode s
      else if s.cfg.sysfnCodes.contains x then
        systemFunction (Config.sysfnImpl s.platform s.draws x s.cur.stack s.mem) (s.drawn 1)
      else .next s

/-- SYSFN (R300). -/
def execSysfn (s : State) : Out :=
  sysfnTurns (s.cur.stack.length + 1) s

end Sys2Proof.Machine
end

