-- ==== Sys2Proof/Machine/Dispatch.lean ====
section
/-!
DEFINITION. The dispatch: one arm per instruction, each one direct call of its meaning.
-/
namespace Sys2Proof.Machine

def exec (i : Instr) (s : State) : Host.Outcome State Fault Refusal :=
  match i with
  | .nop => Sys2Proof.Machine.execNop s
  | .delay => Sys2Proof.Machine.execDelay s
  | .doMark => Sys2Proof.Machine.execDo s
  | .skip => Sys2Proof.Machine.execSkip s
  | .ifMark => Sys2Proof.Machine.execIf s
  | .elseMark => Sys2Proof.Machine.execElse s
  | .endIf => Sys2Proof.Machine.execEndIf s
  | .repeatMark => Sys2Proof.Machine.execRepeat s
  | .repIf => Sys2Proof.Machine.execRepIf s
  | .untilMark => Sys2Proof.Machine.execUntil s
  | .whileMark => Sys2Proof.Machine.execWhile s
  | .breakLoop => Sys2Proof.Machine.execBreak s
  | .again => Sys2Proof.Machine.execAgain s
  | .call => Sys2Proof.Machine.execCall s
  | .acall => Sys2Proof.Machine.execAcall s
  | .ntcall => Sys2Proof.Machine.execNtcall s
  | .ntacall => Sys2Proof.Machine.execNtacall s
  | .ret => Sys2Proof.Machine.execReturn s
  | .maxthds => Sys2Proof.Machine.execMaxthds s
  | .threads => Sys2Proof.Machine.execThreads s
  | .endAll => Sys2Proof.Machine.execEndAll s
  | .endThread => Sys2Proof.Machine.execEnd s
  | .setpr => Sys2Proof.Machine.execSetpr s
  | .enter => Sys2Proof.Machine.execEnter s
  | .leave => Sys2Proof.Machine.execLeave s
  | .empty => Sys2Proof.Machine.execEmpty s
  | .depth => Sys2Proof.Machine.execDepth s
  | .drop => Sys2Proof.Machine.execDrop s
  | .dup => Sys2Proof.Machine.execDup s
  | .swap => Sys2Proof.Machine.execSwap s
  | .rot => Sys2Proof.Machine.execRot s
  | .overNth => Sys2Proof.Machine.execOver s
  | .readVar => Sys2Proof.Machine.execReadVar s
  | .writeVar => Sys2Proof.Machine.execWriteVar s
  | .com => Sys2Proof.Machine.execCom s
  | .not => Sys2Proof.Machine.execNot s
  | .and => Sys2Proof.Machine.execAnd s
  | .or => Sys2Proof.Machine.execOr s
  | .xor => Sys2Proof.Machine.execXor s
  | .shl => Sys2Proof.Machine.execShl s
  | .shr => Sys2Proof.Machine.execShr s
  | .lt => Sys2Proof.Machine.execLt s
  | .le => Sys2Proof.Machine.execLe s
  | .eq => Sys2Proof.Machine.execEq s
  | .ne => Sys2Proof.Machine.execNe s
  | .ge => Sys2Proof.Machine.execGe s
  | .gt => Sys2Proof.Machine.execGt s
  | .add => Sys2Proof.Machine.execAdd s
  | .sub => Sys2Proof.Machine.execSub s
  | .mul => Sys2Proof.Machine.execMul s
  | .div => Sys2Proof.Machine.execDiv s
  | .modulo => Sys2Proof.Machine.execMod s
  | .inc => Sys2Proof.Machine.execInc s
  | .dec => Sys2Proof.Machine.execDec s
  | .random => Sys2Proof.Machine.execRandom s
  | .fill => Sys2Proof.Machine.execFill s
  | .diff => Sys2Proof.Machine.execDiff s
  | .copy => Sys2Proof.Machine.execCopy s
  | .lenStr => Sys2Proof.Machine.execLenStr s
  | .scanStr => Sys2Proof.Machine.execScanStr s
  | .diffStr => Sys2Proof.Machine.execDiffStr s
  | .copyStr => Sys2Proof.Machine.execCopyStr s
  | .rdvln => Sys2Proof.Machine.execRdvln s
  | .rd32 => Sys2Proof.Machine.execRd32 s
  | .rd16 => Sys2Proof.Machine.execRd16 s
  | .rd8 => Sys2Proof.Machine.execRd8 s
  | .wrvln => Sys2Proof.Machine.execWrvln s
  | .wr32 => Sys2Proof.Machine.execWr32 s
  | .wr16 => Sys2Proof.Machine.execWr16 s
  | .wr8 => Sys2Proof.Machine.execWr8 s
  | .sysfn => Sys2Proof.Machine.execSysfn s

end Sys2Proof.Machine
end

