-- ==== Sys2Proof/Machine/Cycle.lean ====
section
/-!
DEFINITION. One step of the machine: which thread takes it (spec/60_exceptions.md R333), the fetch (spec/30_encoding.md R96), scan
mode (spec/40_control.md R132), a constant in the instruction stream, and the release of a held thread (R135).
-/
namespace Sys2Proof.Machine

/-- The thread the next step belongs to: any live one, which one a free value chooses (R333, D25; log 12). -/
def State.chosen (s : State) : Option (BitVec 7) :=
  pickIndex (Config.schedule s.draws) s.liveThreads

/-- Time passes: DLYC holds an unspecified value (R23; log 14). -/
def State.tick (s : State) : State :=
  { s with dlyc := Config.freeWord s.draws, draws := s.draws + 1 }

/-- PXR selects a thread (R22), whose working registers hold unspecified values (R27; log 14). -/
def State.select (s : State) (k : BitVec 7) : State :=
  let t := { s.tick with pxr := k }
  t.setCur { t.cur with work := Config.freeWork s.draws }

/-- Release(t) of R135: the delay of a held thread ends. -/
def State.release (s : State) (k : BitVec 7) : State :=
  s.tick.setThread k { s.thread k with held := false }

/-- The address of the word that holds a byte address. -/
def wordAddress (a : Nat) : Nat :=
  a - a % 2

/-- The state an instruction executes from: ICR holds its word's payload (R28; log 29), `pc <- here + 1` (R96). -/
def State.atSlot (s : State) (here : Nat) (w : Word16) : State :=
  s.setCur { s.cur with pc := BitVec.ofNat 28 (here + 1), icr := payloadOf w }

/-- An instruction of the word at `here` in Run mode (R96, R99, R100). At the last slot of the address space there is no next
slot (R362). -/
def runSlot (here : Nat) (w : Word16) (s : State) : Out :=
  if here = 2 ^ 28 - 1 then .refused .topOfMemory
  else
    match decodeCode s.cfg.sysfnOpcode (slotCode (decide (here % 2 = 1)) (payloadOf w)) with
    | .ok i => exec i (s.atSlot here w)
    | .error (.invalidOrSysfn _) => .refused .unassignedWhileUnset
    | .error _ => raise .invalidCode (s.atSlot here w)

/-- A VLN constant in the instruction stream: pushed whole in one step (R96). A read that fails reports the address of the word
that could not be fetched, the push the constant's own address (R325; log 34); under EventRule.nextWord it reports the word after that
one (DESIGN CHOICE, log 5). -/
def pushConstant (here : Nat) (s : State) : Out :=
  readVln (fun c a s => .next (s.restart c a)) s here fun v next s =>
    if s.cur.stack.length < s.cfg.dstackSize then jump (s.withStack (v :: s.cur.stack)) next
    else .next (s.restart .stackOverflow here)

/-- A fetched word in Run mode (R96, R101). -/
def runWord (here : Nat) (w : Word16) (s : State) : Out :=
  match wordClass s.cfg.typeMap w with
  | .instr => runSlot here w s
  | .vlnLast => if here % 2 = 1 then .refused .dataAtOddSlot else pushConstant here s
  | .vlnMore => if here % 2 = 1 then .refused .dataAtOddSlot else pushConstant here s
  | .reserved => .refused .reservedWord

/-- An opening mark met in scan mode (R132). -/
def scanOpen (o : OpenKind) (kind : ScanKind) (opened : List OpenKind) (s : State) : Out :=
  if opened.length < s.cfg.nestMax then .next (s.withMode (.scan kind (o :: opened))) else .refused .scanTooDeep

/-- ENDIF in scan mode (R132). -/
def scanEndIf (kind : ScanKind) (opened : List OpenKind) (s : State) : Out :=
  match opened with
  | [] => if kind = .skIf ∨ kind = .skElse then .next (s.withMode .run) else .refused .scanMismatch
  | .ifOpen :: rest => .next (s.withMode (.scan kind rest))
  | .loopOpen :: _ => .refused .scanMismatch

/-- ELSE in scan mode (R132). -/
def scanElse (kind : ScanKind) (opened : List OpenKind) (s : State) : Out :=
  match opened with
  | [] => if kind = .skIf then pushIf s (fun s => .next (s.withMode .run)) else .refused .scanMismatch
  | .ifOpen :: _ => .next s
  | .loopOpen :: _ => .refused .scanMismatch

/-- UNTIL and WHILE in scan mode (R132). -/
def scanClose (kind : ScanKind) (opened : List OpenKind) (s : State) : Out :=
  match opened with
  | [] => if kind = .skLoop then .next (s.withMode .run) else .refused .scanMismatch
  | .loopOpen :: rest => .next (s.withMode (.scan kind rest))
  | .ifOpen :: _ => .refused .scanMismatch

/-- DO in scan mode (R132, R136). -/
def scanDo (kind : ScanKind) (opened : List OpenKind) (s : State) : Out :=
  if opened = [] ∧ kind = .skSkip then .next (s.withMode .run) else .next s

/-- A code met in scan mode: the marks count, everything else is "treated as NOP" (R132). -/
def scanCode (c : Code7) (kind : ScanKind) (opened : List OpenKind) (s : State) : Out :=
  match lookupRow c.toNat opcodeRows with
  | some .ifMark => scanOpen .ifOpen kind opened s
  | some .repeatMark => scanOpen .loopOpen kind opened s
  | some .repIf => scanOpen .loopOpen kind opened s
  | some .endIf => scanEndIf kind opened s
  | some .elseMark => scanElse kind opened s
  | some .untilMark => scanClose kind opened s
  | some .whileMark => scanClose kind opened s
  | some .doMark => scanDo kind opened s
  | _ => .next s

/-- A fetched word in scan mode (R132): a word that holds no instructions is passed over whole. -/
def scanWord (kind : ScanKind) (opened : List OpenKind) (here : Nat) (w : Word16) (s : State) : Out :=
  if wordClass s.cfg.typeMap w = .instr then
    if here = 2 ^ 28 - 1 then .refused .topOfMemory
    else scanCode (slotCode (decide (here % 2 = 1)) (payloadOf w)) kind opened (s.atSlot here w)
  else if here % 2 = 1 then .refused .dataAtOddSlot
  else if 2 ^ 28 ≤ here + 2 then .refused .topOfMemory
  else .next (s.withPc (BitVec.ofNat 28 (here + 2)))

/-- One step of the selected thread: fetch the word at pc, then run it or scan it (R96, R132). A word that cannot be fetched
reports its own address (R325). -/
def runThread (s : State) : Out :=
  match s.accessCheck (wordAddress s.cur.pc.toNat) 2 with
  | some c => .next (s.restart c (wordAddress s.cur.pc.toNat))
  | none =>
    match s.cur.mode with
    | .run =>
      runWord s.cur.pc.toNat (s.wordAt (wordAddress s.cur.pc.toNat)) (s.afterRead (wordAddress s.cur.pc.toNat) 2)
    | .scan kind opened =>
      scanWord kind opened s.cur.pc.toNat (s.wordAt (wordAddress s.cur.pc.toNat))
        (s.afterRead (wordAddress s.cur.pc.toNat) 2)

/-- One step of the machine: a held thread is released, any other one runs (R135, R333). -/
def machineStep (s : State) : Out :=
  match s.chosen with
  | none => .fault .noLiveThread
  | some k => if (s.thread k).held then .next (s.release k) else runThread (s.select k)

/-- Put an instruction code into the slot a thread fetches next, NOP into the other slot of its word, and let the thread fetch
and execute there: in Run mode, not held (log 32). -/
def State.placeCode (s : State) (k : BitVec 7) (c : Code7) : State :=
  let a := wordAddress (s.thread k).pc.toNat
  let w := if (s.thread k).pc.toNat % 2 = 0 then instrWord s.cfg.typeMap c 0x7f else instrWord s.cfg.typeMap 0x7f c
  { s with mem := (s.mem.write a (w.extractLsb' 0 8)).write (a + 1) (w.extractLsb' 8 8) }.setThread k
    { s.thread k with mode := .run, held := false }

end Sys2Proof.Machine
end

