-- ==== Sys2Proof/Machine/Step.lean ====
section
/-!
DEFINITION. The step of the machine, and the placing of an instruction where it fetches next.
-/
namespace Sys2Proof.Machine

/-- One step: spec/30_encoding.md R96, spec/40_control.md R132 and R135, under any schedule (spec/60_exceptions.md R333). -/
def step (s : State) : Host.Outcome State Fault Refusal :=
  machineStep s

/-- The state with a row's 7-bit code in the slot that the next step fetches (log 32). -/
def State.withFetchWord (s : State) (_nbits w : Nat) : State :=
  match s.chosen with
  | none => s
  | some k => if w < 2 ^ 7 then s.placeCode k (BitVec.ofNat 7 w) else s

end Sys2Proof.Machine
end

