-- ==== Sys2Proof/Machine/Fairness.lean ====
section
/-!
DEFINITION. Runs of the machine and weak fairness (spec/60_exceptions.md R334). A step picks any live thread (R333); what the spec assumes of
the picks over a whole run is said here, as a predicate that liveness claims take as a premise: "Liveness proofs need this assumption and
must state it; safety proofs do not."
-/
namespace Sys2Proof.Machine

/-- An infinite run: every step answers the next state. A run that ends in a refusal is finite, and fairness asks nothing of it. -/
def IsRun (run : Nat → State) : Prop :=
  ∀ n, step (run n) = .next (run (n + 1))

/-- The next step is this thread's own, as Step(t) of spec/30_encoding.md R96. -/
def State.Takes (s : State) (k : BitVec 7) : Prop :=
  s.chosen = some k ∧ (s.thread k).held = false

/-- The next step is this thread's Release(t) (spec/40_control.md R135). -/
def State.Releases (s : State) (k : BitVec 7) : Prop :=
  s.chosen = some k ∧ (s.thread k).held = true

/-- "A thread that is live and not held takes a step after finitely many steps of the machine" (R334), unless it is ended before. -/
def StepsFairly (run : Nat → State) : Prop :=
  ∀ n k, ((run n).thread k).live = true → ((run n).thread k).held = false →
    ∃ m, n ≤ m ∧ ((run m).Takes k ∨ ((run m).thread k).live = false)

/-- "A held thread is released after finitely many" (R334, R135), unless "a restart or ENDALL/END ending the thread cancels the hold"
before. -/
def ReleasesFairly (run : Nat → State) : Prop :=
  ∀ n k, ((run n).thread k).live = true → ((run n).thread k).held = true →
    ∃ m, n ≤ m ∧ ((run m).Releases k ∨ ((run m).thread k).live = false ∨ ((run m).thread k).held = false)

/-- The weak fairness of R334 (D25). -/
def WeaklyFair (run : Nat → State) : Prop :=
  StepsFairly run ∧ ReleasesFairly run

end Sys2Proof.Machine
end

