-- ==== Sys2Proof/Safety.lean ====
section
/-!
DEFINITION. The terms claims are stated in: the invariant of the machine, what it means that a thread fetches a word, plain memory,
and the number of parameters each instruction's "Parameters and format" line names.
-/
namespace Sys2Proof.Machine

/-- An outcome is a next state that has a property, or a refusal: never a fault. -/
def Always (P : State → Prop) : Out → Prop
  | .next t => P t
  | .fault _ => False
  | .refused _ => True

/-- An address on the control stack is even and at most one word past the last one (spec/10_state.md R34, R35). -/
def CtlEntry.ok : CtlEntry → Bool
  | .callE r => decide (r ≤ 2 ^ 28) && decide (r % 2 = 0)
  | .loopE b => decide (b ≤ 2 ^ 28) && decide (b % 2 = 0)
  | .ifE => true

/-- The number of structures opened in a scan is at most NEST_MAX (R36). -/
def Mode.ok (nestMax : Nat) : Mode → Bool
  | .run => true
  | .scan _ opened => decide (opened.length ≤ nestMax)

/-- The bounds R34 to R36 put on a thread, and "the minimum possible value of X for a working thread is 1" (R170). -/
def Thread.ok (p : Params) (t : Thread) : Bool :=
  decide (t.stack.length ≤ p.dstackSize) && decide (callCount t.ctl ≤ p.cstackSize) &&
  decide (ifCount t.ctl ≤ p.nestMax) && t.ctl.all CtlEntry.ok && t.mode.ok p.nestMax &&
  decide (t.snap.getD 0 ≤ p.dstackSize) && decide (1 ≤ t.prio)

/-- What holds of every state the machine reaches: the parameters meet R3, memory has its canonical form and "only addresses with
VALID(a) exist" in it (R34), thread 0 is live (R169, R336), and every live thread has an index below MAX_THREADS and keeps the
bounds of R34 to R36. -/
structure State.Inv (s : State) : Prop where
  cfg_wf : s.cfg.wf = true
  mem_wf : s.mem.wf = true
  mem_valid : ∀ c ∈ s.mem, s.cfg.valid c.1 = true
  zero_live : (s.thread 0).live = true
  threads_ok : ∀ k, (s.thread k).live = true → k.toNat < s.cfg.maxThreads ∧ (s.thread k).ok s.cfg = true

/-- The bytes of a range are plain memory: RAM or ROM, every location that exists and is no peripheral (R62, R69). -/
def State.Plain (s : State) (a n : Nat) : Prop :=
  ∀ i < n, s.cfg.kindAt (a + i) = some .ram ∨ s.cfg.kindAt (a + i) = some .rom

/-- The bytes of a range are plain memory that may be written: RAM (R62). -/
def State.Ram (s : State) (a n : Nat) : Prop :=
  ∀ i < n, s.cfg.kindAt (a + i) = some .ram

/-- The next step is a thread's, which is not held, and the program word it fetches is `w` (R96, R132, R333): of plain memory the word
that stands there, of a peripheral what the platform answers (R69). -/
structure State.Fetches (s : State) (k : BitVec 7) (w : Word16) : Prop where
  chosen : s.chosen = some k
  awake : (s.thread k).held = false
  present : s.accessCheck (wordAddress (s.thread k).pc.toNat) 2 = none
  word : (s.select k).wordAt (wordAddress (s.thread k).pc.toNat) = w

/-- The next step scans: a thread in scan mode meets a code in a slot that is not the last one (R132). -/
structure State.ScansCode (s : State) (k : BitVec 7) (w : Word16) (c : Code7) (kind : ScanKind) (opened : List OpenKind) :
    Prop where
  fetches : s.Fetches k w
  scanning : (s.thread k).mode = .scan kind opened
  instrWord : wordClass s.cfg.typeMap w = .instr
  notLast : (s.thread k).pc.toNat ≠ 2 ^ 28 - 1
  code : slotCode (decide ((s.thread k).pc.toNat % 2 = 1)) (payloadOf w) = c

/-- The state after a thread has read the word at its pc: PXR selects it; where a peripheral answered, the platform has moved on. -/
def State.wordRead (s : State) (k : BitVec 7) : State :=
  (s.select k).afterRead (wordAddress (s.thread k).pc.toNat) 2

/-- The state after a thread has fetched a slot of the word `w`: the word read, ICR holds its payload, pc is at the next slot. -/
def State.fetched (s : State) (k : BitVec 7) (w : Word16) : State :=
  (s.wordRead k).atSlot (s.thread k).pc.toNat w

/-- The program words at an address and after it, in plain memory. -/
def State.HoldsWords (s : State) : List Word16 → Nat → Prop
  | [], _ => True
  | w :: ws, a => s.Plain a 2 ∧ a + 2 ≤ 2 ^ 28 ∧ s.wordAt a = w ∧ s.HoldsWords ws (a + 2)

/-- The words are the groups of a VLN: every one but the last is VLN_MORE, the last is VLN_LAST (R93). -/
def isVln (m : TypeMap) : List Word16 → Bool
  | [] => false
  | [w] => decide (wordClass m w = .vlnLast)
  | w :: ws => decide (wordClass m w = .vlnMore) && isVln m ws

/-- The value of the groups, the first the lowest (R93). -/
def vlnValue : List Word16 → Nat
  | [] => 0
  | w :: ws => (payloadOf w).toNat + 2 ^ 14 * vlnValue ws

/-- A zero-terminated string of a length in plain memory (R264). -/
structure State.HoldsString (s : State) (a len : Nat) : Prop where
  plain : s.Plain a (len + 1)
  inside : a + len + 1 ≤ 2 ^ 28
  nonzero : ∀ i < len, s.mem.read (a + i) ≠ 0
  terminated : s.mem.read (a + len) = 0

/-- A string that leaves memory: after bytes of plain memory other than 0 it comes to a byte that does not exist (R264). -/
def State.StringLeavesMemory (s : State) (a : Nat) : Prop :=
  2 ^ 28 ≤ a ∨ ∃ n, s.Plain a n ∧ a + n ≤ 2 ^ 28 ∧ (∀ i < n, s.mem.read (a + i) ≠ 0) ∧
    (a + n = 2 ^ 28 ∨ s.cfg.valid (a + n) = false)

/-- A string that meets a peripheral location after bytes of plain memory other than 0 (R260 item 6). -/
def State.StringMeetsPeripheral (s : State) (a : Nat) : Prop :=
  ∃ n, s.Plain a n ∧ a + n < 2 ^ 28 ∧ (∀ i < n, s.mem.read (a + i) ≠ 0) ∧ s.cfg.kindAt (a + n) = some .peripheral

/-- A state is what a restart raised by the instruction at `here` leaves (R324). -/
def RestartedFrom (s t : State) : Prop :=
  ∃ c u, u.cfg = s.cfg ∧ t = State.restart u c s.here.toNat

/-- How many elements an instruction pops first: the parameters of its "Parameters and format" line, one for DROP and DUP, three
for ROT (R130, R317). -/
def paramCount : Instr → Nat
  | .nop | .doMark | .elseMark | .endIf | .repeatMark | .ret | .maxthds | .threads | .endAll | .endThread | .enter | .leave
  | .empty | .depth | .random => 0
  | .delay | .skip | .ifMark | .repIf | .untilMark | .whileMark | .breakLoop | .again | .call | .acall | .ntcall | .ntacall
  | .setpr | .drop | .dup | .swap | .overNth | .readVar | .com | .not | .inc | .dec | .lenStr | .rdvln | .rd32 | .rd16 | .rd8
  | .sysfn => 1
  | .writeVar | .and | .or | .xor | .shl | .shr | .lt | .le | .eq | .ne | .ge | .gt | .add | .sub | .mul | .div | .modulo
  | .scanStr | .diffStr | .copyStr | .wrvln | .wr32 | .wr16 | .wr8 => 2
  | .rot | .fill | .diff | .copy => 3

/-- The instructions that may store to memory: the block and string instructions that have a destination, the four writes, and
SYSFN, which may run any of them or a system function of the platform. -/
def mayStore : Instr → Bool
  | .fill | .copy | .copyStr | .wrvln | .wr32 | .wr16 | .wr8 | .sysfn => true
  | _ => false

/-- The instructions that may reach the platform through a peripheral location or a system function (R69, R302): the reads, the writes of
whole words, and SYSFN. WR8 and the block and string instructions are refused there (R75, R260). -/
def reachesPlatform : Instr → Bool
  | .rdvln | .rd32 | .rd16 | .rd8 | .wrvln | .wr32 | .wr16 | .sysfn => true
  | _ => false

/-- The instructions whose own effect is on other threads: those that create or end threads, and SYSFN, which may run them. -/
def actsOnThreads : Instr → Bool
  | .ntcall | .ntacall | .endAll | .sysfn => true
  | _ => false

end Sys2Proof.Machine
end

