-- ==== Sys2Proof/Certificates/Slice0/Obligations.lean ====
section
/-!
DEFINITION. The statements for the provers. Every one is about all states, so about all values of the open parameters (log 1). A
state `s` in a statement about `exec` is one an instruction executes from: its pc is already past the instruction (R130), so
`s.here` is the instruction's own address. Decisions D<n> are the spec's own choices (spec/92_eei_decisions.md).
-/
open Sys2Proof Sys2Proof.Machine

/-! ## Encoding -/

/-- Words written out in spec/95_test_vectors.md section 2.1 decode, under the placeholder type map (D1, logs 3 and 4), to the
instructions they stand for. -/
def Obligations.SampleProgramWordsDecode : Prop :=
  decodeWord Params.standard false 0xFF91 = .ok .empty ∧ decodeWord Params.standard true 0xFF91 = .ok .nop ∧
  decodeWord Params.standard true 0xFC7F = .ok .repeatMark ∧ decodeWord Params.standard false 0xE01A = .ok .readVar ∧
  decodeWord Params.standard true 0xE01A = .ok .add ∧ decodeWord Params.standard false 0xFCAA = .ok .eq ∧
  decodeWord Params.standard true 0xFCAA = .ok .untilMark ∧ decodeWord Params.standard false 0xC3FD = .ok .endIf ∧
  decodeWord Params.standard true 0xC3FD = .ok .ret ∧ decodeWord Params.standard false 0xFFED = .ok .wr16 ∧
  decodeWord Params.standard false 0xC081 = .ok .setpr ∧
  decodeWord Params.standard false 0xFF82 = .error (.invalidCode 0x02) ∧
  decodeWord Params.standard false 0x8000 = .error (.notInstructions .reserved)

/-- Decode of encode is the identity, in either slot, whatever instruction stands in the other one. -/
def Obligations.EncodedWordsDecodeToTheirInstructions : Prop :=
  ∀ (p : Params) (i j : Instr), p.wf = true → i.wf p = true → j.wf p = true →
    ∃ w, encode p i j = some w ∧ decodeWord p false w = .ok i ∧ decodeWord p true w = .ok j

/-- A word whose two slots decode is the encoding of what they decode to: each word has one meaning. -/
def Obligations.DecodedWordsEncodeBack : Prop :=
  ∀ (p : Params) (w : Word16) (i j : Instr), p.wf = true → decodeWord p false w = .ok i → decodeWord p true w = .ok j →
    encode p i j = some w

/-- The 58 codes of R99 and no others (D38): with SYSFN_OPCODE set to one of them, the other 57 are invalid; with it unset, all are
"either invalid or SYSFN" (R100, D30). -/
def Obligations.UnassignedCodesDecodeToNothing : Prop :=
  ∀ (o c : Code7), o.toNat ∈ unassignedCodes →
    (decodeCode (some o) c = .error (.invalidCode c) ↔ c.toNat ∈ unassignedCodes ∧ c ≠ o) ∧
    (decodeCode (some o) c = .ok .sysfn ↔ c = o) ∧
    (decodeCode none c = .error (.invalidOrSysfn c) ↔ c.toNat ∈ unassignedCodes)

/-- The words of a VLN are one to four, marked VLN_MORE up to VLN_LAST, and their groups make the value (R93, D2 to D4). -/
def Obligations.ConstantsEncodeTheirValue : Prop :=
  ∀ (m : TypeMap) (v : W56), m.wf = true →
    isVln m (vlnWords m v) = true ∧ (vlnWords m v).length ≤ 4 ∧ vlnValue (vlnWords m v) = v.toNat ∧
    ∀ ws, isVln m ws = true → vlnValue ws = v.toNat → (vlnWords m v).length ≤ ws.length

/-! ## The invariant, and whole-machine rules -/

/-- The state after a cold start meets the invariant. -/
def Obligations.ResetMeetsInvariant : Prop :=
  State.reset.Inv

/-- Every step keeps the invariant, from every state that meets it. -/
def Obligations.StepKeepsInvariant : Prop :=
  ∀ s t : State, s.Inv → step s = .next t → t.Inv

/-- No step changes an open parameter of the implementation. -/
def Obligations.StepKeepsParameters : Prop :=
  ∀ s t : State, step s = .next t → t.cfg = s.cfg

/-- "Nothing in the model is stuck": while thread 0 is live a step answers a next state or a refusal. -/
def Obligations.StepNeverFaultsWithThreadZeroLive : Prop :=
  ∀ (s : State) (r : Fault), (s.thread 0).live = true → step s ≠ .fault r

/-- R40 and R350: thread 0 alone, at address 0, with $101 over 0 on its data stack. V0 to V7 and the hidden registers are not
named: their values are the model's (logs 8, 9). -/
def Obligations.ColdStartState : Prop :=
  State.reset.pxr = 0 ∧ State.reset.mem = [] ∧ (∀ k, k ≠ 0 → (State.reset.thread k).live = false) ∧
  (State.reset.thread 0).live = true ∧ (State.reset.thread 0).pc = 0 ∧ (State.reset.thread 0).stack = [0x101, 0] ∧
  (State.reset.thread 0).ctl = [] ∧ (State.reset.thread 0).snap = none ∧ (State.reset.thread 0).mode = .run ∧
  (State.reset.thread 0).held = false ∧ (State.reset.thread 0).prio = 1

/-- R324 with D14 and D16: a restart ends every other thread, starts thread 0 again at 0 with the code and the event address,
and keeps memory and parameters; under the default EVENT_ADDR the address is the slot's (D15). -/
def Obligations.RestartLeavesTheStartState : Prop :=
  ∀ (s : State) (c : Condition),
    ∃ t, raise c s = .next t ∧ t.mem = s.mem ∧ t.cfg = s.cfg ∧ t.pxr = 0 ∧ (∀ k, k ≠ 0 → (t.thread k).live = false) ∧
      (t.thread 0).live = true ∧ (t.thread 0).pc = 0 ∧
      (t.thread 0).stack = [restartCode c, s.eventAddress s.here.toNat] ∧
      (t.thread 0).ctl = [] ∧ (t.thread 0).snap = none ∧ (t.thread 0).mode = .run ∧ (t.thread 0).held = false ∧
      (t.thread 0).prio = 1 ∧
      (s.cfg.eventRule = .slot → s.eventAddress s.here.toNat = BitVec.ofNat 56 s.here.toNat) ∧
      (s.cfg.eventRule = .nextWord → s.eventAddress s.here.toNat = BitVec.ofNat 56 (nextWord s.here.toNat))

/-! ## One step -/

/-- R96: a thread in Run mode that fetches a word of class INSTR executes the instruction decoded from its slot, from a state in
which only PXR, DLYC, the thread's pc, ICR and working registers, the platform's own state and the count of draws have moved (D25, D37;
logs 12, 14, 21, 29). The word is what memory holds where no peripheral answers the fetch; where one does, it is what the platform
answers. -/
def Obligations.StepRunsDecodedInstruction : Prop :=
  ∀ (s : State) (k : BitVec 7) (w : Word16) (i : Instr), s.Fetches k w → (s.thread k).mode = .run →
    (s.thread k).pc.toNat ≠ 2 ^ 28 - 1 → decodeWord s.cfg (decide ((s.thread k).pc.toNat % 2 = 1)) w = .ok i →
      step s = exec i (s.fetched k w) ∧ (s.fetched k w).pxr = k ∧ (s.fetched k w).here = (s.thread k).pc ∧
      (s.fetched k w).cur =
        { s.thread k with
          pc := BitVec.ofNat 28 ((s.thread k).pc.toNat + 1), icr := payloadOf w, work := (s.fetched k w).cur.work } ∧
      (s.fetched k w).mem = s.mem ∧ (s.fetched k w).cfg = s.cfg ∧ (∀ j, j ≠ k → (s.fetched k w).thread j = s.thread j) ∧
      (s.touches .peripheral (wordAddress (s.thread k).pc.toNat) 2 = false →
        (s.fetched k w).platform = s.platform ∧
        w = BitVec.ofNat 16 ((s.mem.read (wordAddress (s.thread k).pc.toNat)).toNat +
          2 ^ 8 * (s.mem.read (wordAddress (s.thread k).pc.toNat + 1)).toNat))

/-- R96: a VLN constant reached in Run mode in RAM or ROM is pushed whole in one step, and pc goes to the word after it; on a full data stack it
restarts with $105 (R316) and its own address (log 34); with no word after it, it is refused (R362; log 18). -/
def Obligations.StepPushesConstant : Prop :=
  ∀ (s : State) (k : BitVec 7) (ws : List Word16), s.chosen = some k → (s.thread k).held = false →
    (s.thread k).mode = .run → (s.thread k).pc.toNat % 2 = 0 → isVln s.cfg.typeMap ws = true → ws.length ≤ 4 →
    s.HoldsWords ws (s.thread k).pc.toNat →
    ((s.thread k).pc.toNat + 2 * ws.length < 2 ^ 28 → (s.thread k).stack.length < s.cfg.dstackSize →
      step s = .next ((s.select k).setCur
        { (s.select k).cur with
          pc := BitVec.ofNat 28 ((s.thread k).pc.toNat + 2 * ws.length)
          stack := BitVec.ofNat 56 (vlnValue ws) :: (s.thread k).stack })) ∧
    ((s.thread k).pc.toNat + 2 * ws.length = 2 ^ 28 → (s.thread k).stack.length < s.cfg.dstackSize →
      step s = .refused .topOfMemory) ∧
    (s.cfg.dstackSize ≤ (s.thread k).stack.length →
      step s = .next ((s.select k).restart .stackOverflow (s.thread k).pc.toNat))

/-- R62, R99 to R101, R314: a fetch from where nothing exists restarts with $103 and the word's address; an unassigned code
restarts with $100, and is refused while SYSFN_OPCODE is unset (D30, D38); a RESERVED word in Run mode is refused (D36), and so are a
constant met at an odd address and an instruction in the last slot of the address space (R96, R362). A constant of which a later word
cannot be fetched restarts with that word's address (log 34; under EventRule.nextWord with the address after it, the model's choice, log
5); one that a word of another class interrupts, and one that announces a
fifth word, are refused (R94, R101, D36). -/
def Obligations.StepMeetsFetchConditions : Prop :=
  (∀ (s : State) (k : BitVec 7), s.chosen = some k → (s.thread k).held = false →
    (∃ i < 2, s.cfg.valid (wordAddress (s.thread k).pc.toNat + i) = false) →
      step s = .next ((s.select k).restart .badMemory (wordAddress (s.thread k).pc.toNat))) ∧
  (∀ (s : State) (k : BitVec 7) (w : Word16), s.Fetches k w → (s.thread k).mode = .run →
    (s.thread k).pc.toNat ≠ 2 ^ 28 - 1 → wordClass s.cfg.typeMap w = .instr →
    (slotCode (decide ((s.thread k).pc.toNat % 2 = 1)) (payloadOf w)).toNat ∈ unassignedCodes →
      (s.cfg.sysfnOpcode = none → step s = .refused .unassignedWhileUnset) ∧
      (∀ o, s.cfg.sysfnOpcode = some o → o ≠ slotCode (decide ((s.thread k).pc.toNat % 2 = 1)) (payloadOf w) →
        step s = .next ((s.fetched k w).restart .invalidCode (s.thread k).pc.toNat))) ∧
  (∀ (s : State) (k : BitVec 7) (w : Word16), s.Fetches k w → (s.thread k).mode = .run →
    (wordClass s.cfg.typeMap w = .reserved → step s = .refused .reservedWord) ∧
    (wordClass s.cfg.typeMap w = .vlnLast ∨ wordClass s.cfg.typeMap w = .vlnMore → (s.thread k).pc.toNat % 2 = 1 →
      step s = .refused .dataAtOddSlot) ∧
    (wordClass s.cfg.typeMap w = .instr → (s.thread k).pc.toNat = 2 ^ 28 - 1 → step s = .refused .topOfMemory)) ∧
  (∀ (s : State) (k : BitVec 7) (ws : List Word16), s.chosen = some k → (s.thread k).held = false →
    (s.thread k).mode = .run → (s.thread k).pc.toNat % 2 = 0 → (∀ v ∈ ws, wordClass s.cfg.typeMap v = .vlnMore) → ws ≠ [] →
    (ws.length ≤ 3 → s.HoldsWords ws (s.thread k).pc.toNat →
      (2 ^ 28 < (s.thread k).pc.toNat + 2 * ws.length + 2 ∨
        ∃ i < 2, s.cfg.valid ((s.thread k).pc.toNat + 2 * ws.length + i) = false) →
      step s = .next ((s.select k).restart .badMemory ((s.thread k).pc.toNat + 2 * ws.length))) ∧
    ∀ w, s.HoldsWords (ws ++ [w]) (s.thread k).pc.toNat →
      (ws.length ≤ 3 → wordClass s.cfg.typeMap w = .instr ∨ wordClass s.cfg.typeMap w = .reserved →
        step s = .refused .malformedVln) ∧
      (ws.length = 3 → wordClass s.cfg.typeMap w = .vlnMore → step s = .refused .malformedVln))

/-- R135's Release: a held thread executes nothing; its release ends its hold and changes nothing else of any thread. That the schedule
may pick a held thread at any time, and that the step is then its release, is the model's choice (logs 12, 13; D25). R334 (D25): in a weakly
fair run every live thread comes, unchanged until then, to a step that is its own, or its release if it is held, or that ends it or
restarts the machine. -/
def Obligations.StepReleasesHeldThread : Prop :=
  (∀ (s : State) (k : BitVec 7), s.chosen = some k → (s.thread k).held = true →
    ∃ t, step s = .next t ∧ t.thread k = { s.thread k with held := false } ∧ (∀ j, j ≠ k → t.thread j = s.thread j) ∧
      t.mem = s.mem ∧ t.cfg = s.cfg ∧ t.pxr = s.pxr) ∧
  (∀ run : Nat → State, IsRun run → WeaklyFair run → ∀ (n : Nat) (k : BitVec 7), ((run n).thread k).live = true →
    ∃ m, n ≤ m ∧ (∀ j, n ≤ j → j ≤ m → (run j).thread k = (run n).thread k) ∧
      (((run n).thread k).held = false ∧ (run m).Takes k ∨
       ((run n).thread k).held = true ∧ (run (m + 1)).thread k = { (run n).thread k with held := false } ∨
       ((run (m + 1)).thread k).live = false ∨
       k = 0 ∧ ∃ u c a, run (m + 1) = State.restart u c a))

/-- R132: in scan mode a word that holds no instructions is passed over whole, and a code that is no mark of a structure changes
nothing but pc and ICR, unassigned codes included (R99). A word that holds none is refused at an odd pc and where no word comes after it,
a slot where no slot does. -/
def Obligations.ScanPassesOverEverythingElse : Prop :=
  (∀ (s : State) (k : BitVec 7) (w : Word16) (kind : ScanKind) (opened : List OpenKind), s.Fetches k w →
    (s.thread k).mode = .scan kind opened → wordClass s.cfg.typeMap w ≠ .instr → (s.thread k).pc.toNat % 2 = 0 →
    (s.thread k).pc.toNat + 2 < 2 ^ 28 →
      step s = .next ((s.wordRead k).setCur
        { (s.wordRead k).cur with pc := BitVec.ofNat 28 ((s.thread k).pc.toNat + 2) })) ∧
  (∀ (s : State) (k : BitVec 7) (w : Word16) (kind : ScanKind) (opened : List OpenKind), s.Fetches k w →
    (s.thread k).mode = .scan kind opened →
    (wordClass s.cfg.typeMap w ≠ .instr → (s.thread k).pc.toNat % 2 = 1 → step s = .refused .dataAtOddSlot) ∧
    (wordClass s.cfg.typeMap w ≠ .instr → (s.thread k).pc.toNat = 2 ^ 28 - 2 → step s = .refused .topOfMemory) ∧
    (wordClass s.cfg.typeMap w = .instr → (s.thread k).pc.toNat = 2 ^ 28 - 1 → step s = .refused .topOfMemory)) ∧
  (∀ (s : State) (k : BitVec 7) (w : Word16) (c : Code7) (kind : ScanKind) (opened : List OpenKind),
    s.ScansCode k w c kind opened →
    c ∉ ([0x7c, 0x7e, 0x7d, 0x78, 0x7b, 0x79, 0x7a, 0x70] : List Code7) → step s = .next (s.fetched k w))

/-- R133: what ends each kind of scan, at level 0, and what that leaves on the control stack (D9); an ELSE that would open more than
NEST_MAX IFs is refused. -/
def Obligations.ScanEndsAtItsMark : Prop :=
  ∀ (s : State) (k : BitVec 7) (w : Word16) (c : Code7) (kind : ScanKind), s.ScansCode k w c kind [] →
    (kind = .skSkip → c = 0x70 →
      step s = .next ((s.fetched k w).setCur { (s.fetched k w).cur with mode := .run })) ∧
    (kind = .skIf → c = 0x7e → ifCount (s.thread k).ctl < s.cfg.nestMax →
      step s = .next ((s.fetched k w).setCur
        { (s.fetched k w).cur with mode := .run, ctl := .ifE :: (s.thread k).ctl })) ∧
    (kind = .skIf → c = 0x7e → s.cfg.nestMax ≤ ifCount (s.thread k).ctl → step s = .refused .tooManyIfs) ∧
    (kind = .skIf ∨ kind = .skElse → c = 0x7d →
      step s = .next ((s.fetched k w).setCur { (s.fetched k w).cur with mode := .run })) ∧
    (kind = .skLoop → c = 0x79 ∨ c = 0x7a →
      step s = .next ((s.fetched k w).setCur { (s.fetched k w).cur with mode := .run }))

/-- R132: openers are counted up to NEST_MAX, closers of the same kind uncount them, ELSE and DO inside a counted structure do nothing,
and a closer that meets the wrong kind of opener, or none it can end the scan for, is refused (D9, D40). -/
def Obligations.ScanCountsStructures : Prop :=
  ∀ (s : State) (k : BitVec 7) (w : Word16) (c : Code7) (kind : ScanKind) (opened : List OpenKind),
    s.ScansCode k w c kind opened →
    (c = 0x7c → opened.length < s.cfg.nestMax →
      step s = .next ((s.fetched k w).setCur { (s.fetched k w).cur with mode := .scan kind (.ifOpen :: opened) })) ∧
    (c = 0x78 ∨ c = 0x7b → opened.length < s.cfg.nestMax →
      step s = .next ((s.fetched k w).setCur { (s.fetched k w).cur with mode := .scan kind (.loopOpen :: opened) })) ∧
    (∀ rest, c = 0x7d → opened = .ifOpen :: rest →
      step s = .next ((s.fetched k w).setCur { (s.fetched k w).cur with mode := .scan kind rest })) ∧
    (∀ rest, c = 0x79 ∨ c = 0x7a → opened = .loopOpen :: rest →
      step s = .next ((s.fetched k w).setCur { (s.fetched k w).cur with mode := .scan kind rest })) ∧
    (∀ rest, c = 0x7e → opened = .ifOpen :: rest → step s = .next (s.fetched k w)) ∧
    (c = 0x70 → opened ≠ [] ∨ kind ≠ .skSkip → step s = .next (s.fetched k w)) ∧
    (∀ rest, c = 0x7d ∨ c = 0x7e → opened = .loopOpen :: rest → step s = .refused .scanMismatch) ∧
    (∀ rest, c = 0x79 ∨ c = 0x7a → opened = .ifOpen :: rest → step s = .refused .scanMismatch) ∧
    (opened = [] → kind = .skSkip → c = 0x7d ∨ c = 0x7e ∨ c = 0x79 ∨ c = 0x7a → step s = .refused .scanMismatch) ∧
    (opened = [] → kind = .skElse → c = 0x7e → step s = .refused .scanMismatch) ∧
    (opened = [] → kind = .skLoop → c = 0x7d ∨ c = 0x7e → step s = .refused .scanMismatch) ∧
    (opened = [] → kind = .skIf ∨ kind = .skElse → c = 0x79 ∨ c = 0x7a → step s = .refused .scanMismatch) ∧
    (c = 0x7c ∨ c = 0x78 ∨ c = 0x7b → s.cfg.nestMax ≤ opened.length → step s = .refused .scanTooDeep)

/-! ## Execution control and conditional structures -/

/-- R134. -/
def Obligations.NopChangesNothing : Prop :=
  (∀ o, decodeCode o 0x7f = .ok .nop) ∧ ∀ s : State, exec .nop s = .next s

/-- R136 in Run mode, and R135: DO does nothing; DELAY holds the thread (D25), and DCR gets DLYC plus the ticks of x (log 13). -/
def Obligations.DoAndDelayComplete : Prop :=
  (∀ s : State, exec .doMark s = .next s) ∧
  ∀ (s : State) (x : W56) (rest : List W56), s.cur.stack = x :: rest →
    exec .delay s =
      .next (s.setCur { s.cur with stack := rest, held := true, dcr := s.dlyc + Config.delayTicks x })

/-- R137 with D11 and D12: from slot 0, an even x counts bytes from the word after SKIP's and a scan for DO begins there; an odd
x restarts with $102; slot 1 and a target outside the address space are refused (D13). -/
def Obligations.SkipJumpsAndScans : Prop :=
  ∀ (s : State) (x : W56) (rest : List W56), s.cur.stack = x :: rest →
    (s.here.toNat % 2 = 0 → x.toNat % 2 = 0 → nextWord s.here.toNat + x.toNat < 2 ^ 28 →
      exec .skip s = .next (s.setCur
        { s.cur with
          stack := rest, pc := BitVec.ofNat 28 (nextWord s.here.toNat + x.toNat), mode := .scan .skSkip [] })) ∧
    (s.here.toNat % 2 = 0 → x.toNat % 2 = 1 → exec .skip s = .next (s.restart .alignment s.here.toNat)) ∧
    (s.here.toNat % 2 = 0 → x.toNat % 2 = 0 → 2 ^ 28 ≤ nextWord s.here.toNat + x.toNat →
      exec .skip s = .refused .targetOutsideMemory) ∧
    (s.here.toNat % 2 = 1 → exec .skip s = .refused .skipAtOddAddress)

/-- R138: its code, the pop, the open IF on anything but 0, the scan on 0, more than NEST_MAX open IFs refused. -/
def Obligations.IfOpensOrScans : Prop :=
  (∀ o, decodeCode o 0x7c = .ok .ifMark) ∧
  (∀ s : State, s.cur.stack = [] → exec .ifMark s = .next (s.restart .stackUnderflow s.here.toNat)) ∧
  ∀ (s : State) (x : W56) (rest : List W56), s.cur.stack = x :: rest →
    (x = 0 → exec .ifMark s = .next (s.setCur { s.cur with stack := rest, mode := .scan .skIf [] })) ∧
    (x ≠ 0 → ifCount s.cur.ctl < s.cfg.nestMax →
      exec .ifMark s = .next (s.setCur { s.cur with stack := rest, ctl := .ifE :: s.cur.ctl })) ∧
    (x ≠ 0 → s.cfg.nestMax ≤ ifCount s.cur.ctl → exec .ifMark s = .refused .tooManyIfs)

/-- R139 and R140: their codes; the innermost entry an open IF: it is removed, and ELSE scans for ENDIF; no open IF: $10a; another
entry innermost: refused; a second ELSE met in that scan: refused. -/
def Obligations.ElseAndEndifCloseTheirIf : Prop :=
  (∀ o, decodeCode o 0x7e = .ok .elseMark ∧ decodeCode o 0x7d = .ok .endIf) ∧
  (∀ (s : State) (es : List CtlEntry), s.cur.ctl = .ifE :: es →
    exec .elseMark s = .next (s.setCur { s.cur with ctl := es, mode := .scan .skElse [] }) ∧
    exec .endIf s = .next (s.setCur { s.cur with ctl := es })) ∧
  (∀ s : State, CtlEntry.ifE ∉ s.cur.ctl →
    exec .elseMark s = .next (s.restart .badStructure s.here.toNat) ∧
    exec .endIf s = .next (s.restart .badStructure s.here.toNat)) ∧
  (∀ (s : State) (e : CtlEntry) (es : List CtlEntry), s.cur.ctl = e :: es → e ≠ .ifE → CtlEntry.ifE ∈ es →
    exec .elseMark s = .refused .ifNotInnermost ∧ exec .endIf s = .refused .ifNotInnermost) ∧
  (∀ (s : State) (k : BitVec 7) (w : Word16), s.ScansCode k w 0x7e .skElse [] → step s = .refused .scanMismatch) ∧
  (∀ (s : State) (k : BitVec 7) (w : Word16), s.ScansCode k w 0x7d .skElse [] →
    step s = .next ((s.fetched k w).setCur { (s.fetched k w).cur with mode := .run }))

/-- R141 and R142 with D8 and D10: with NOP in the other slot a loop opens whose body is the next word; a full call stack restarts
with $107; 0 under REPIF scans for the loop's end; another partner is refused. That the partner is the other slot of ICR's payload is the
model's inference (log 29). -/
def Obligations.RepeatAndRepifOpenLoops : Prop :=
  (∀ s : State, slotCode (decide (s.here.toNat % 2 = 0)) s.cur.icr = 0x7f →
    (callCount s.cur.ctl < s.cfg.cstackSize →
      exec .repeatMark s = .next (s.setCur { s.cur with ctl := .loopE (nextWord s.here.toNat) :: s.cur.ctl })) ∧
    (s.cfg.cstackSize ≤ callCount s.cur.ctl → exec .repeatMark s = .next (s.restart .callOverflow s.here.toNat)) ∧
    ∀ (x : W56) (rest : List W56), s.cur.stack = x :: rest →
      (x = 0 → exec .repIf s = .next (s.setCur { s.cur with stack := rest, mode := .scan .skLoop [] })) ∧
      (x ≠ 0 → callCount s.cur.ctl < s.cfg.cstackSize →
        exec .repIf s = .next (s.setCur
          { s.cur with stack := rest, ctl := .loopE (nextWord s.here.toNat) :: s.cur.ctl })) ∧
      (x ≠ 0 → s.cfg.cstackSize ≤ callCount s.cur.ctl →
        exec .repIf s = .next (s.restart .callOverflow s.here.toNat))) ∧
  (∀ s : State, slotCode (decide (s.here.toNat % 2 = 0)) s.cur.icr ≠ 0x7f →
    exec .repeatMark s = .refused .partnerNotNop ∧ (s.cur.stack ≠ [] → exec .repIf s = .refused .partnerNotNop))

/-- R143 and R144: with a loop innermost, UNTIL goes back to its body on 0 and WHILE on anything else, otherwise the loop is closed;
with neither a loop nor a call open, $10a; otherwise refused (D40, D41). That a body past the end of memory is refused is the model's
choice (log 17). -/
def Obligations.UntilAndWhileCloseLoops : Prop :=
  ∀ (s : State) (x : W56) (rest : List W56), s.cur.stack = x :: rest →
    (∀ b es, s.cur.ctl = .loopE b :: es →
      (x = 0 → b < 2 ^ 28 →
        exec .untilMark s = .next (s.setCur { s.cur with stack := rest, pc := BitVec.ofNat 28 b })) ∧
      (x ≠ 0 → exec .untilMark s = .next (s.setCur { s.cur with stack := rest, ctl := es })) ∧
      (x ≠ 0 → b < 2 ^ 28 →
        exec .whileMark s = .next (s.setCur { s.cur with stack := rest, pc := BitVec.ofNat 28 b })) ∧
      (x = 0 → exec .whileMark s = .next (s.setCur { s.cur with stack := rest, ctl := es })) ∧
      (x = 0 → 2 ^ 28 ≤ b → exec .untilMark s = .refused .topOfMemory) ∧
      (x ≠ 0 → 2 ^ 28 ≤ b → exec .whileMark s = .refused .topOfMemory)) ∧
    (callCount s.cur.ctl = 0 →
      exec .untilMark s = .next (s.restart .badStructure s.here.toNat) ∧
      exec .whileMark s = .next (s.restart .badStructure s.here.toNat)) ∧
    (∀ e es, s.cur.ctl = e :: es → (∀ b, e ≠ .loopE b) → callCount s.cur.ctl ≠ 0 →
      exec .untilMark s = .refused .closerNotInLoop ∧ exec .whileMark s = .refused .closerNotInLoop)

/-- R145 and R146: on 0 both only pop; otherwise, with a loop innermost, BREAK closes it and scans for its end, AGAIN goes back to
its body; without one they are refused (D40). That AGAIN to a body past the end of memory is refused is the model's choice (log 17). -/
def Obligations.BreakAndAgainLeaveOrRepeat : Prop :=
  ∀ (s : State) (x : W56) (rest : List W56), s.cur.stack = x :: rest →
    (x = 0 → exec .breakLoop s = .next (s.setCur { s.cur with stack := rest }) ∧
      exec .again s = .next (s.setCur { s.cur with stack := rest })) ∧
    (∀ b es, x ≠ 0 → s.cur.ctl = .loopE b :: es →
      exec .breakLoop s = .next (s.setCur { s.cur with stack := rest, ctl := es, mode := .scan .skLoop [] }) ∧
      (b < 2 ^ 28 → exec .again s = .next (s.setCur { s.cur with stack := rest, pc := BitVec.ofNat 28 b })) ∧
      (2 ^ 28 ≤ b → exec .again s = .refused .topOfMemory)) ∧
    (x ≠ 0 → (∀ b es, s.cur.ctl ≠ .loopE b :: es) →
      exec .breakLoop s = .refused .noInnermostLoop ∧ exec .again s = .refused .noInnermostLoop)

/-! ## Calls and threads -/

/-- R160 to R162: CALL goes x bytes back from the word after its own, ACALL to x; both push the address of that word. Odd targets
restart with $102 (D12), a full call stack with $107; targets outside the address space are refused (D13). -/
def Obligations.CallsPushTheReturnAddress : Prop :=
  ∀ (s : State) (x : W56) (rest : List W56), s.cur.stack = x :: rest →
    (x.toNat ≤ nextWord s.here.toNat → nextWord s.here.toNat - x.toNat < 2 ^ 28 →
      (x.toNat % 2 = 0 → callCount s.cur.ctl < s.cfg.cstackSize →
        exec .call s = .next (s.setCur
          { s.cur with
            stack := rest
            pc := BitVec.ofNat 28 (nextWord s.here.toNat - x.toNat)
            ctl := .callE (nextWord s.here.toNat) :: s.cur.ctl })) ∧
      (x.toNat % 2 = 1 → exec .call s = .next (s.restart .alignment s.here.toNat)) ∧
      (x.toNat % 2 = 0 → s.cfg.cstackSize ≤ callCount s.cur.ctl →
        exec .call s = .next (s.restart .callOverflow s.here.toNat))) ∧
    (x.toNat < 2 ^ 28 →
      (x.toNat % 2 = 0 → callCount s.cur.ctl < s.cfg.cstackSize →
        exec .acall s = .next (s.setCur
          { s.cur with
            stack := rest
            pc := BitVec.ofNat 28 x.toNat
            ctl := .callE (nextWord s.here.toNat) :: s.cur.ctl })) ∧
      (x.toNat % 2 = 1 → exec .acall s = .next (s.restart .alignment s.here.toNat)) ∧
      (x.toNat % 2 = 0 → s.cfg.cstackSize ≤ callCount s.cur.ctl →
        exec .acall s = .next (s.restart .callOverflow s.here.toNat))) ∧
    (nextWord s.here.toNat < x.toNat ∨ 2 ^ 28 ≤ nextWord s.here.toNat - x.toNat →
      exec .call s = .refused .targetOutsideMemory) ∧
    (2 ^ 28 ≤ x.toNat → exec .acall s = .refused .targetOutsideMemory)

/-- R163, R164, R173 (D26): while an index below MAX_THREADS is free, NTCALL and NTACALL start a thread there, at the target, with
empty stacks, priority 1 and Run mode; nothing else of any other thread changes and the creator only loses its parameter. Which index
is free for the model to choose (log 30), the new thread's V registers are unspecified (log 10). An odd target restarts with $102
(D12); without a free index, and where the target is outside the address space (D13), they are refused. -/
def Obligations.NewThreadsBegin : Prop :=
  (∀ (s : State) (x : W56) (rest : List W56), s.cur.stack = x :: rest →
    (nextWord s.here.toNat < x.toNat ∨ 2 ^ 28 ≤ nextWord s.here.toNat - x.toNat →
      exec .ntcall s = .refused .targetOutsideMemory) ∧
    (2 ^ 28 ≤ x.toNat → exec .ntacall s = .refused .targetOutsideMemory)) ∧
  ∀ (s : State) (x : W56) (rest : List W56) (i : Instr) (target : Nat), s.cur.stack = x :: rest →
    s.cur.live = true →
    (i = .ntcall ∧ x.toNat ≤ nextWord s.here.toNat ∧ target = nextWord s.here.toNat - x.toNat ∨
      i = .ntacall ∧ target = x.toNat) → target < 2 ^ 28 →
    (target % 2 = 0 → (∃ j : BitVec 7, j ≠ 0 ∧ j.toNat < s.cfg.maxThreads ∧ (s.thread j).live = false) →
      ∃ t j, exec i s = .next t ∧ j ≠ 0 ∧ j.toNat < s.cfg.maxThreads ∧ (s.thread j).live = false ∧
        (t.thread j).live = true ∧ (t.thread j).pc = BitVec.ofNat 28 target ∧ (t.thread j).stack = [] ∧
        (t.thread j).ctl = [] ∧ (t.thread j).snap = none ∧ (t.thread j).prio = 1 ∧ (t.thread j).mode = .run ∧
        (t.thread j).held = false ∧ t.cur = { s.cur with stack := rest } ∧
        (∀ k, k ≠ j → k ≠ s.pxr → t.thread k = s.thread k) ∧ t.mem = s.mem ∧ t.cfg = s.cfg ∧ t.pxr = s.pxr) ∧
    (target % 2 = 1 → exec i s = .next (s.restart .alignment s.here.toNat)) ∧
    (target % 2 = 0 → (∀ j : BitVec 7, j ≠ 0 → j.toNat < s.cfg.maxThreads → (s.thread j).live = true) →
      exec i s = .refused .noFreeThread)

/-- R165, R169, R170: RETURN, and in thread 0 END and `0 SETPR`, go back to the return address when a call is innermost; with no call
and no loop on the call stack they restart with $108; inside an open structure they are refused (D41). That a return to past the end of
memory is refused is the model's choice (log 17). -/
def Obligations.ReturnGoesBackToTheCaller : Prop :=
  (∀ (s : State) (r : Nat) (es : List CtlEntry), s.cur.ctl = .callE r :: es → r < 2 ^ 28 →
    exec .ret s = .next (s.setCur { s.cur with ctl := es, pc := BitVec.ofNat 28 r }) ∧
    (s.pxr = 0 → exec .endThread s = .next (s.setCur { s.cur with ctl := es, pc := BitVec.ofNat 28 r })) ∧
    (∀ rest, s.pxr = 0 → s.cur.stack = 0 :: rest →
      exec .setpr s = .next (s.setCur { s.cur with stack := rest, ctl := es, pc := BitVec.ofNat 28 r }))) ∧
  (∀ s : State, callCount s.cur.ctl = 0 →
    exec .ret s = .next (s.restart .callUnderflow s.here.toNat) ∧
    (s.pxr = 0 → exec .endThread s = .next (s.restart .callUnderflow s.here.toNat)) ∧
    (∀ rest, s.pxr = 0 → s.cur.stack = 0 :: rest →
      exec .setpr s = .next (s.restart .callUnderflow s.here.toNat))) ∧
  (∀ (s : State) (e : CtlEntry) (es : List CtlEntry), s.cur.ctl = e :: es → (∀ r, e ≠ .callE r) →
    callCount s.cur.ctl ≠ 0 → exec .ret s = .refused .returnInsideStructure ∧
    (s.pxr = 0 → exec .endThread s = .refused .returnInsideStructure ∧
      ∀ rest, s.cur.stack = 0 :: rest → exec .setpr s = .refused .returnInsideStructure)) ∧
  (∀ (s : State) (r : Nat) (es : List CtlEntry), s.cur.ctl = .callE r :: es → 2 ^ 28 ≤ r →
    exec .ret s = .refused .topOfMemory ∧
    (s.pxr = 0 → exec .endThread s = .refused .topOfMemory ∧
      ∀ rest, s.cur.stack = 0 :: rest → exec .setpr s = .refused .topOfMemory))

/-- R168, R169, R170, R174: END and `0 SETPR` end a thread other than 0; ENDALL ends every thread other than 0, the executing one
included (D27). Everything else stays. -/
def Obligations.EndingThreads : Prop :=
  (∀ s : State, s.pxr ≠ 0 →
    ∃ t, exec .endThread s = .next t ∧ (t.thread s.pxr).live = false ∧ (∀ k, k ≠ s.pxr → t.thread k = s.thread k) ∧
      t.mem = s.mem ∧ t.cfg = s.cfg ∧ t.draws = s.draws) ∧
  (∀ (s : State) (rest : List W56), s.pxr ≠ 0 → s.cur.stack = 0 :: rest →
    ∃ t, exec .setpr s = .next t ∧ (t.thread s.pxr).live = false ∧ (∀ k, k ≠ s.pxr → t.thread k = s.thread k) ∧
      t.mem = s.mem ∧ t.cfg = s.cfg ∧ t.draws = s.draws) ∧
  (∀ s : State, ∃ t, exec .endAll s = .next t ∧ t.thread 0 = s.thread 0 ∧ (∀ k, k ≠ 0 → (t.thread k).live = false) ∧
    t.mem = s.mem ∧ t.cfg = s.cfg ∧ t.draws = s.draws)

/-- R166, R167, R170: MAXTHDS pushes MAX_THREADS (D26), THREADS the number of live threads (D27), SETPR stores a priority other than
0, which has no other effect (D25). -/
def Obligations.ThreadNumbersAndPriority : Prop :=
  (∀ s : State, s.cur.stack.length < s.cfg.dstackSize →
    exec .maxthds s = .next (s.setCur { s.cur with stack := BitVec.ofNat 56 s.cfg.maxThreads :: s.cur.stack }) ∧
    ∃ n : W56, n.toNat = (Finset.univ.filter fun k : BitVec 7 => (s.thread k).live = true).card ∧
      exec .threads s = .next (s.setCur { s.cur with stack := n :: s.cur.stack })) ∧
  (∀ (s : State) (x : W56) (rest : List W56), s.cur.stack = x :: rest → x ≠ 0 →
    exec .setpr s = .next (s.setCur { s.cur with stack := rest, prio := x.toNat }))

/-- R171, R172 (D28): ENTER takes a snapshot of the depth; LEAVE cuts the stack back to it, keeping the elements beneath; where the
stack is shallower, it comes to that depth again over the elements still there, with unspecified elements on top (log 31). -/
def Obligations.EnterAndLeave : Prop :=
  (∀ s : State, s.cur.snap = none →
    exec .enter s = .next (s.setCur { s.cur with snap := some s.cur.stack.length })) ∧
  (∀ (s : State) (n : Nat), s.cur.snap = some n →
    (∀ top kept, s.cur.stack = top ++ kept → kept.length = n →
      exec .leave s = .next (s.setCur { s.cur with stack := kept, snap := none })) ∧
    (s.cur.stack.length < n →
      ∃ t us, exec .leave s = .next t ∧ us.length + s.cur.stack.length = n ∧
        t.cur = { s.cur with stack := us ++ s.cur.stack, snap := none } ∧
        (∀ k, k ≠ s.pxr → t.thread k = s.thread k) ∧ t.mem = s.mem ∧ t.cfg = s.cfg))

/-- R322 and R323. -/
def Obligations.SnapshotConditions : Prop :=
  (∀ (s : State) (n : Nat), s.cur.snap = some n → exec .enter s = .next (s.restart .doubleEnter s.here.toNat)) ∧
  (∀ s : State, s.cur.snap = none → exec .leave s = .next (s.restart .leaveWithoutEnter s.here.toNat)) ∧
  restartCode .doubleEnter = 0x10b ∧ restartCode .leaveWithoutEnter = 0x10c

/-! ## The data stack -/

/-- R190, R191, R194, R196, R197: EMPTY, DEPTH, SWAP, OVER and `!`, with the index conditions of SWAP and OVER (D24, $104) and the
register numbers above 7 refused (D29). -/
def Obligations.StackInstructionsComplete : Prop :=
  (∀ s : State, exec .empty s = .next (s.setCur { s.cur with stack := [] }) ∧
    (s.cur.stack.length < s.cfg.dstackSize →
      exec .depth s =
        .next (s.setCur { s.cur with stack := BitVec.ofNat 56 (s.cur.stack.length + 1) :: s.cur.stack }))) ∧
  (∀ (s : State) (x : W56) (rest : List W56), s.cur.stack = x :: rest → s.cur.stack.length ≤ s.cfg.dstackSize →
    (x = 0 → rest ≠ [] → exec .swap s = .next (s.setCur { s.cur with stack := rest })) ∧
    (∀ top mid v below, rest = top :: (mid ++ v :: below) → x.toNat = mid.length + 1 →
      exec .swap s = .next (s.setCur { s.cur with stack := v :: (mid ++ top :: below) })) ∧
    (∀ above v below, rest = above ++ v :: below → x.toNat = above.length →
      exec .overNth s = .next (s.setCur { s.cur with stack := v :: rest })) ∧
    (rest.length ≤ x.toNat →
      exec .swap s = .next (s.restart .badIndex s.here.toNat) ∧
      exec .overNth s = .next (s.restart .badIndex s.here.toNat)) ∧
    (∀ n (h : n < 8), x.toNat = n →
      exec .readVar s = .next (s.setCur { s.cur with stack := s.cur.vars[n] :: rest })) ∧
    (7 < x.toNat → exec .readVar s = .refused .badVariable))

/-- R192, R193, R195: their codes, results and conditions. -/
def Obligations.DropDupAndRot : Prop :=
  (∀ o, decodeCode o 0x13 = .ok .drop ∧ decodeCode o 0x14 = .ok .dup ∧ decodeCode o 0x16 = .ok .rot) ∧
  (∀ s : State, s.cur.stack = [] →
    exec .drop s = .next (s.restart .stackUnderflow s.here.toNat) ∧
    exec .dup s = .next (s.restart .stackUnderflow s.here.toNat)) ∧
  (∀ (s : State) (v : W56) (rest : List W56), s.cur.stack = v :: rest →
    exec .drop s = .next (s.setCur { s.cur with stack := rest }) ∧
    (s.cur.stack.length < s.cfg.dstackSize →
      exec .dup s = .next (s.setCur { s.cur with stack := v :: v :: rest })) ∧
    (s.cfg.dstackSize ≤ s.cur.stack.length → exec .dup s = .next (s.restart .stackOverflow s.here.toNat))) ∧
  (∀ s : State, s.cur.stack.length < 3 → exec .rot s = .next (s.restart .stackUnderflow s.here.toNat)) ∧
  (∀ (s : State) (a b c : W56) (rest : List W56), s.cur.stack = a :: b :: c :: rest →
    s.cur.stack.length ≤ s.cfg.dstackSize →
      exec .rot s = .next (s.setCur { s.cur with stack := c :: a :: b :: rest }))

/-- R198: its code, the write of V[x], the pops, numbers above 7 refused. -/
def Obligations.WriteVariable : Prop :=
  (∀ o, decodeCode o 0x1b = .ok .writeVar) ∧
  (∀ s : State, s.cur.stack.length < 2 → exec .writeVar s = .next (s.restart .stackUnderflow s.here.toNat)) ∧
  (∀ (s : State) (x v : W56) (rest : List W56), s.cur.stack = x :: v :: rest →
    (∀ h : x.toNat < 8,
      exec .writeVar s = .next (s.setCur { s.cur with stack := rest, vars := s.cur.vars.set x.toNat v h })) ∧
    (7 < x.toNat → exec .writeVar s = .refused .badVariable))

/-! ## Logic -/

/-- R211 to R214: the codes and the bitwise results, bit by bit. -/
def Obligations.BitwiseResults : Prop :=
  (∀ o, decodeCode o 0x21 = .ok .not ∧ decodeCode o 0x22 = .ok .and ∧ decodeCode o 0x23 = .ok .or ∧
    decodeCode o 0x24 = .ok .xor) ∧
  (∀ s : State, s.cur.stack = [] → exec .not s = .next (s.restart .stackUnderflow s.here.toNat)) ∧
  (∀ s : State, s.cur.stack.length < 2 → ∀ i ∈ [Instr.and, .or, .xor],
    exec i s = .next (s.restart .stackUnderflow s.here.toNat)) ∧
  (∀ (s : State) (x : W56) (rest : List W56), s.cur.stack = x :: rest → s.cur.stack.length ≤ s.cfg.dstackSize →
    exec .not s = .next (s.setCur { s.cur with stack := (x ^^^ BitVec.ofNat 56 (2 ^ 56 - 1)) :: rest })) ∧
  (∀ (s : State) (x y : W56) (rest : List W56), s.cur.stack = y :: x :: rest →
    s.cur.stack.length ≤ s.cfg.dstackSize →
    exec .and s = .next (s.setCur { s.cur with stack := (x &&& y) :: rest }) ∧
    exec .or s = .next (s.setCur { s.cur with stack := (x ||| y) :: rest }) ∧
    exec .xor s = .next (s.setCur { s.cur with stack := (x ^^^ y) :: rest }))

/-- R210 (D17), R215 and R216 (D19), as numbers: the complement modulo 2^56, and shifts whose counts of 56 and more give 0. -/
def Obligations.ComplementAndShiftResults : Prop :=
  (∀ (s : State) (x : W56) (rest : List W56), s.cur.stack = x :: rest → s.cur.stack.length ≤ s.cfg.dstackSize →
    ∃ r : W56, r.toNat = (2 ^ 56 - x.toNat) % 2 ^ 56 ∧
      exec .com s = .next (s.setCur { s.cur with stack := r :: rest })) ∧
  (∀ (s : State) (x y : W56) (rest : List W56), s.cur.stack = y :: x :: rest →
    s.cur.stack.length ≤ s.cfg.dstackSize →
    ∃ l r : W56,
      (y.toNat < 56 → l.toNat = x.toNat * 2 ^ y.toNat % 2 ^ 56 ∧ r.toNat = x.toNat / 2 ^ y.toNat) ∧
      (56 ≤ y.toNat → l = 0 ∧ r = 0) ∧
      exec .shl s = .next (s.setCur { s.cur with stack := l :: rest }) ∧
      exec .shr s = .next (s.setCur { s.cur with stack := r :: rest }))

/-! ## Arithmetic -/

/-- R233 and R234: the codes, the truth values, the pops. -/
def Obligations.EqualityResults : Prop :=
  (∀ o, decodeCode o 0x2a = .ok .eq ∧ decodeCode o 0x2b = .ok .ne) ∧
  (∀ s : State, s.cur.stack.length < 2 →
    exec .eq s = .next (s.restart .stackUnderflow s.here.toNat) ∧
    exec .ne s = .next (s.restart .stackUnderflow s.here.toNat)) ∧
  (∀ (s : State) (x y : W56) (rest : List W56), s.cur.stack = y :: x :: rest →
    s.cur.stack.length ≤ s.cfg.dstackSize →
    exec .eq s = .next (s.setCur { s.cur with stack := (if x = y then 1 else 0) :: rest }) ∧
    exec .ne s = .next (s.setCur { s.cur with stack := (if x ≠ y then 1 else 0) :: rest }))

/-- R231, R232, R235, R236 under both readings of SIGNED_ARITH (R230, D18; `>` strict by C3). -/
def Obligations.OrderComparisonResults : Prop :=
  ∀ (s : State) (x y : W56) (rest : List W56) (a b : Int), s.cur.stack = y :: x :: rest →
    s.cur.stack.length ≤ s.cfg.dstackSize →
    (s.cfg.signedArith = false → a = x.toNat ∧ b = y.toNat) → (s.cfg.signedArith = true → a = x.toInt ∧ b = y.toInt) →
    exec .lt s = .next (s.setCur { s.cur with stack := (if a < b then 1 else 0) :: rest }) ∧
    exec .le s = .next (s.setCur { s.cur with stack := (if a ≤ b then 1 else 0) :: rest }) ∧
    exec .ge s = .next (s.setCur { s.cur with stack := (if a ≥ b then 1 else 0) :: rest }) ∧
    exec .gt s = .next (s.setCur { s.cur with stack := (if a > b then 1 else 0) :: rest })

/-- R237 to R239, R242, R243 (D17): results modulo 2^56, no condition. -/
def Obligations.SumsAndProductsWrap : Prop :=
  (∀ (s : State) (x y : W56) (rest : List W56), s.cur.stack = y :: x :: rest →
    s.cur.stack.length ≤ s.cfg.dstackSize →
    exec .add s = .next (s.setCur { s.cur with stack := BitVec.ofInt 56 (x.toNat + y.toNat) :: rest }) ∧
    exec .sub s = .next (s.setCur { s.cur with stack := BitVec.ofInt 56 (x.toNat - y.toNat) :: rest }) ∧
    exec .mul s = .next (s.setCur { s.cur with stack := BitVec.ofInt 56 (x.toNat * y.toNat) :: rest })) ∧
  (∀ (s : State) (x : W56) (rest : List W56), s.cur.stack = x :: rest → s.cur.stack.length ≤ s.cfg.dstackSize →
    exec .inc s = .next (s.setCur { s.cur with stack := BitVec.ofInt 56 (x.toNat + 1) :: rest }) ∧
    exec .dec s = .next (s.setCur { s.cur with stack := BitVec.ofInt 56 (x.toNat - 1) :: rest }))

/-- R240: its code, the pops, $109 on a zero divisor, the floor where neither operand has bit 55 set, DIVMOD otherwise. -/
def Obligations.QuotientResults : Prop :=
  (∀ o, decodeCode o 0x46 = .ok .div) ∧
  (∀ s : State, s.cur.stack.length < 2 → exec .div s = .next (s.restart .stackUnderflow s.here.toNat)) ∧
  (∀ (s : State) (x y : W56) (rest : List W56), s.cur.stack = y :: x :: rest →
    s.cur.stack.length ≤ s.cfg.dstackSize →
    (y = 0 → exec .div s = .next (s.restart .arithmetic s.here.toNat)) ∧
    (y ≠ 0 → x.toNat < 2 ^ 55 → y.toNat < 2 ^ 55 →
      exec .div s = .next (s.setCur { s.cur with stack := BitVec.ofNat 56 (x.toNat / y.toNat) :: rest })) ∧
    (y ≠ 0 → 2 ^ 55 ≤ x.toNat ∨ 2 ^ 55 ≤ y.toNat →
      exec .div s = match Config.divMod x y with
        | some (q, _) => .next (s.setCur { s.cur with stack := q :: rest })
        | none => .next (s.restart .arithmetic s.here.toNat)))

/-- R241 (D18): $109 on a zero divisor, the remainder where neither operand has bit 55 set, DIVMOD's otherwise. -/
def Obligations.RemainderResults : Prop :=
  ∀ (s : State) (x y : W56) (rest : List W56), s.cur.stack = y :: x :: rest →
    s.cur.stack.length ≤ s.cfg.dstackSize →
    (y = 0 → exec .modulo s = .next (s.restart .arithmetic s.here.toNat)) ∧
    (y ≠ 0 → x.toNat < 2 ^ 55 → y.toNat < 2 ^ 55 →
      exec .modulo s = .next (s.setCur
        { s.cur with stack := BitVec.ofNat 56 (x.toNat - y.toNat * (x.toNat / y.toNat)) :: rest })) ∧
    (y ≠ 0 → 2 ^ 55 ≤ x.toNat ∨ 2 ^ 55 ≤ y.toNat →
      exec .modulo s = match Config.divMod x y with
        | some (_, r) => .next (s.setCur { s.cur with stack := r :: rest })
        | none => .next (s.restart .arithmetic s.here.toNat))

/-- R244 (D42): some value is pushed, the one the count of draws leads to (log 26), and the count moves on. -/
def Obligations.RandomPushesAFreeValue : Prop :=
  ∀ s : State, s.cur.stack.length < s.cfg.dstackSize →
    ∃ t, exec .random s = .next t ∧ t.cur = { s.cur with stack := Config.freeWord s.draws :: s.cur.stack } ∧
      t.draws = s.draws + 1 ∧ (∀ k, k ≠ s.pxr → t.thread k = s.thread k) ∧ t.mem = s.mem ∧ t.cfg = s.cfg

/-! ## Memory -/

/-- R261 and R263 (D21), the destination in RAM outside the executing word, the source in RAM or ROM: FILL writes V[7:0] over the range,
`=` what the source range held before, whichever way they overlap; every byte outside the destination keeps its value; length 0 touches
nothing. A store into the executing word (D34), a read-only location in the destination (R62), and a peripheral location in a range (R260
item 6) are refused, the last, by the model's choice, before $103 where the range also reaches beyond 2^28 or to a byte that does not exist
(log 22). -/
def Obligations.FillAndCopyWriteTheirRange : Prop :=
  (∀ (s : State) (v c a : W56) (rest : List W56), s.cur.stack = v :: c :: a :: rest →
    (c = 0 → exec .fill s = .next (s.setCur { s.cur with stack := rest })) ∧
    (c ≠ 0 → s.Ram a.toNat c.toNat → a.toNat + c.toNat ≤ 2 ^ 28 → s.hitsOwnWord a.toNat c.toNat = false →
      s.mem.wf = true →
      ∃ t, exec .fill s = .next t ∧ t = { s.setCur { s.cur with stack := rest } with mem := t.mem } ∧
        (∀ i < c.toNat, t.mem.read (a.toNat + i) = BitVec.ofNat 8 v.toNat) ∧
        (∀ b, b < a.toNat ∨ a.toNat + c.toNat ≤ b → t.mem.read b = s.mem.read b)) ∧
    (c ≠ 0 → s.Ram a.toNat c.toNat → a.toNat + c.toNat ≤ 2 ^ 28 → s.hitsOwnWord a.toNat c.toNat = true →
      exec .fill s = .refused .storeIntoOwnWord) ∧
    (s.Plain a.toNat c.toNat → a.toNat + c.toNat ≤ 2 ^ 28 → (∃ i < c.toNat, s.cfg.kindAt (a.toNat + i) = some .rom) →
      exec .fill s = .refused .readOnlyLocation) ∧
    (∀ i < c.toNat, a.toNat + i < 2 ^ 28 → s.cfg.kindAt (a.toNat + i) = some .peripheral →
      exec .fill s = .refused .blockOverPeripheral)) ∧
  (∀ (s : State) (c n a : W56) (rest : List W56), s.cur.stack = c :: n :: a :: rest →
    (c = 0 → exec .copy s = .next (s.setCur { s.cur with stack := rest })) ∧
    (c ≠ 0 → s.Plain a.toNat c.toNat → a.toNat + c.toNat ≤ 2 ^ 28 → s.Ram n.toNat c.toNat →
      n.toNat + c.toNat ≤ 2 ^ 28 → s.hitsOwnWord n.toNat c.toNat = false → s.mem.wf = true →
      ∃ t, exec .copy s = .next t ∧ t = { s.setCur { s.cur with stack := rest } with mem := t.mem } ∧
        (∀ i < c.toNat, t.mem.read (n.toNat + i) = s.mem.read (a.toNat + i)) ∧
        (∀ b, b < n.toNat ∨ n.toNat + c.toNat ≤ b → t.mem.read b = s.mem.read b)) ∧
    (c ≠ 0 → s.Plain a.toNat c.toNat → a.toNat + c.toNat ≤ 2 ^ 28 → s.Ram n.toNat c.toNat →
      n.toNat + c.toNat ≤ 2 ^ 28 → s.hitsOwnWord n.toNat c.toNat = true → exec .copy s = .refused .storeIntoOwnWord) ∧
    (s.Plain a.toNat c.toNat → a.toNat + c.toNat ≤ 2 ^ 28 → s.Plain n.toNat c.toNat → n.toNat + c.toNat ≤ 2 ^ 28 →
      (∃ i < c.toNat, s.cfg.kindAt (n.toNat + i) = some .rom) → exec .copy s = .refused .readOnlyLocation) ∧
    (∀ i < c.toNat, a.toNat + i < 2 ^ 28 ∧ s.cfg.kindAt (a.toNat + i) = some .peripheral ∨
        n.toNat + i < 2 ^ 28 ∧ s.cfg.kindAt (n.toNat + i) = some .peripheral →
      exec .copy s = .refused .blockOverPeripheral))

/-- R260 item 5 (D23): FILL and `=` over a range that reaches beyond 2^28 or to a byte that does not exist, with no peripheral location
in the ranges, restart with $103; every byte of the destination range then holds its old or its intended value, every other byte its old
one. Which, is free (log 24). That $103 comes before the refusal of a read-only location (R62) and of the executing word (R356), where a
range holds one too, is the model's choice (logs 22, 23). -/
def Obligations.BlockFaultLeavesOldOrNewBytes : Prop :=
  (∀ (s : State) (v c a : W56) (rest : List W56), s.cur.stack = v :: c :: a :: rest → c ≠ 0 → s.mem.wf = true →
    (2 ^ 28 < a.toNat + c.toNat ∨ ∃ i < c.toNat, s.cfg.valid (a.toNat + i) = false) →
    (∀ i < c.toNat, s.cfg.kindAt (a.toNat + i) ≠ some .peripheral) →
      ∃ t, exec .fill s = .next t ∧ RestartedFrom s t ∧ (t.thread 0).stack.head? = some 0x103 ∧
        (∀ i < c.toNat, t.mem.read (a.toNat + i) = s.mem.read (a.toNat + i) ∨
          t.mem.read (a.toNat + i) = BitVec.ofNat 8 v.toNat) ∧
        (∀ b, b < a.toNat ∨ a.toNat + c.toNat ≤ b → t.mem.read b = s.mem.read b)) ∧
  (∀ (s : State) (c n a : W56) (rest : List W56), s.cur.stack = c :: n :: a :: rest → c ≠ 0 → s.mem.wf = true →
    (2 ^ 28 < a.toNat + c.toNat ∨ 2 ^ 28 < n.toNat + c.toNat ∨
      ∃ i < c.toNat, s.cfg.valid (a.toNat + i) = false ∨ s.cfg.valid (n.toNat + i) = false) →
    (∀ i < c.toNat, s.cfg.kindAt (a.toNat + i) ≠ some .peripheral ∧ s.cfg.kindAt (n.toNat + i) ≠ some .peripheral) →
      ∃ t, exec .copy s = .next t ∧ RestartedFrom s t ∧ (t.thread 0).stack.head? = some 0x103 ∧
        (∀ i < c.toNat, t.mem.read (n.toNat + i) = s.mem.read (n.toNat + i) ∨
          t.mem.read (n.toNat + i) = s.mem.read (a.toNat + i)) ∧
        (∀ b, b < n.toNat ∨ n.toNat + c.toNat ≤ b → t.mem.read b = s.mem.read b))

/-- R262 (D21): 0 for equal ranges and for length 0, otherwise how many characters remain at the first difference, that one
included. Only the stack changes. A range that reaches beyond 2^28 or to a byte that does not exist restarts with $103; a peripheral
location in a range is refused (R260), before $103 by the model's choice (log 22). -/
def Obligations.DiffCountsWhatRemains : Prop :=
  ∀ (s : State) (c y x : W56) (rest : List W56), s.cur.stack = c :: y :: x :: rest →
    s.cur.stack.length ≤ s.cfg.dstackSize →
    (c = 0 → exec .diff s = .next (s.setCur { s.cur with stack := 0 :: rest })) ∧
    (s.Plain x.toNat c.toNat → x.toNat + c.toNat ≤ 2 ^ 28 → s.Plain y.toNat c.toNat → y.toNat + c.toNat ≤ 2 ^ 28 →
      ((∀ i < c.toNat, s.mem.read (x.toNat + i) = s.mem.read (y.toNat + i)) →
        exec .diff s = .next (s.setCur { s.cur with stack := 0 :: rest })) ∧
      (∀ i < c.toNat, (∀ j < i, s.mem.read (x.toNat + j) = s.mem.read (y.toNat + j)) →
        s.mem.read (x.toNat + i) ≠ s.mem.read (y.toNat + i) →
          exec .diff s = .next (s.setCur { s.cur with stack := BitVec.ofNat 56 (c.toNat - i) :: rest }))) ∧
    (c ≠ 0 → (2 ^ 28 < x.toNat + c.toNat ∨ 2 ^ 28 < y.toNat + c.toNat ∨
        ∃ i < c.toNat, s.cfg.valid (x.toNat + i) = false ∨ s.cfg.valid (y.toNat + i) = false) →
      (∀ i < c.toNat, s.cfg.kindAt (x.toNat + i) ≠ some .peripheral ∧ s.cfg.kindAt (y.toNat + i) ≠ some .peripheral) →
        exec .diff s = .next (s.restart .badMemory s.here.toNat)) ∧
    (∀ i < c.toNat, x.toNat + i < 2 ^ 28 ∧ s.cfg.kindAt (x.toNat + i) = some .peripheral ∨
        y.toNat + i < 2 ^ 28 ∧ s.cfg.kindAt (y.toNat + i) = some .peripheral →
      exec .diff s = .refused .blockOverPeripheral)

/-- R264 and R265 (D22): LEN$ pushes the length of a string; SCAN$ the address of the first place string Y occurs in string X, 0
where it occurs nowhere. Only the stack changes. A string that leaves memory restarts with $103, and one that meets a peripheral location
is refused (R260 item 6); SCAN$ looks at X first (log 22). -/
def Obligations.StringLengthAndSearch : Prop :=
  (∀ (s : State) (a : W56) (rest : List W56), s.cur.stack = a :: rest → s.cur.stack.length ≤ s.cfg.dstackSize →
    (∀ len, s.HoldsString a.toNat len →
      exec .lenStr s = .next (s.setCur { s.cur with stack := BitVec.ofNat 56 len :: rest })) ∧
    (s.StringLeavesMemory a.toNat → exec .lenStr s = .next (s.restart .badMemory s.here.toNat)) ∧
    (s.StringMeetsPeripheral a.toNat → exec .lenStr s = .refused .blockOverPeripheral)) ∧
  (∀ (s : State) (y x : W56) (rest : List W56), s.cur.stack = y :: x :: rest →
    (s.StringLeavesMemory x.toNat → exec .scanStr s = .next (s.restart .badMemory s.here.toNat)) ∧
    (s.StringMeetsPeripheral x.toNat → exec .scanStr s = .refused .blockOverPeripheral) ∧
    ∀ lx, s.HoldsString x.toNat lx →
      (s.StringLeavesMemory y.toNat → exec .scanStr s = .next (s.restart .badMemory s.here.toNat)) ∧
      (s.StringMeetsPeripheral y.toNat → exec .scanStr s = .refused .blockOverPeripheral)) ∧
  (∀ (s : State) (y x : W56) (rest : List W56) (lx ly : Nat), s.cur.stack = y :: x :: rest →
    s.cur.stack.length ≤ s.cfg.dstackSize → s.HoldsString x.toNat lx → s.HoldsString y.toNat ly →
    (∀ p, p + ly ≤ lx → (∀ j < ly, s.mem.read (x.toNat + p + j) = s.mem.read (y.toNat + j)) →
      (∀ q < p, ∃ j < ly, s.mem.read (x.toNat + q + j) ≠ s.mem.read (y.toNat + j)) →
        exec .scanStr s = .next (s.setCur { s.cur with stack := BitVec.ofNat 56 (x.toNat + p) :: rest })) ∧
    ((∀ p, p + ly ≤ lx → ∃ j < ly, s.mem.read (x.toNat + p + j) ≠ s.mem.read (y.toNat + j)) →
      exec .scanStr s = .next (s.setCur { s.cur with stack := 0 :: rest })))

/-- R266 (D22): 0 for equal strings, otherwise the number of equal characters before the first difference, which is 0 too where the
first characters differ. Only the stack changes. Strings equal as far as they go, one of which then comes to a peripheral location, are refused
(R260 item 6), and otherwise, where one comes to a byte that does not exist, restart with $103; the order of the two is the model's choice
(log 22). -/
def Obligations.StringComparison : Prop :=
  ∀ (s : State) (y x : W56) (rest : List W56) (i : Nat), s.cur.stack = y :: x :: rest →
    s.cur.stack.length ≤ s.cfg.dstackSize → s.Plain x.toNat i → s.Plain y.toNat i →
    (i = 0 ∨ x.toNat + i ≤ 2 ^ 28 ∧ y.toNat + i ≤ 2 ^ 28) →
    (∀ j < i, s.mem.read (x.toNat + j) = s.mem.read (y.toNat + j) ∧ s.mem.read (x.toNat + j) ≠ 0) →
    (s.Plain (x.toNat + i) 1 → s.Plain (y.toNat + i) 1 → x.toNat + i < 2 ^ 28 → y.toNat + i < 2 ^ 28 →
      (s.mem.read (x.toNat + i) ≠ s.mem.read (y.toNat + i) →
        exec .diffStr s = .next (s.setCur { s.cur with stack := BitVec.ofNat 56 i :: rest })) ∧
      (s.mem.read (x.toNat + i) = 0 → s.mem.read (y.toNat + i) = 0 →
        exec .diffStr s = .next (s.setCur { s.cur with stack := 0 :: rest }))) ∧
    (2 ^ 28 ≤ x.toNat + i ∨ 2 ^ 28 ≤ y.toNat + i ∨ s.cfg.valid (x.toNat + i) = false ∨
        s.cfg.valid (y.toNat + i) = false →
      s.cfg.kindAt (x.toNat + i) ≠ some .peripheral → s.cfg.kindAt (y.toNat + i) ≠ some .peripheral →
        exec .diffStr s = .next (s.restart .badMemory s.here.toNat)) ∧
    (s.cfg.kindAt (x.toNat + i) = some .peripheral ∨ s.cfg.kindAt (y.toNat + i) = some .peripheral →
      exec .diffStr s = .refused .blockOverPeripheral)

/-- R267 (D22): the string and its terminator are copied from RAM or ROM to RAM, whichever way the ranges overlap; every byte outside
the destination keeps its value. A string that leaves memory restarts with $103 and writes nothing (log 24), one that meets a peripheral
location is refused. So is a destination that holds a peripheral location (R260 item 6), by the model's choice before $103 (log 22); one
that reaches beyond 2^28 or to a byte that does not exist restarts with $103 and leaves old or intended bytes (R260 item 5); a read-only
one (R62) and the executing word (D34) are refused. -/
def Obligations.StringCopy : Prop :=
  ∀ (s : State) (n a : W56) (rest : List W56), s.cur.stack = n :: a :: rest →
    (s.StringLeavesMemory a.toNat → exec .copyStr s = .next (s.restart .badMemory s.here.toNat)) ∧
    (s.StringMeetsPeripheral a.toNat → exec .copyStr s = .refused .blockOverPeripheral) ∧
    ∀ len, s.HoldsString a.toNat len →
      (s.Ram n.toNat (len + 1) → n.toNat + len + 1 ≤ 2 ^ 28 → s.hitsOwnWord n.toNat (len + 1) = false → s.mem.wf = true →
        ∃ t, exec .copyStr s = .next t ∧ t = { s.setCur { s.cur with stack := rest } with mem := t.mem } ∧
          (∀ i ≤ len, t.mem.read (n.toNat + i) = s.mem.read (a.toNat + i)) ∧
          (∀ b, b < n.toNat ∨ n.toNat + len + 1 ≤ b → t.mem.read b = s.mem.read b)) ∧
      (∀ i ≤ len, n.toNat + i < 2 ^ 28 → s.cfg.kindAt (n.toNat + i) = some .peripheral →
        exec .copyStr s = .refused .blockOverPeripheral) ∧
      ((∀ i ≤ len, s.cfg.kindAt (n.toNat + i) ≠ some .peripheral) → s.mem.wf = true →
        (2 ^ 28 < n.toNat + len + 1 ∨ ∃ i ≤ len, s.cfg.valid (n.toNat + i) = false) →
        ∃ t, exec .copyStr s = .next t ∧ RestartedFrom s t ∧ (t.thread 0).stack.head? = some 0x103 ∧
          (∀ i ≤ len, t.mem.read (n.toNat + i) = s.mem.read (n.toNat + i) ∨
            t.mem.read (n.toNat + i) = s.mem.read (a.toNat + i)) ∧
          (∀ b, b < n.toNat ∨ n.toNat + len + 1 ≤ b → t.mem.read b = s.mem.read b)) ∧
      (s.Plain n.toNat (len + 1) → n.toNat + len + 1 ≤ 2 ^ 28 → (∃ i ≤ len, s.cfg.kindAt (n.toNat + i) = some .rom) →
        exec .copyStr s = .refused .readOnlyLocation) ∧
      (s.Ram n.toNat (len + 1) → n.toNat + len + 1 ≤ 2 ^ 28 → s.hitsOwnWord n.toNat (len + 1) = true →
        exec .copyStr s = .refused .storeIntoOwnWord)

/-- R269 to R271 with the byte order of R63 and R64 (D20): the bytes of RAM or ROM, lowest address lowest, zero-extended. Only the
stack changes. Where peripheral locations are among the bytes read, those bytes are what the platform answers (R69), its own state moves
on, and nothing else but the stack and the count of draws changes (log 21); RD32 is two such transfers, the low word first (R75). -/
def Obligations.RawReadsAreLittleEndian : Prop :=
  ∀ (s : State) (a : W56) (rest : List W56), s.cur.stack = a :: rest → s.cur.stack.length ≤ s.cfg.dstackSize →
    (s.Plain a.toNat 1 → a.toNat + 1 ≤ 2 ^ 28 →
      exec .rd8 s = .next (s.setCur { s.cur with stack := BitVec.ofNat 56 (s.mem.read a.toNat).toNat :: rest })) ∧
    (s.Plain a.toNat 2 → a.toNat + 2 ≤ 2 ^ 28 → a.toNat % 2 = 0 →
      exec .rd16 s = .next (s.setCur
        { s.cur with
          stack := BitVec.ofNat 56 ((s.mem.read a.toNat).toNat + 2 ^ 8 * (s.mem.read (a.toNat + 1)).toNat) :: rest })) ∧
    (s.Plain a.toNat 4 → a.toNat + 4 ≤ 2 ^ 28 → a.toNat % 2 = 0 →
      exec .rd32 s = .next (s.setCur
        { s.cur with
          stack := BitVec.ofNat 56 ((s.mem.read a.toNat).toNat + 2 ^ 8 * (s.mem.read (a.toNat + 1)).toNat +
            2 ^ 16 * (s.mem.read (a.toNat + 2)).toNat + 2 ^ 24 * (s.mem.read (a.toNat + 3)).toNat) :: rest })) ∧
    (∀ (i : Instr) (n : Nat), (i = .rd8 ∧ n = 1 ∨ i = .rd16 ∧ n = 2) → a.toNat + n ≤ 2 ^ 28 →
      (n = 1 ∨ a.toNat % 2 = 0) → (∀ j < n, s.cfg.valid (a.toNat + j) = true) →
      (∃ j < n, s.cfg.kindAt (a.toNat + j) = some .peripheral) →
        ∃ (v : W56) (t : State), exec i s = .next t ∧ v.toNat < 2 ^ (8 * n) ∧
          (∀ j < n, v.toNat / 2 ^ (8 * j) % 2 ^ 8 =
            if s.cfg.kindAt (a.toNat + j) = some .peripheral then
              (Config.peripheralByte s.platform s.draws n (a.toNat + j)).toNat
            else (s.mem.read (a.toNat + j)).toNat) ∧
          t = { s.setCur { s.cur with stack := v :: rest } with
            platform := Config.platformRead s.platform s.draws a.toNat n, draws := s.draws + 1 }) ∧
    (a.toNat + 4 ≤ 2 ^ 28 → a.toNat % 2 = 0 → (∀ j < 4, s.cfg.valid (a.toNat + j) = true) →
      ∃ (v : W56) (u t : State), u = s.afterRead a.toNat 2 ∧ exec .rd32 s = .next t ∧
        v.toNat = (s.wordAt a.toNat).toNat + 2 ^ 16 * (u.wordAt (a.toNat + 2)).toNat ∧
        t = (u.afterRead (a.toNat + 2) 2).setCur { s.cur with stack := v :: rest })

/-- R273 to R275 with R63 and R65: to RAM outside the executing word, the low bytes of X, lowest at A; every other byte keeps its value,
and beside memory only the stack changes. WR16 and WR32 where peripheral locations are among the bytes written (R69): memory keeps what
it held there, and beside it the platform's own state alone moves (log 21), for WR16 by one bus transfer of two bytes, for WR32 by two, the
low word first (R75). -/
def Obligations.RawWritesAreLittleEndian : Prop :=
  ∀ (s : State) (a x : W56) (rest : List W56) (i : Instr) (n : Nat), s.cur.stack = a :: x :: rest →
    (i = .wr8 ∧ n = 1 ∨ i = .wr16 ∧ n = 2 ∨ i = .wr32 ∧ n = 4) → a.toNat + n ≤ 2 ^ 28 →
    (n = 1 ∨ a.toNat % 2 = 0) → s.hitsOwnWord a.toNat n = false → s.mem.wf = true →
    (s.Ram a.toNat n →
      ∃ t, exec i s = .next t ∧ t = { s.setCur { s.cur with stack := rest } with mem := t.mem } ∧
        (∀ j < n, t.mem.read (a.toNat + j) = BitVec.ofNat 8 (x.toNat / 2 ^ (8 * j))) ∧
        (∀ b, b < a.toNat ∨ a.toNat + n ≤ b → t.mem.read b = s.mem.read b)) ∧
    (i ≠ .wr8 → (∀ j < n, s.cfg.kindAt (a.toNat + j) = some .ram ∨ s.cfg.kindAt (a.toNat + j) = some .peripheral) →
      ∃ t, exec i s = .next t ∧
        t = { s.setCur { s.cur with stack := rest } with mem := t.mem, platform := t.platform } ∧
        (∀ j < n, t.mem.read (a.toNat + j) =
          if s.cfg.kindAt (a.toNat + j) = some .peripheral then s.mem.read (a.toNat + j)
          else BitVec.ofNat 8 (x.toNat / 2 ^ (8 * j))) ∧
        (∀ b, b < a.toNat ∨ a.toNat + n ≤ b → t.mem.read b = s.mem.read b) ∧
        ((∀ j < n, s.cfg.kindAt (a.toNat + j) = some .peripheral) → t.mem = s.mem) ∧
        (n = 2 → (∃ j < 2, s.cfg.kindAt (a.toNat + j) = some .peripheral) →
          t.platform = Config.platformWrite s.platform s.draws a.toNat
            [BitVec.ofNat 8 x.toNat, BitVec.ofNat 8 (x.toNat / 2 ^ 8)]) ∧
        (n = 4 → t.platform =
          ((s.afterWrite a.toNat [BitVec.ofNat 8 x.toNat, BitVec.ofNat 8 (x.toNat / 2 ^ 8)]).afterWrite (a.toNat + 2)
            [BitVec.ofNat 8 (x.toNat / 2 ^ 16), BitVec.ofNat 8 (x.toNat / 2 ^ 24)]).platform))

/-- R64 to R66 (D12, D24): a raw access beyond 2^28 restarts with $103, else one of more than a byte at an odd address with $102, else
one that touches a byte that does not exist with $103; the first word of RDVLN and WRVLN is such an access. A store that touches a
read-only location (R62), WR8 to a peripheral location (R75), and a store from slot 0 into its own word (R356, D34) are refused, after
$103 and $102 by the model's choice (logs 22, 23). -/
def Obligations.RawAccessConditions : Prop :=
  ∀ (s : State) (a : W56) (rest : List W56) (i : Instr) (n : Nat), s.cur.stack = a :: rest →
    (mayStore i = true → rest ≠ []) →
    (i ∈ [Instr.rd8, .wr8] ∧ n = 1 ∨ i ∈ [Instr.rd16, .wr16, .rdvln, .wrvln] ∧ n = 2 ∨
      i ∈ [Instr.rd32, .wr32] ∧ n = 4) →
    (2 ^ 28 < a.toNat + n → exec i s = .next (s.restart .badMemory s.here.toNat)) ∧
    (a.toNat + n ≤ 2 ^ 28 → n ≠ 1 → a.toNat % 2 = 1 → exec i s = .next (s.restart .alignment s.here.toNat)) ∧
    (a.toNat + n ≤ 2 ^ 28 → n = 1 ∨ a.toNat % 2 = 0 → (∃ j < n, s.cfg.valid (a.toNat + j) = false) →
      exec i s = .next (s.restart .badMemory s.here.toNat)) ∧
    (mayStore i = true → s.Ram a.toNat n → a.toNat + n ≤ 2 ^ 28 → n = 1 ∨ a.toNat % 2 = 0 →
      s.here.toNat % 2 = 0 → a.toNat < s.here.toNat + 2 → s.here.toNat < a.toNat + n →
      exec i s = .refused .storeIntoOwnWord) ∧
    (mayStore i = true → a.toNat + n ≤ 2 ^ 28 → n = 1 ∨ a.toNat % 2 = 0 → (∀ j < n, s.cfg.valid (a.toNat + j) = true) →
      (∃ j < n, s.cfg.kindAt (a.toNat + j) = some .rom) → exec i s = .refused .readOnlyLocation) ∧
    (i = .wr8 → a.toNat < 2 ^ 28 → s.cfg.kindAt a.toNat = some .peripheral → exec i s = .refused .byteWriteToPeripheral)

/-- R268 and R272 (D2 to D4): RDVLN pushes the address after a VLN and its value; WRVLN stores the words of a value, pushes the address
after them, and leaves every other byte alone. What WRVLN stored, RDVLN reads back. RDVLN reads RAM and ROM; of a word that is no VLN
group, first or after VLN_MORE words, and of a fourth VLN_MORE word, it is refused (R94, R101, D36); where a later word does not exist it
restarts with $103. WRVLN of which a later word does not exist restarts with $103 and leaves the words before it written (R95, R327); one
of which a later word is read-only (R62) or the executing one (R356) is refused. -/
def Obligations.StoredConstantsReadBack : Prop :=
  (∀ (s : State) (a : W56) (rest : List W56) (ws : List Word16), s.cur.stack = a :: rest →
    rest.length + 2 ≤ s.cfg.dstackSize → a.toNat % 2 = 0 → isVln s.cfg.typeMap ws = true → ws.length ≤ 4 →
    s.HoldsWords ws a.toNat →
      exec .rdvln s = .next (s.setCur
        { s.cur with
          stack := BitVec.ofNat 56 (vlnValue ws) :: BitVec.ofNat 56 (a.toNat + 2 * ws.length) :: rest })) ∧
  (∀ (s : State) (a : W56) (rest : List W56) (ws : List Word16) (w : Word16), s.cur.stack = a :: rest → a.toNat % 2 = 0 →
    (∀ v ∈ ws, wordClass s.cfg.typeMap v = .vlnMore) → s.HoldsWords (ws ++ [w]) a.toNat →
    (ws.length ≤ 3 → wordClass s.cfg.typeMap w = .instr ∨ wordClass s.cfg.typeMap w = .reserved →
      exec .rdvln s = .refused .malformedVln) ∧
    (ws.length = 3 → wordClass s.cfg.typeMap w = .vlnMore → exec .rdvln s = .refused .malformedVln)) ∧
  (∀ (s : State) (a : W56) (rest : List W56) (ws : List Word16), s.cur.stack = a :: rest → a.toNat % 2 = 0 →
    (∀ v ∈ ws, wordClass s.cfg.typeMap v = .vlnMore) → ws.length ≤ 3 → s.HoldsWords ws a.toNat →
    (2 ^ 28 < a.toNat + 2 * ws.length + 2 ∨ ∃ j < 2, s.cfg.valid (a.toNat + 2 * ws.length + j) = false) →
      exec .rdvln s = .next (s.restart .badMemory s.here.toNat)) ∧
  (∀ (s : State) (a x : W56) (rest : List W56) (pre post : List Word16) (w : Word16), s.cur.stack = a :: x :: rest →
    vlnWords s.cfg.typeMap x = pre ++ w :: post → s.mem.wf = true → a.toNat % 2 = 0 → s.Ram a.toNat (2 * pre.length) →
    a.toNat + 2 * pre.length ≤ 2 ^ 28 → s.hitsOwnWord a.toNat (2 * pre.length) = false →
    (2 ^ 28 < a.toNat + 2 * pre.length + 2 ∨ (∃ j < 2, s.cfg.valid (a.toNat + 2 * pre.length + j) = false) →
      ∃ t, exec .wrvln s = .next t ∧ RestartedFrom s t ∧ (t.thread 0).stack.head? = some 0x103 ∧
        t.HoldsWords pre a.toNat ∧
        ∀ b, b < a.toNat ∨ a.toNat + 2 * pre.length ≤ b → t.mem.read b = s.mem.read b) ∧
    (a.toNat + 2 * pre.length + 2 ≤ 2 ^ 28 → (∀ j < 2, s.cfg.valid (a.toNat + 2 * pre.length + j) = true) →
      (∃ j < 2, s.cfg.kindAt (a.toNat + 2 * pre.length + j) = some .rom) → exec .wrvln s = .refused .readOnlyLocation) ∧
    (a.toNat + 2 * pre.length + 2 ≤ 2 ^ 28 → s.Ram (a.toNat + 2 * pre.length) 2 →
      s.hitsOwnWord (a.toNat + 2 * pre.length) 2 = true → exec .wrvln s = .refused .storeIntoOwnWord)) ∧
  (∀ (s : State) (a x : W56) (rest : List W56) (n : Nat), s.cur.stack = a :: x :: rest →
    s.cur.stack.length ≤ s.cfg.dstackSize → s.cfg.typeMap.wf = true → s.mem.wf = true →
    n = 2 * (vlnWords s.cfg.typeMap x).length → s.Ram a.toNat n → a.toNat + n ≤ 2 ^ 28 → a.toNat % 2 = 0 →
    s.hitsOwnWord a.toNat n = false →
      ∃ t, exec .wrvln s = .next t ∧
        t = { s.setCur { s.cur with stack := BitVec.ofNat 56 (a.toNat + n) :: rest } with mem := t.mem } ∧
        t.HoldsWords (vlnWords s.cfg.typeMap x) a.toNat ∧
        (∀ b, b < a.toNat ∨ a.toNat + n ≤ b → t.mem.read b = s.mem.read b) ∧
        exec .rdvln (t.setCur { t.cur with stack := a :: rest }) = .next (t.setCur
          { t.cur with stack := x :: BitVec.ofNat 56 (a.toNat + n) :: rest }))

/-! ## System functions -/

/-- R300 to R302 (D30, D31): a code below $80 runs that instruction from the state without it, SYSFN again included; an unassigned one
restarts with $100, and is refused while SYSFN_OPCODE is unset, which is the model's inference (log 28); a code of $80 and more that
SYSFN_IMPL does not define is ignored; one it defines has SYSFN_IMPL's effect. That effect's shape is the model's choice (log 27): it
takes elements from the data stack, leaves others there, where either can restart the machine before anything is stored, sets the
platform's own state, stores where memory exists, and may restart in the end. From slot 0 a store into the executing word is refused
(R76, R356). -/
def Obligations.SysfnRunsItsCode : Prop :=
  (∀ (s : State) (x : W56) (rest : List W56), s.cur.stack = x :: rest →
    (∀ i, x.toNat < 0x80 → decodeCode s.cfg.sysfnOpcode (BitVec.ofNat 7 x.toNat) = .ok i →
      exec .sysfn s = exec i (s.setCur { s.cur with stack := rest })) ∧
    (∀ c, x.toNat < 0x80 → decodeCode s.cfg.sysfnOpcode (BitVec.ofNat 7 x.toNat) = .error (.invalidCode c) →
      exec .sysfn s = .next (s.restart .invalidCode s.here.toNat)) ∧
    (∀ c, x.toNat < 0x80 → decodeCode s.cfg.sysfnOpcode (BitVec.ofNat 7 x.toNat) = .error (.invalidOrSysfn c) →
      exec .sysfn s = .refused .unassignedWhileUnset) ∧
    (0x80 ≤ x.toNat → x ∉ s.cfg.sysfnCodes → exec .sysfn s = .next (s.setCur { s.cur with stack := rest })) ∧
    (0x80 ≤ x.toNat → x ∈ s.cfg.sysfnCodes → exec .sysfn s =
      systemFunction (Config.sysfnImpl s.platform s.draws x rest s.mem) ((s.setCur { s.cur with stack := rest }).drawn 1))) ∧
  (∀ (s : State) (e : SysEffect), s.cur.stack.length < e.pops →
    systemFunction e s = .next (s.restart .stackUnderflow s.here.toNat)) ∧
  (∀ (s : State) (e : SysEffect) (taken kept : List W56), s.cur.stack = taken ++ kept → taken.length = e.pops →
    (e.pushes ≠ [] → s.cfg.dstackSize < kept.length + e.pushes.length →
      systemFunction e s = .next (s.restart .stackOverflow s.here.toNat)) ∧
    (kept.length + e.pushes.length ≤ s.cfg.dstackSize →
      ((∃ c ∈ e.stores, s.cfg.valid c.1.toNat = true ∧ s.hitsOwnWord c.1.toNat 1 = true) →
        systemFunction e s = .refused .storeIntoOwnWord) ∧
      ((∀ c ∈ e.stores, s.cfg.valid c.1.toNat = true → s.hitsOwnWord c.1.toNat 1 = false) →
        ∃ u, u = { s.setCur { s.cur with stack := e.pushes.reverse ++ kept } with platform := e.platform } ∧
          (e.raises = none → systemFunction e s = .next (u.storeAll e.stores)) ∧
          (∀ c, e.raises = some c → systemFunction e s = .next ((u.storeAll e.stores).restart c s.here.toNat)))))

/-! ## Rules over all instructions -/

/-- R130, R317 (D24): an instruction that finds fewer elements than its parameters restarts with $106 before anything else. -/
def Obligations.MissingParametersRestart : Prop :=
  ∀ (i : Instr) (s : State), s.cur.stack.length < paramCount i →
    exec i s = .next (s.restart .stackUnderflow s.here.toNat)

/-- R199, R268, R316 (D24): a push on a full data stack restarts with $105, RDVLN's second result too. That RANDOM's draw is spent is the
model's choice (log 26). -/
def Obligations.FullStackRestarts : Prop :=
  ∀ s : State, s.cfg.dstackSize ≤ s.cur.stack.length →
    (∀ i ∈ [Instr.depth, .maxthds, .threads], exec i s = .next (s.restart .stackOverflow s.here.toNat)) ∧
    exec .random s = .next ((s.drawn 1).restart .stackOverflow s.here.toNat) ∧
    (s.cur.stack ≠ [] → exec .dup s = .next (s.restart .stackOverflow s.here.toNat)) ∧
    ∀ (a : W56) (rest : List W56) (ws : List Word16), s.cur.stack = a :: rest → a.toNat % 2 = 0 →
      isVln s.cfg.typeMap ws = true → ws.length ≤ 4 → s.HoldsWords ws a.toNat →
        exec .rdvln s = .next (s.restart .stackOverflow s.here.toNat)

/-- R78 and section 45: only FILL, `=`, `=$`, the four writes, and SYSFN can change memory; only the reads, the writes of whole words, and
SYSFN can reach the platform (R69, R75, R260, R302), whose own state is the model's field (log 36). -/
def Obligations.OnlyStoringInstructionsChangeMemory : Prop :=
  ∀ (i : Instr) (s t : State), exec i s = .next t →
    (mayStore i = false → t.mem = s.mem) ∧ (reachesPlatform i = false → t.platform = s.platform)

/-- R21, R358: an instruction that neither creates nor ends other threads changes nothing of any other thread, unless it restarts the
machine. SYSFN is left to the instruction it runs. -/
def Obligations.OtherThreadsAreLeftAlone : Prop :=
  ∀ (i : Instr) (s t : State), actsOnThreads i = false → exec i s = .next t →
    (∀ k, k ≠ s.pxr → t.thread k = s.thread k) ∨ RestartedFrom s t

/-- R32, R33, R31, R24, R36: each register of the executing thread is written by its own instructions only, unless the machine restarts
or the thread ends. SYSFN is left to the instruction it runs. -/
def Obligations.RegistersHaveTheirOwnWriters : Prop :=
  ∀ (i : Instr) (s t : State), i ≠ .sysfn → s.cur.live = true → exec i s = .next t →
    RestartedFrom s t ∨ (t.thread s.pxr).live = false ∨
      ((i ≠ .writeVar → (t.thread s.pxr).vars = s.cur.vars) ∧ (i ≠ .setpr → (t.thread s.pxr).prio = s.cur.prio) ∧
       (i ∉ [Instr.enter, .leave] → (t.thread s.pxr).snap = s.cur.snap) ∧
       (i ≠ .delay → (t.thread s.pxr).held = s.cur.held ∧ (t.thread s.pxr).dcr = s.cur.dcr) ∧
       (i ∉ [Instr.skip, .ifMark, .elseMark, .repIf, .breakLoop] → (t.thread s.pxr).mode = s.cur.mode) ∧
       (t.thread s.pxr).icr = s.cur.icr ∧ (t.thread s.pxr).work = s.cur.work ∧ t.pxr = s.pxr ∧ t.dlyc = s.dlyc)
end

