-- ==== Sys2Proof/Laws/Encoding.lean ====
section
/-!
SUPPORT. Laws of the opcode map and of the layout of program words: the map's two directions, the classes' two directions, and the fields of a
word put together and taken apart.
-/
namespace Sys2Proof

/-- The opcode map has no instruction for exactly the codes R99 lists, and a code it has one for is that instruction's own. -/
theorem lookupRow_spec (c : Code7) : (lookupRow c.toNat opcodeRows = none ↔ c.toNat ∈ unassignedCodes) ∧
    ∀ i, lookupRow c.toNat opcodeRows = some i → i.fixedCode = some c := by
  have all : ∀ c : Code7, (lookupRow c.toNat opcodeRows = none ↔ c.toNat ∈ unassignedCodes) ∧
      ((lookupRow c.toNat opcodeRows).all fun i => i.fixedCode == some c) = true := by decide +kernel
  refine ⟨(all c).1, fun i hi => ?_⟩
  have h := (all c).2
  rw [hi] at h
  simpa using h

theorem lookupRow_of_fixedCode {i : Instr} {c : Code7} (h : i.fixedCode = some c) : lookupRow c.toNat opcodeRows = some i := by
  cases i <;> simp [Instr.fixedCode] at h <;> subst h <;> rfl

theorem fixedCode_eq_none {i : Instr} (h : i.fixedCode = none) : i = .sysfn := by
  cases i <;> simp [Instr.fixedCode] at h
  rfl

theorem decodeCode_of_fixedCode {o : Option Code7} {i : Instr} {c : Code7} (h : i.fixedCode = some c) :
    decodeCode o c = .ok i := by
  simp [decodeCode, lookupRow_of_fixedCode h]

theorem decodeCode_unassigned {o : Option Code7} {c : Code7} (h : c.toNat ∈ unassignedCodes) :
    decodeCode o c = match o with
      | none => .error (.invalidOrSysfn c)
      | some d => if d = c then .ok .sysfn else .error (.invalidCode c) := by
  cases o <;> simp [decodeCode, (lookupRow_spec c).1.2 h]

/-- The constraint R3 puts on SYSFN_OPCODE. -/
theorem sysfnOpcode_unassigned {p : Params} {o : Code7} (h : p.wf = true) (ho : p.sysfnOpcode = some o) :
    o.toNat ∈ unassignedCodes := by
  have : p.sysfnOk = true := by
    simp only [Params.wf, Bool.and_eq_true] at h
    exact h.1.2
  simpa [Params.sysfnOk, ho] using this

theorem typeMap_wf {p : Params} (h : p.wf = true) : p.typeMap.wf = true := by
  simp only [Params.wf, Bool.and_eq_true] at h
  exact h.1.1.1.1.2

/-- An instruction's code is what decodes to it. -/
theorem encodeCode_of_decodeCode {o : Option Code7} {c : Code7} {i : Instr} (h : decodeCode o c = .ok i) :
    encodeCode o i = some c := by
  unfold decodeCode at h
  split at h
  · next j hj => cases h; simp [encodeCode, (lookupRow_spec c).2 _ hj]
  · split at h
    · cases h
    · split at h
      · next e => cases h; cases e; rfl
      · cases h

/-! The classes of words (R91). -/

theorem classOf_codeOf {m : TypeMap} (h : m.wf = true) (c : WordClass) : m.classOf (m.codeOf c) = c := by
  rcases m with ⟨a, b, d, e⟩
  cases a <;> cases b <;> cases d <;> cases e <;> simp [TypeMap.wf] at h <;> cases c <;> rfl

theorem codeOf_classOf {m : TypeMap} (h : m.wf = true) (t : BitVec 2) : m.codeOf (m.classOf t) = t := by
  rcases m with ⟨a, b, d, e⟩
  cases a <;> cases b <;> cases d <;> cases e <;> simp [TypeMap.wf] at h <;> revert t <;> decide

/-! The fields of a word (R90, R92). -/

theorem extract_class (t : BitVec 2) (p : Payload) : (t ++ p : BitVec 16).extractLsb' 14 2 = t := by
  apply BitVec.eq_of_getLsbD_eq
  intro i hi
  rw [BitVec.getLsbD_extractLsb', BitVec.getLsbD_append]
  simp [hi]

theorem extract_payload (t : BitVec 2) (p : Payload) : (t ++ p : BitVec 16).extractLsb' 0 14 = p := by
  apply BitVec.eq_of_getLsbD_eq
  intro i hi
  rw [BitVec.getLsbD_extractLsb', BitVec.getLsbD_append]
  simp [hi]

theorem wordClass_typedWord {m : TypeMap} (h : m.wf = true) (c : WordClass) (p : Payload) :
    wordClass m (typedWord m c p) = c := by
  rw [wordClass, typedWord, extract_class, classOf_codeOf h]

theorem payloadOf_typedWord (m : TypeMap) (c : WordClass) (p : Payload) : payloadOf (typedWord m c p) = p := by
  rw [payloadOf, typedWord, extract_payload]

/-- A word is its class and its payload. -/
theorem typedWord_of_parts {m : TypeMap} (h : m.wf = true) (w : Word16) : typedWord m (wordClass m w) (payloadOf w) = w := by
  rw [typedWord, wordClass, codeOf_classOf h, payloadOf]
  apply BitVec.eq_of_getLsbD_eq
  intro i hi
  rw [BitVec.getLsbD_append]
  simp only [BitVec.getLsbD_extractLsb']
  split
  · next h => simp [h]
  · next h => simp [show i - 14 < 2 by omega, show 14 + (i - 14) = i by omega]

theorem slotCode_zero (a b : Code7) : slotCode false (b ++ a : BitVec 14) = a := by
  apply BitVec.eq_of_getLsbD_eq
  intro i hi
  simp only [slotCode, Bool.false_eq_true, if_false]
  rw [BitVec.getLsbD_extractLsb', BitVec.getLsbD_append]
  simp [hi]

theorem slotCode_one (a b : Code7) : slotCode true (b ++ a : BitVec 14) = b := by
  apply BitVec.eq_of_getLsbD_eq
  intro i hi
  simp only [slotCode, if_true]
  rw [BitVec.getLsbD_extractLsb', BitVec.getLsbD_append]
  simp [hi]

/-- A payload is its two slots. -/
theorem slots_append (p : Payload) : (slotCode true p ++ slotCode false p : BitVec 14) = p := by
  apply BitVec.eq_of_getLsbD_eq
  intro i hi
  simp only [slotCode]
  rw [BitVec.getLsbD_append]
  simp only [if_true, Bool.false_eq_true, if_false, BitVec.getLsbD_extractLsb']
  split
  · next h => simp [h]
  · next h => simp [show i - 7 < 7 by omega, show 7 + (i - 7) = i by omega]

theorem vlnGroup_toNat (v : W56) (k : Nat) : (vlnGroup v k).toNat = v.toNat / 2 ^ (14 * k) % 2 ^ 14 := by
  simp [vlnGroup, BitVec.extractLsb'_toNat, Nat.shiftRight_eq_div_pow]

/-- A word is its two bytes (spec/20_memory.md R63). -/
theorem word_of_bytes (w : Word16) :
    BitVec.ofNat 16 ((w.extractLsb' 0 8).toNat + 256 * (w.extractLsb' 8 8).toNat) = w := by
  apply BitVec.eq_of_toNat_eq
  have := w.isLt
  simp [BitVec.extractLsb'_toNat, Nat.shiftRight_eq_div_pow]
  omega

end Sys2Proof
end

