-- ==== Sys2Proof/Laws/State.lean ====
section
/-!
SUPPORT. The small lemmas of the state's updates: one per field and update, all tagged simp, so that no proof unfolds a record
update. Every update of the thread in use is brought to the one form `s.setCur t`.
-/
namespace Sys2Proof.Machine

/-! Replacing a thread. -/

@[simp] theorem setThread_cfg (s : State) (k : BitVec 7) (t : Thread) : (s.setThread k t).cfg = s.cfg := rfl
@[simp] theorem setThread_mem (s : State) (k : BitVec 7) (t : Thread) : (s.setThread k t).mem = s.mem := rfl
@[simp] theorem setThread_pxr (s : State) (k : BitVec 7) (t : Thread) : (s.setThread k t).pxr = s.pxr := rfl
@[simp] theorem setThread_dlyc (s : State) (k : BitVec 7) (t : Thread) : (s.setThread k t).dlyc = s.dlyc := rfl
@[simp] theorem setThread_platform (s : State) (k : BitVec 7) (t : Thread) : (s.setThread k t).platform = s.platform := rfl
@[simp] theorem setThread_draws (s : State) (k : BitVec 7) (t : Thread) : (s.setThread k t).draws = s.draws := rfl

@[simp] theorem thread_setThread_self (s : State) (k : BitVec 7) (t : Thread) : (s.setThread k t).thread k = t := by
  simp [State.thread, State.setThread]

theorem thread_setThread_of_ne (s : State) {k j : BitVec 7} (t : Thread) (h : j ≠ k) :
    (s.setThread k t).thread j = s.thread j := by
  have : k.toNat ≠ j.toNat := fun e => h (BitVec.eq_of_toNat_eq e.symm)
  simp [State.thread, State.setThread, this]

theorem thread_setThread (s : State) (k j : BitVec 7) (t : Thread) :
    (s.setThread k t).thread j = if j = k then t else s.thread j := by
  split
  · next h => subst h; simp
  · next h => exact thread_setThread_of_ne s t h

@[simp] theorem setThread_setThread (s : State) (k : BitVec 7) (t u : Thread) :
    (s.setThread k t).setThread k u = s.setThread k u := by
  simp [State.setThread]

@[simp] theorem setThread_thread (s : State) (k : BitVec 7) : s.setThread k (s.thread k) = s := by
  simp [State.setThread, State.thread]

/-! Replacing the thread in use. -/

@[simp] theorem setCur_cfg (s : State) (t : Thread) : (s.setCur t).cfg = s.cfg := rfl
@[simp] theorem setCur_mem (s : State) (t : Thread) : (s.setCur t).mem = s.mem := rfl
@[simp] theorem setCur_pxr (s : State) (t : Thread) : (s.setCur t).pxr = s.pxr := rfl
@[simp] theorem setCur_dlyc (s : State) (t : Thread) : (s.setCur t).dlyc = s.dlyc := rfl
@[simp] theorem setCur_platform (s : State) (t : Thread) : (s.setCur t).platform = s.platform := rfl
@[simp] theorem setCur_draws (s : State) (t : Thread) : (s.setCur t).draws = s.draws := rfl

@[simp] theorem cur_setCur (s : State) (t : Thread) : (s.setCur t).cur = t :=
  thread_setThread_self s s.pxr t

@[simp] theorem setCur_setCur (s : State) (t u : Thread) : (s.setCur t).setCur u = s.setCur u :=
  setThread_setThread s s.pxr t u

@[simp] theorem setCur_cur (s : State) : s.setCur s.cur = s :=
  setThread_thread s s.pxr

theorem thread_setCur_of_ne (s : State) {j : BitVec 7} (t : Thread) (h : j ≠ s.pxr) :
    (s.setCur t).thread j = s.thread j :=
  thread_setThread_of_ne s t h

theorem thread_setCur (s : State) (j : BitVec 7) (t : Thread) :
    (s.setCur t).thread j = if j = s.pxr then t else s.thread j :=
  thread_setThread s s.pxr j t

@[simp] theorem withPc_eq (s : State) (a : A28) : s.withPc a = s.setCur { s.cur with pc := a } := rfl
@[simp] theorem withStack_eq (s : State) (xs : List W56) : s.withStack xs = s.setCur { s.cur with stack := xs } := rfl
@[simp] theorem withCtl_eq (s : State) (es : List CtlEntry) : s.withCtl es = s.setCur { s.cur with ctl := es } := rfl
@[simp] theorem withMode_eq (s : State) (m : Mode) : s.withMode m = s.setCur { s.cur with mode := m } := rfl

@[simp] theorem here_setCur (s : State) (t : Thread) : (s.setCur t).here = t.pc - 1 := by
  simp [State.here]

/-! Drawing free values. -/

@[simp] theorem drawn_cfg (s : State) (n : Nat) : (s.drawn n).cfg = s.cfg := rfl
@[simp] theorem drawn_mem (s : State) (n : Nat) : (s.drawn n).mem = s.mem := rfl
@[simp] theorem drawn_pxr (s : State) (n : Nat) : (s.drawn n).pxr = s.pxr := rfl
@[simp] theorem drawn_dlyc (s : State) (n : Nat) : (s.drawn n).dlyc = s.dlyc := rfl
@[simp] theorem drawn_platform (s : State) (n : Nat) : (s.drawn n).platform = s.platform := rfl
@[simp] theorem drawn_draws (s : State) (n : Nat) : (s.drawn n).draws = s.draws + n := rfl
@[simp] theorem drawn_thread (s : State) (n : Nat) (k : BitVec 7) : (s.drawn n).thread k = s.thread k := rfl
@[simp] theorem drawn_cur (s : State) (n : Nat) : (s.drawn n).cur = s.cur := rfl
@[simp] theorem drawn_here (s : State) (n : Nat) : (s.drawn n).here = s.here := rfl
@[simp] theorem drawn_setCur (s : State) (n : Nat) (t : Thread) : (s.drawn n).setCur t = (s.setCur t).drawn n := rfl
@[simp] theorem drawn_setThread (s : State) (n : Nat) (k : BitVec 7) (t : Thread) :
    (s.drawn n).setThread k t = (s.setThread k t).drawn n := rfl

/-! The restart: it forgets everything about the threads. -/

@[simp] theorem restart_cfg (s : State) (c : Condition) (a : Nat) : (s.restart c a).cfg = s.cfg := rfl
@[simp] theorem restart_mem (s : State) (c : Condition) (a : Nat) : (s.restart c a).mem = s.mem := rfl
@[simp] theorem restart_pxr (s : State) (c : Condition) (a : Nat) : (s.restart c a).pxr = 0 := rfl
@[simp] theorem restart_dlyc (s : State) (c : Condition) (a : Nat) : (s.restart c a).dlyc = s.dlyc := rfl
@[simp] theorem restart_platform (s : State) (c : Condition) (a : Nat) : (s.restart c a).platform = s.platform := rfl
@[simp] theorem restart_draws (s : State) (c : Condition) (a : Nat) : (s.restart c a).draws = s.draws + 9 := rfl

@[simp] theorem restart_setCur (s : State) (t : Thread) (c : Condition) (a : Nat) :
    (s.setCur t).restart c a = s.restart c a := rfl

theorem restart_thread_zero (s : State) (c : Condition) (a : Nat) :
    (s.restart c a).thread 0 = Thread.begun s.draws 0 [restartCode c, s.eventAddress a] := by
  simp [State.thread, State.restart]

theorem restart_thread_of_ne (s : State) (c : Condition) (a : Nat) {k : BitVec 7} (h : k ≠ 0) :
    (s.restart c a).thread k = Thread.ended := by
  have : (0 : Nat) ≠ k.toNat := fun e => h (BitVec.eq_of_toNat_eq (by simpa using e.symm))
  simp [State.thread, State.restart, this]

theorem restart_cur (s : State) (c : Condition) (a : Nat) :
    (s.restart c a).cur = Thread.begun s.draws 0 [restartCode c, s.eventAddress a] :=
  restart_thread_zero s c a

@[simp] theorem raise_setCur (s : State) (t : Thread) (c : Condition) :
    raise c (s.setCur t) = .next (s.restart c (t.pc - 1).toNat) := by
  simp [raise]

theorem raise_eq (s : State) (c : Condition) : raise c s = .next (s.restart c (s.cur.pc - 1).toNat) := rfl

/-! Ending the other threads. -/

@[simp] theorem endOthers_cfg (s : State) : s.endOthers.cfg = s.cfg := rfl
@[simp] theorem endOthers_mem (s : State) : s.endOthers.mem = s.mem := rfl
@[simp] theorem endOthers_pxr (s : State) : s.endOthers.pxr = s.pxr := rfl
@[simp] theorem endOthers_dlyc (s : State) : s.endOthers.dlyc = s.dlyc := rfl
@[simp] theorem endOthers_platform (s : State) : s.endOthers.platform = s.platform := rfl
@[simp] theorem endOthers_draws (s : State) : s.endOthers.draws = s.draws := rfl

theorem endOthers_thread_zero (s : State) : s.endOthers.thread 0 = s.thread 0 := by
  simp [State.thread, State.endOthers]

theorem endOthers_thread_of_ne (s : State) {k : BitVec 7} (h : k ≠ 0) : s.endOthers.thread k = Thread.ended := by
  have : (0 : Nat) ≠ k.toNat := fun e => h (BitVec.eq_of_toNat_eq (by simpa using e.symm))
  simp [State.thread, State.endOthers, this]

end Sys2Proof.Machine
end

