-- ==== Sys2Proof/Laws/Memory.lean ====
section
/-!
SUPPORT. Laws of memory: read after write, the canonical form, and what storing bytes leaves alone.
-/
namespace Sys2Proof.Machine

/-! Reading and writing one byte. -/

theorem Memory.wfFrom_mono {lo lo' : Nat} (h : lo' ≤ lo) :
    ∀ {m : Memory}, Memory.wfFrom lo m = true → Memory.wfFrom lo' m = true
  | [], _ => rfl
  | (a, b) :: m, w => by
    simp only [Memory.wfFrom, Bool.and_eq_true, decide_eq_true_eq] at w ⊢
    exact ⟨⟨by omega, w.1.2⟩, w.2⟩

theorem Memory.read_of_lt {lo a : Nat} : ∀ {m : Memory}, Memory.wfFrom lo m = true → a < lo →
    Memory.read a m = Memory.unlisted
  | [], _, _ => rfl
  | (k, b) :: m, w, h => by
    simp only [Memory.wfFrom, Bool.and_eq_true, decide_eq_true_eq] at w
    have hk : k ≠ a := by omega
    simp only [Memory.read, if_neg hk]
    exact Memory.read_of_lt w.2 (by omega)

theorem Memory.write_wfFrom {lo a : Nat} (b : Byte) (h : lo ≤ a) : ∀ {m : Memory}, Memory.wfFrom lo m = true →
    Memory.wfFrom lo (Memory.write a b m) = true
  | [], _ => by
    by_cases hb : b = Memory.unlisted <;> simp [Memory.write, Memory.wfFrom, hb, h]
  | (k, c) :: m, w => by
    have w' := w
    simp only [Memory.wfFrom, Bool.and_eq_true, decide_eq_true_eq, bne_iff_ne] at w'
    obtain ⟨⟨hk, hc⟩, hm⟩ := w'
    by_cases h1 : a < k
    · by_cases hb : b = Memory.unlisted
      · simpa [Memory.write, h1, hb] using w
      · simp only [Memory.write, h1, hb, if_true, if_false, Memory.wfFrom, Bool.and_eq_true, decide_eq_true_eq,
          bne_iff_ne]
        exact ⟨⟨h, hb⟩, ⟨by omega, hc⟩, hm⟩
    · by_cases h2 : a = k
      · subst h2
        by_cases hb : b = Memory.unlisted
        · simpa [Memory.write, hb] using Memory.wfFrom_mono (by omega) hm
        · simp [Memory.write, hb, Memory.wfFrom, h, hm]
      · simp only [Memory.write, h1, h2, if_false, Memory.wfFrom, Bool.and_eq_true, decide_eq_true_eq, bne_iff_ne]
        exact ⟨⟨hk, hc⟩, Memory.write_wfFrom b (by omega) hm⟩

/-- Every write keeps the canonical form. -/
theorem Memory.write_wf {m : Memory} (a : Nat) (b : Byte) (h : m.wf = true) : Memory.wf (m.write a b) = true :=
  Memory.write_wfFrom b (Nat.zero_le a) h

/-- Memory at reset has the canonical form. -/
theorem reset_mem_wf : State.reset.mem.wf = true := rfl

theorem Memory.read_write_self_from {lo : Nat} (a : Nat) (b : Byte) : ∀ {m : Memory}, Memory.wfFrom lo m = true →
    Memory.read a (Memory.write a b m) = b
  | [], _ => by
    by_cases hb : b = Memory.unlisted <;> simp [Memory.write, Memory.read, hb]
  | (k, c) :: m, w => by
    have w' := w
    simp only [Memory.wfFrom, Bool.and_eq_true, decide_eq_true_eq] at w'
    by_cases h1 : a < k
    · by_cases hb : b = Memory.unlisted
      · have hka : k ≠ a := by omega
        simp only [Memory.write, h1, hb, if_true, Memory.read, if_neg hka]
        exact Memory.read_of_lt w'.2 (by omega)
      · simp [Memory.write, h1, hb, Memory.read]
    · by_cases h2 : a = k
      · subst h2
        by_cases hb : b = Memory.unlisted
        · simpa [Memory.write, hb] using Memory.read_of_lt w'.2 (Nat.lt_succ_self a)
        · simp [Memory.write, hb, Memory.read]
      · have hka : k ≠ a := fun e => h2 e.symm
        simp only [Memory.write, h1, h2, if_false, Memory.read, if_neg hka]
        exact Memory.read_write_self_from a b w'.2

/-- A read after a write to the same address gives the byte written. -/
theorem Memory.read_write_self {m : Memory} (a : Nat) (b : Byte) (h : m.wf = true) :
    Memory.read a (m.write a b) = b :=
  Memory.read_write_self_from a b h

/-- A write leaves every other address alone. -/
theorem Memory.read_write_of_ne {a a' : Nat} (b : Byte) (h : a' ≠ a) : ∀ (m : Memory),
    Memory.read a' (m.write a b) = Memory.read a' m
  | [] => by
    by_cases hb : b = Memory.unlisted <;> simp [Memory.write, Memory.read, hb, h.symm]
  | (k, c) :: m => by
    by_cases h1 : a < k
    · by_cases hb : b = Memory.unlisted <;> simp [Memory.write, h1, hb, Memory.read, h.symm]
    · by_cases h2 : a = k
      · subst h2
        by_cases hb : b = Memory.unlisted <;> simp [Memory.write, hb, Memory.read, h.symm]
      · by_cases h3 : k = a'
        · simp only [Memory.write, if_neg h1, if_neg h2, Memory.read, if_pos h3]
        · simp only [Memory.write, h1, h2, if_false, Memory.read, if_neg h3]
          exact Memory.read_write_of_ne b h m

/-- A cell of a written memory is the written one or was there before. -/
theorem Memory.mem_write {a : Nat} {b : Byte} {c : Host.Cell} : ∀ {m : Memory}, c ∈ m.write a b → c.1 = a ∨ c ∈ m
  | [], h => by
    by_cases hb : b = Memory.unlisted
    · simp [Memory.write, hb] at h
    · simp [Memory.write, hb] at h; exact Or.inl (by rw [h])
  | (k, d) :: m, h => by
    by_cases h1 : a < k
    · by_cases hb : b = Memory.unlisted
      · simp only [Memory.write, h1, hb, if_true] at h; exact Or.inr h
      · simp only [Memory.write, h1, hb, if_true, if_false, List.mem_cons] at h
        rcases h with h | h
        · exact Or.inl (by rw [h])
        · exact Or.inr (by simpa using h)
    · by_cases h2 : a = k
      · by_cases hb : b = Memory.unlisted
        · simp only [Memory.write, h2, Nat.lt_irrefl, hb, if_true, if_false] at h
          exact Or.inr (List.mem_cons_of_mem _ h)
        · simp only [Memory.write, h2, Nat.lt_irrefl, hb, if_true, if_false, List.mem_cons] at h
          rcases h with h | h
          · exact Or.inl (by rw [h, h2])
          · exact Or.inr (List.mem_cons_of_mem _ h)
      · simp only [Memory.write, h1, h2, if_false, List.mem_cons] at h
        rcases h with h | h
        · exact Or.inr (by simp [h])
        · rcases Memory.mem_write h with h | h
          · exact Or.inl h
          · exact Or.inr (List.mem_cons_of_mem _ h)

/-! What reading a range looks at: the parameters, the memory and the count of draws, no thread. -/

@[simp] theorem accessCheck_setCur (s : State) (t : Thread) (a n : Nat) :
    (s.setCur t).accessCheck a n = s.accessCheck a n := rfl
@[simp] theorem touches_setCur (s : State) (t : Thread) (k : RegionKind) (a n : Nat) :
    (s.setCur t).touches k a n = s.touches k a n := rfl
@[simp] theorem rangeOk_setCur (s : State) (t : Thread) (a n : Nat) : (s.setCur t).rangeOk a n = s.rangeOk a n := rfl
@[simp] theorem byteAt_setCur (s : State) (t : Thread) (n a : Nat) : (s.setCur t).byteAt n a = s.byteAt n a := rfl
@[simp] theorem valueAt_setCur (s : State) (t : Thread) (a n : Nat) : (s.setCur t).valueAt a n = s.valueAt a n := rfl
@[simp] theorem wordAt_setCur (s : State) (t : Thread) (a : Nat) : (s.setCur t).wordAt a = s.wordAt a := rfl

@[simp] theorem bytesAt_setCur (s : State) (t : Thread) (a n : Nat) : (s.setCur t).bytesAt a n = s.bytesAt a n := by
  induction n generalizing a with
  | zero => rfl
  | succ n ih => simp [State.bytesAt, ih]

@[simp] theorem sourceBytes_setCur (s : State) (t : Thread) (a n : Nat) :
    (s.setCur t).sourceBytes a n = s.sourceBytes a n := by
  induction n generalizing a with
  | zero => rfl
  | succ n ih => simp [State.sourceBytes, ih]

@[simp] theorem strEnd_setCur (s : State) (t : Thread) (left seen a : Nat) :
    (s.setCur t).strEnd left seen a = s.strEnd left seen a := by
  induction left generalizing seen a with
  | zero => rfl
  | succ n ih => simp [State.strEnd, ih]

@[simp] theorem strCmp_setCur (s : State) (t : Thread) (left seen x y : Nat) :
    (s.setCur t).strCmp left seen x y = s.strCmp left seen x y := by
  induction left generalizing seen x y with
  | zero => rfl
  | succ n ih => simp [State.strCmp, ih]

@[simp] theorem afterRead_setCur (s : State) (t : Thread) (a n : Nat) :
    (s.setCur t).afterRead a n = (s.afterRead a n).setCur t := by
  by_cases h : s.touches .peripheral a n = true <;> simp [State.afterRead, h]
  rfl

@[simp] theorem afterRead_cur (s : State) (a n : Nat) : (s.afterRead a n).cur = s.cur := by
  simp only [State.afterRead]; split <;> rfl
@[simp] theorem afterRead_cfg (s : State) (a n : Nat) : (s.afterRead a n).cfg = s.cfg := by
  simp only [State.afterRead]; split <;> rfl
@[simp] theorem afterRead_mem (s : State) (a n : Nat) : (s.afterRead a n).mem = s.mem := by
  simp only [State.afterRead]; split <;> rfl
@[simp] theorem afterRead_pxr (s : State) (a n : Nat) : (s.afterRead a n).pxr = s.pxr := by
  simp only [State.afterRead]; split <;> rfl
@[simp] theorem afterRead_thread (s : State) (a n : Nat) (k : BitVec 7) : (s.afterRead a n).thread k = s.thread k := by
  simp only [State.afterRead]; split <;> rfl

theorem afterRead_of_plain {s : State} {a n : Nat} (h : s.touches .peripheral a n = false) : s.afterRead a n = s := by
  simp [State.afterRead, h]

theorem afterRead_of_peripheral {s : State} {a n : Nat} (h : s.touches .peripheral a n = true) : s.afterRead a n =
    { s with platform := Config.platformRead s.platform s.draws a n, draws := s.draws + 1 } := by
  simp [State.afterRead, h]

/-! The value of bytes: it fits them, and its digits are the bytes, the lowest address lowest (R63). -/

theorem leValue_lt (f : Nat → Byte) (a n : Nat) : leValue f a n < 2 ^ (8 * n) := by
  induction n generalizing a with
  | zero => simp [leValue]
  | succ n ih =>
    have h := ih (a + 1)
    have hb := (f a).isLt
    rw [leValue, show 8 * (n + 1) = 8 + 8 * n by ring, pow_add]
    omega

theorem leValue_digit (f : Nat → Byte) {a n j : Nat} (h : j < n) : leValue f a n / 2 ^ (8 * j) % 2 ^ 8 = (f (a + j)).toNat := by
  induction n generalizing a j with
  | zero => omega
  | succ n ih =>
    have hb := (f a).isLt
    rw [leValue]
    cases j with
    | zero => simp; omega
    | succ j =>
      have hd : ((f a).toNat + 256 * leValue f (a + 1) n) / 2 ^ 8 = leValue f (a + 1) n := by omega
      rw [show 8 * (j + 1) = 8 + 8 * j by ring, pow_add, ← Nat.div_div_eq_div_mul, hd, ih (by omega),
        show a + 1 + j = a + (j + 1) by omega]

theorem leValue_congr {f g : Nat → Byte} {a n : Nat} (h : ∀ i < n, f (a + i) = g (a + i)) : leValue f a n = leValue g a n := by
  induction n generalizing a with
  | zero => rfl
  | succ n ih =>
    have h0 := h 0 (by omega)
    rw [leValue, leValue, ih fun i hi => by rw [show a + 1 + i = a + (i + 1) by omega]; exact h _ (by omega)]
    simp only [Nat.add_zero] at h0
    rw [h0]

/-- What a transfer brings where no peripheral answers is what memory holds. -/
theorem valueAt_of_plain {s : State} {a n : Nat} (h : ∀ i < n, s.cfg.kindAt (a + i) ≠ some .peripheral) :
    s.valueAt a n = leValue s.mem.read a n :=
  leValue_congr fun i hi => by simp [State.byteAt, h i hi]

/-! Whether some byte of a range has a property. -/

theorem anyByte_eq_true {p : Nat → Bool} {a n : Nat} : anyByte p a n = true ↔ ∃ i, i < n ∧ p (a + i) = true := by
  induction n generalizing a with
  | zero => simp [anyByte]
  | succ n ih =>
    simp only [anyByte, Bool.or_eq_true, ih]
    constructor
    · rintro (h | ⟨i, hi, h⟩)
      · exact ⟨0, by omega, by simpa using h⟩
      · exact ⟨i + 1, by omega, by rw [← h]; congr 1; omega⟩
    · rintro ⟨i, hi, h⟩
      cases i with
      | zero => exact Or.inl (by simpa using h)
      | succ i => exact Or.inr ⟨i, by omega, by rw [← h]; congr 1; omega⟩

theorem anyByte_eq_false {p : Nat → Bool} {a n : Nat} : anyByte p a n = false ↔ ∀ i, i < n → p (a + i) = false := by
  rw [← Bool.not_eq_true, anyByte_eq_true]
  simp

/-! Storing bytes. -/

@[simp] theorem storeByte_cfg (s : State) (a : Nat) (b : Byte) : (s.storeByte a b).cfg = s.cfg := by
  simp only [State.storeByte]; split <;> rfl
@[simp] theorem storeByte_thr (s : State) (a : Nat) (b : Byte) : (s.storeByte a b).thr = s.thr := by
  simp only [State.storeByte]; split <;> rfl
@[simp] theorem storeByte_pxr (s : State) (a : Nat) (b : Byte) : (s.storeByte a b).pxr = s.pxr := by
  simp only [State.storeByte]; split <;> rfl
@[simp] theorem storeByte_dlyc (s : State) (a : Nat) (b : Byte) : (s.storeByte a b).dlyc = s.dlyc := by
  simp only [State.storeByte]; split <;> rfl
@[simp] theorem storeByte_draws (s : State) (a : Nat) (b : Byte) : (s.storeByte a b).draws = s.draws := by
  simp only [State.storeByte]; split <;> rfl
@[simp] theorem storeByte_platform (s : State) (a : Nat) (b : Byte) : (s.storeByte a b).platform = s.platform := by
  simp only [State.storeByte]; split <;> rfl

@[simp] theorem storeByte_setCur (s : State) (t : Thread) (a : Nat) (b : Byte) :
    (s.setCur t).storeByte a b = (s.storeByte a b).setCur t := by
  by_cases h : s.cfg.kindAt a = some .peripheral
  all_goals
    simp [State.storeByte, h]
  rfl

theorem storeByte_wf {s : State} (a : Nat) (b : Byte) (h : s.mem.wf = true) : (s.storeByte a b).mem.wf = true := by
  simp only [State.storeByte]; split
  · exact h
  · exact Memory.write_wf a b h

theorem storeByte_read_of_ne (s : State) {a a' : Nat} (b : Byte) (h : a' ≠ a) :
    (s.storeByte a b).mem.read a' = s.mem.read a' := by
  simp only [State.storeByte]; split
  · rfl
  · exact Memory.read_write_of_ne b h s.mem

theorem storeByte_read_self {s : State} {a : Nat} (b : Byte) (h : s.mem.wf = true)
    (hp : s.cfg.kindAt a ≠ some .peripheral) : (s.storeByte a b).mem.read a = b := by
  simp only [State.storeByte, if_neg hp]
  exact Memory.read_write_self a b h

@[simp] theorem storeBytes_cfg (s : State) (a : Nat) (bs : List Byte) : (s.storeBytes a bs).cfg = s.cfg := by
  induction bs generalizing s a with
  | nil => rfl
  | cons b bs ih => simp [State.storeBytes, ih]
@[simp] theorem storeBytes_thr (s : State) (a : Nat) (bs : List Byte) : (s.storeBytes a bs).thr = s.thr := by
  induction bs generalizing s a with
  | nil => rfl
  | cons b bs ih => simp [State.storeBytes, ih]
@[simp] theorem storeBytes_pxr (s : State) (a : Nat) (bs : List Byte) : (s.storeBytes a bs).pxr = s.pxr := by
  induction bs generalizing s a with
  | nil => rfl
  | cons b bs ih => simp [State.storeBytes, ih]
@[simp] theorem storeBytes_dlyc (s : State) (a : Nat) (bs : List Byte) : (s.storeBytes a bs).dlyc = s.dlyc := by
  induction bs generalizing s a with
  | nil => rfl
  | cons b bs ih => simp [State.storeBytes, ih]
@[simp] theorem storeBytes_draws (s : State) (a : Nat) (bs : List Byte) : (s.storeBytes a bs).draws = s.draws := by
  induction bs generalizing s a with
  | nil => rfl
  | cons b bs ih => simp [State.storeBytes, ih]

@[simp] theorem storeBytes_thread (s : State) (a : Nat) (bs : List Byte) (k : BitVec 7) :
    (s.storeBytes a bs).thread k = s.thread k := by
  simp [State.thread]

@[simp] theorem storeBytes_cur (s : State) (a : Nat) (bs : List Byte) : (s.storeBytes a bs).cur = s.cur := by
  simp [State.cur]

@[simp] theorem storeBytes_setCur (s : State) (t : Thread) (a : Nat) (bs : List Byte) :
    (s.setCur t).storeBytes a bs = (s.storeBytes a bs).setCur t := by
  induction bs generalizing s a with
  | nil => rfl
  | cons b bs ih => simp [State.storeBytes, ih]

@[simp] theorem storeBytes_platform (s : State) (a : Nat) (bs : List Byte) : (s.storeBytes a bs).platform = s.platform := by
  induction bs generalizing s a with
  | nil => rfl
  | cons b bs ih => simp [State.storeBytes, ih]

theorem storeBytes_wf {s : State} (a : Nat) (bs : List Byte) (h : s.mem.wf = true) :
    (s.storeBytes a bs).mem.wf = true := by
  induction bs generalizing s a with
  | nil => exact h
  | cons b bs ih => exact ih (a + 1) (storeByte_wf a b h)

/-- Every byte outside the stored range is left alone. -/
theorem storeBytes_read_outside (s : State) {a a' : Nat} (bs : List Byte) (h : a' < a ∨ a + bs.length ≤ a') :
    (s.storeBytes a bs).mem.read a' = s.mem.read a' := by
  induction bs generalizing s a with
  | nil => rfl
  | cons b bs ih =>
    simp only [List.length_cons] at h
    rw [State.storeBytes, ih (s.storeByte a b) (by omega), storeByte_read_of_ne s b (by omega)]

/-- The bytes of the stored range are the ones stored, where no peripheral location stands. -/
theorem storeBytes_read_inside {s : State} {a : Nat} {bs : List Byte} (h : s.mem.wf = true)
    (hp : ∀ i < bs.length, s.cfg.kindAt (a + i) ≠ some .peripheral) {i : Nat} (hi : i < bs.length) :
    (s.storeBytes a bs).mem.read (a + i) = bs[i] := by
  induction bs generalizing s a i with
  | nil => simp at hi
  | cons b bs ih =>
    cases i with
    | zero =>
      rw [State.storeBytes, storeBytes_read_outside _ _ (by omega)]
      exact storeByte_read_self b h (hp 0 (by simp))
    | succ i =>
      have hi' : i < bs.length := by simpa using hi
      have := ih (s := s.storeByte a b) (a := a + 1) (storeByte_wf a b h)
        (fun j hj => by
          rw [storeByte_cfg, show a + 1 + j = a + (j + 1) by omega]
          exact hp (j + 1) (by simpa using hj)) hi'
      rw [State.storeBytes, show a + (i + 1) = a + 1 + i by omega, this]
      simp

/-- What a byte of the stored range holds after a store: where a peripheral stands, what it held. -/
theorem storeBytes_read {s : State} {a : Nat} {bs : List Byte} (h : s.mem.wf = true) {i : Nat} (hi : i < bs.length) :
    (s.storeBytes a bs).mem.read (a + i) =
      if s.cfg.kindAt (a + i) = some .peripheral then s.mem.read (a + i) else bs[i] := by
  induction bs generalizing s a i with
  | nil => simp at hi
  | cons b bs ih =>
    rw [State.storeBytes]
    cases i with
    | zero =>
      rw [storeBytes_read_outside _ _ (by omega)]
      by_cases hk : s.cfg.kindAt a = some .peripheral
      · simp [State.storeByte, hk]
      · simpa [hk] using storeByte_read_self b h hk
    | succ i =>
      have := ih (s := s.storeByte a b) (a := a + 1) (storeByte_wf a b h) (i := i) (by simpa using hi)
      rw [show a + (i + 1) = a + 1 + i by omega, this, storeByte_cfg, storeByte_read_of_ne _ _ (by omega)]
      rfl

/-- A store to peripheral locations alone leaves memory as it was. -/
theorem storeBytes_mem_of_peripheral {s : State} {a : Nat} {bs : List Byte}
    (h : ∀ i < bs.length, s.cfg.kindAt (a + i) = some .peripheral) : (s.storeBytes a bs).mem = s.mem := by
  induction bs generalizing s a with
  | nil => rfl
  | cons b bs ih =>
    have h0 : s.cfg.kindAt a = some .peripheral := by simpa using h 0 (by simp)
    rw [State.storeBytes, ih fun i hi => ?_]
    · simp [State.storeByte, h0]
    · rw [storeByte_cfg, show a + 1 + i = a + (i + 1) by omega]
      exact h _ (by simpa using hi)

/-- Storing changes memory alone. -/
theorem storeBytes_eq (s : State) (a : Nat) (bs : List Byte) : s.storeBytes a bs = { s with mem := (s.storeBytes a bs).mem } := by
  have h1 := storeBytes_cfg s a bs
  have h2 := storeBytes_thr s a bs
  have h3 := storeBytes_pxr s a bs
  have h4 := storeBytes_dlyc s a bs
  have h5 := storeBytes_platform s a bs
  have h6 := storeBytes_draws s a bs
  revert h1 h2 h3 h4 h5 h6
  generalize s.storeBytes a bs = u
  cases s; cases u; rintro ⟨⟩ ⟨⟩ ⟨⟩ ⟨⟩ ⟨⟩ ⟨⟩; rfl

/-! A bus transfer that writes: what memory takes, and what the platform does. -/

@[simp] theorem afterWrite_cfg (s : State) (a : Nat) (bs : List Byte) : (s.afterWrite a bs).cfg = s.cfg := by
  simp only [State.afterWrite]; split <;> rfl
@[simp] theorem afterWrite_mem (s : State) (a : Nat) (bs : List Byte) : (s.afterWrite a bs).mem = s.mem := by
  simp only [State.afterWrite]; split <;> rfl
@[simp] theorem afterWrite_draws (s : State) (a : Nat) (bs : List Byte) : (s.afterWrite a bs).draws = s.draws := by
  simp only [State.afterWrite]; split <;> rfl

@[simp] theorem afterWrite_setCur (s : State) (t : Thread) (a : Nat) (bs : List Byte) :
    (s.setCur t).afterWrite a bs = (s.afterWrite a bs).setCur t := by
  by_cases h : s.touches .peripheral a bs.length = true <;> simp [State.afterWrite, h]
  rfl

/-- A write changes the platform's own state alone. -/
theorem afterWrite_eq (s : State) (a : Nat) (bs : List Byte) :
    s.afterWrite a bs = { s with platform := (s.afterWrite a bs).platform } := by
  simp only [State.afterWrite]; split <;> rfl

theorem afterWrite_of_plain {s : State} {a : Nat} {bs : List Byte} (h : s.touches .peripheral a bs.length = false) :
    s.afterWrite a bs = s := by
  simp [State.afterWrite, h]

theorem afterWrite_of_peripheral {s : State} {a : Nat} {bs : List Byte} (h : s.touches .peripheral a bs.length = true) :
    s.afterWrite a bs = { s with platform := Config.platformWrite s.platform s.draws a bs } := by
  simp [State.afterWrite, h]

/-- How the platform moves depends on its own state, the parameters and the count of draws alone. -/
theorem afterWrite_platform_congr {s t : State} (hc : t.cfg = s.cfg) (hp : t.platform = s.platform) (hd : t.draws = s.draws)
    (a : Nat) (bs : List Byte) : (t.afterWrite a bs).platform = (s.afterWrite a bs).platform := by
  by_cases h : s.touches .peripheral a bs.length = true
  · rw [afterWrite_of_peripheral h, afterWrite_of_peripheral (by simpa [State.touches, hc] using h)]
    simp [hp, hd]
  · rw [Bool.not_eq_true] at h
    rw [afterWrite_of_plain h, afterWrite_of_plain (by simpa [State.touches, hc] using h), hp]

theorem transfer_of_plain {s : State} {a : Nat} {bs : List Byte} (h : s.touches .peripheral a bs.length = false) :
    s.transfer a bs = s.storeBytes a bs :=
  afterWrite_of_plain (by simpa [State.touches] using h)

theorem storeBytes_append (s : State) (a : Nat) (xs ys : List Byte) :
    s.storeBytes a (xs ++ ys) = (s.storeBytes a xs).storeBytes (a + xs.length) ys := by
  induction xs generalizing s a with
  | nil => rfl
  | cons x xs ih => simp only [List.cons_append, State.storeBytes, ih, List.length_cons]; congr 1; omega

/-- What memory takes does not depend on how the platform has moved. -/
theorem storeBytes_afterWrite (s : State) (a b : Nat) (xs ys : List Byte) :
    (s.afterWrite a xs).storeBytes b ys = (s.storeBytes b ys).afterWrite a xs := by
  have h (p : Nat) (s : State) : State.storeBytes { s with platform := p } b ys = { s.storeBytes b ys with platform := p } := by
    induction ys generalizing s b with
    | nil => rfl
    | cons y ys ih =>
      rw [State.storeBytes, State.storeBytes, ← ih]
      congr 1
      by_cases hk : s.cfg.kindAt b = some .peripheral <;> simp [State.storeByte, hk]
  by_cases hp : s.touches .peripheral a xs.length = true
  · rw [afterWrite_of_peripheral hp, afterWrite_of_peripheral (by simpa [State.touches] using hp), h]
    simp
  · rw [Bool.not_eq_true] at hp
    rw [afterWrite_of_plain hp, afterWrite_of_plain (by simpa [State.touches] using hp)]

/-- Two transfers put their bytes into memory one after the other, and move the platform on twice. -/
theorem transfer_transfer (s : State) (a : Nat) (xs ys : List Byte) : (s.transfer a xs).transfer (a + xs.length) ys =
    ((s.storeBytes a (xs ++ ys)).afterWrite a xs).afterWrite (a + xs.length) ys := by
  simp only [State.transfer, storeBytes_afterWrite, storeBytes_append]

/-- A 32-bit write is two transfers, the low word first (R75). -/
theorem transfer_take_drop (s : State) (a : Nat) {bs : List Byte} (h : bs.length = 4) :
    (s.transfer a (bs.take 2)).transfer (a + 2) (bs.drop 2) =
      ((s.storeBytes a bs).afterWrite a (bs.take 2)).afterWrite (a + 2) (bs.drop 2) := by
  simpa [h] using transfer_transfer s a (bs.take 2) (bs.drop 2)

@[simp] theorem leBytes_length (v n : Nat) : (leBytes v n).length = n := by
  induction n generalizing v with
  | zero => rfl
  | succ n ih => simp [leBytes, ih]

theorem leBytes_getElem (v n i : Nat) (h : i < (leBytes v n).length) : (leBytes v n)[i] = BitVec.ofNat 8 (v / 2 ^ (8 * i)) := by
  induction n generalizing v i with
  | zero => simp at h
  | succ n ih =>
    cases i with
    | zero => simp [leBytes]
    | succ i =>
      simp only [leBytes, List.getElem_cons_succ]
      rw [ih, Nat.div_div_eq_div_mul, show 8 * (i + 1) = 8 + 8 * i by ring, pow_add]
      norm_num

/-! Storing some bytes of a range. -/

@[simp] theorem storeSome_cfg (s : State) (a : Nat) (bs : List (Option Byte)) : (s.storeSome a bs).cfg = s.cfg := by
  induction bs generalizing s a with
  | nil => rfl
  | cons b bs ih =>
    cases b with
    | none => exact ih s (a + 1)
    | some b => rw [State.storeSome, ih]; split <;> simp

@[simp] theorem storeSome_thr (s : State) (a : Nat) (bs : List (Option Byte)) : (s.storeSome a bs).thr = s.thr := by
  induction bs generalizing s a with
  | nil => rfl
  | cons b bs ih =>
    cases b with
    | none => exact ih s (a + 1)
    | some b => rw [State.storeSome, ih]; split <;> simp

@[simp] theorem storeSome_pxr (s : State) (a : Nat) (bs : List (Option Byte)) : (s.storeSome a bs).pxr = s.pxr := by
  induction bs generalizing s a with
  | nil => rfl
  | cons b bs ih =>
    cases b with
    | none => exact ih s (a + 1)
    | some b => rw [State.storeSome, ih]; split <;> simp

@[simp] theorem storeSome_draws (s : State) (a : Nat) (bs : List (Option Byte)) :
    (s.storeSome a bs).draws = s.draws := by
  induction bs generalizing s a with
  | nil => rfl
  | cons b bs ih =>
    cases b with
    | none => exact ih s (a + 1)
    | some b => rw [State.storeSome, ih]; split <;> simp

@[simp] theorem storeSome_setCur (s : State) (t : Thread) (a : Nat) (bs : List (Option Byte)) :
    (s.setCur t).storeSome a bs = (s.storeSome a bs).setCur t := by
  induction bs generalizing s a with
  | nil => rfl
  | cons b bs ih =>
    cases b with
    | none => exact ih s (a + 1)
    | some b =>
      simp only [State.storeSome, setCur_cfg, setCur_draws, storeByte_setCur]
      split <;> rw [ih]

theorem storeSome_wf {s : State} (a : Nat) (bs : List (Option Byte)) (h : s.mem.wf = true) :
    (s.storeSome a bs).mem.wf = true := by
  induction bs generalizing s a with
  | nil => exact h
  | cons b bs ih =>
    cases b with
    | none => exact ih (a + 1) h
    | some b =>
      rw [State.storeSome]
      split
      · exact ih (a + 1) (storeByte_wf a b h)
      · exact ih (a + 1) h

theorem storeSome_read_outside (s : State) {a a' : Nat} (bs : List (Option Byte))
    (h : a' < a ∨ a + bs.length ≤ a') : (s.storeSome a bs).mem.read a' = s.mem.read a' := by
  induction bs generalizing s a with
  | nil => rfl
  | cons b bs ih =>
    simp only [List.length_cons] at h
    cases b with
    | none => rw [State.storeSome, ih s (by omega)]
    | some b =>
      rw [State.storeSome]
      split
      · rw [ih _ (by omega), storeByte_read_of_ne s b (by omega)]
      · rw [ih s (by omega)]

/-- Each byte of the range is the old one or the one meant for it. -/
theorem storeSome_read_inside {s : State} {a : Nat} {bs : List (Option Byte)} (h : s.mem.wf = true) {i : Nat}
    (hi : i < bs.length) : (s.storeSome a bs).mem.read (a + i) = s.mem.read (a + i) ∨
      some ((s.storeSome a bs).mem.read (a + i)) = bs[i] := by
  induction bs generalizing s a i with
  | nil => simp at hi
  | cons b bs ih =>
    cases i with
    | zero =>
      cases b with
      | none => left; rw [State.storeSome, storeSome_read_outside _ _ (by omega)]
      | some b =>
        rw [State.storeSome, storeSome_read_outside _ _ (by omega)]
        split
        · by_cases hp : s.cfg.kindAt a = some .peripheral
          · left; simp [State.storeByte, hp]
          · right
            simpa using storeByte_read_self b h hp
        · left; rfl
    | succ i =>
      have hi' : i < bs.length := by simpa using hi
      have e : a + (i + 1) = a + 1 + i := by omega
      cases b with
      | none => simpa [State.storeSome, e] using ih (a := a + 1) h hi'
      | some b =>
        rw [State.storeSome, e]
        split
        · have := ih (s := s.storeByte a b) (a := a + 1) (storeByte_wf a b h) hi'
          rw [storeByte_read_of_ne s b (by omega)] at this
          simpa using this
        · simpa using ih (a := a + 1) h hi'

end Sys2Proof.Machine
end

