-- ==== Sys2Proof/Laws/Operands.lean ====
section
/-!
SUPPORT. What the shared operations can do, said once each: the equations that hold where nothing stops them, and the rule by which a
property of every next state passes through them.
-/
namespace Sys2Proof.Machine

/-! ## Outcomes -/

@[simp] theorem always_next (P : State → Prop) (t : State) : Always P (.next t) ↔ P t := Iff.rfl
@[simp] theorem always_refused (P : State → Prop) (r : Refusal) : Always P (.refused r) ↔ True := Iff.rfl
@[simp] theorem always_fault (P : State → Prop) (r : Fault) : Always P (.fault r) ↔ False := Iff.rfl

theorem always_of_next {P : State → Prop} {o : Out} {t : State} (h : Always P o) (e : o = .next t) : P t := by
  subst e; exact h

theorem always_not_fault {P : State → Prop} {o : Out} (h : Always P o) (r : Fault) : o ≠ .fault r := by
  rintro rfl; exact h

theorem always_raise (P : State → Prop) (c : Condition) (s : State) :
    Always P (raise c s) ↔ P (s.restart c s.here.toNat) := by
  simp [raise]

theorem always_ite {P : State → Prop} {c : Prop} [Decidable c] {x y : Out} (hx : c → Always P x) (hy : ¬c → Always P y) :
    Always P (if c then x else y) := by
  split
  · next h => exact hx h
  · next h => exact hy h

/-! ## pop and push (R6) -/

theorem pop_nil {s : State} {k : W56 → State → Out} (h : s.cur.stack = []) : pop s k = raise .stackUnderflow s := by
  simp [pop, h]

theorem pop_cons {s : State} {x : W56} {xs : List W56} {k : W56 → State → Out} (h : s.cur.stack = x :: xs) :
    pop s k = k x (s.withStack xs) := by
  simp [pop, h]

theorem push_room {v : W56} {s : State} {k : State → Out} (h : s.cur.stack.length < s.cfg.dstackSize) :
    push v s k = k (s.withStack (v :: s.cur.stack)) := by
  simp [push, h]

theorem push_full {v : W56} {s : State} {k : State → Out} (h : s.cfg.dstackSize ≤ s.cur.stack.length) :
    push v s k = raise .stackOverflow s := by
  simp [push, Nat.not_lt.2 h]

theorem always_pop {P : State → Prop} {s : State} {k : W56 → State → Out} (hr : P (s.restart .stackUnderflow s.here.toNat))
    (hk : ∀ x xs, s.cur.stack = x :: xs → Always P (k x (s.withStack xs))) : Always P (pop s k) := by
  match h : s.cur.stack with
  | [] => rw [pop_nil h]; exact (always_raise _ _ _).2 hr
  | x :: xs => rw [pop_cons h]; exact hk x xs h

theorem always_push {P : State → Prop} {v : W56} {s : State} {k : State → Out}
    (hr : P (s.restart .stackOverflow s.here.toNat))
    (hk : s.cur.stack.length < s.cfg.dstackSize → Always P (k (s.withStack (v :: s.cur.stack)))) :
    Always P (push v s k) := by
  rcases Nat.lt_or_ge s.cur.stack.length s.cfg.dstackSize with h | h
  · rw [push_room h]; exact hk h
  · rw [push_full h]; exact (always_raise _ _ _).2 hr

theorem unary_eq {f : W56 → W56} {s : State} {x : W56} {xs : List W56} (h : s.cur.stack = x :: xs)
    (hd : s.cur.stack.length ≤ s.cfg.dstackSize) :
    unary f s = .next (s.setCur { s.cur with stack := f x :: xs }) := by
  have hl : xs.length < s.cfg.dstackSize := by rw [h] at hd; simpa using hd
  rw [unary, pop_cons h, push_room (by simpa using hl)]
  simp

theorem binary_eq {f : W56 → W56 → W56} {s : State} {x y : W56} {xs : List W56} (h : s.cur.stack = y :: x :: xs)
    (hd : s.cur.stack.length ≤ s.cfg.dstackSize) :
    binary f s = .next (s.setCur { s.cur with stack := f x y :: xs }) := by
  have hl : xs.length < s.cfg.dstackSize := by
    rw [h] at hd; simp only [List.length_cons] at hd; omega
  rw [binary, pop_cons h, pop_cons (x := x) (xs := xs) (by simp), push_room (by simpa using hl)]
  simp

/-! ## The stack effect of a system function (R302) -/

theorem popMany_take {k : State → Out} : ∀ (xs ys : List W56) {s : State}, s.cur.stack = xs ++ ys →
    popMany xs.length s k = k (s.setCur { s.cur with stack := ys })
  | [], ys, s, h => by
    rw [List.nil_append] at h
    subst h
    exact congrArg k (setCur_cur s).symm
  | x :: xs, ys, s, h => by
    rw [List.length_cons, popMany, pop_cons h, popMany_take xs ys (by simp)]
    simp

theorem popMany_short {k : State → Out} : ∀ (n : Nat) {s : State}, s.cur.stack.length < n →
    popMany n s k = .next (s.restart .stackUnderflow s.here.toNat)
  | 0, _, h => by omega
  | n + 1, s, h => by
    match hs : s.cur.stack with
    | [] => rw [popMany, pop_nil hs]; rfl
    | x :: xs =>
      rw [popMany, pop_cons hs, popMany_short n (by rw [hs] at h; simpa using h)]
      simp [State.here]

theorem pushMany_room {k : State → Out} : ∀ (vs : List W56) {s : State}, s.cur.stack.length + vs.length ≤ s.cfg.dstackSize →
    pushMany vs s k = k (s.setCur { s.cur with stack := vs.reverse ++ s.cur.stack })
  | [], s, _ => congrArg k (setCur_cur s).symm
  | v :: vs, s, h => by
    simp only [List.length_cons] at h
    rw [pushMany, push_room (by omega), pushMany_room vs (by simp; omega)]
    simp

theorem pushMany_full {k : State → Out} : ∀ (vs : List W56) {s : State}, vs ≠ [] →
    s.cfg.dstackSize < s.cur.stack.length + vs.length → pushMany vs s k = .next (s.restart .stackOverflow s.here.toNat)
  | [], _, hn, _ => absurd rfl hn
  | v :: vs, s, _, h => by
    simp only [List.length_cons] at h
    rcases Nat.lt_or_ge s.cur.stack.length s.cfg.dstackSize with hl | hl
    · rw [pushMany, push_room hl, pushMany_full vs (by rintro rfl; simp at h; omega) (by simp; omega)]
      simp [State.here]
    · rw [pushMany, push_full hl]
      rfl

/-! ## Jumps and the control stack -/

theorem jump_inside {s : State} {a : Nat} (h : a < 2 ^ 28) : jump s a = .next (s.withPc (BitVec.ofNat 28 a)) := by
  simp only [jump, if_pos h]

theorem jump_outside {s : State} {a : Nat} (h : 2 ^ 28 ≤ a) : jump s a = .refused .topOfMemory := by
  simp only [jump, if_neg (Nat.not_lt.2 h)]

theorem always_jump {P : State → Prop} {s : State} {a : Nat}
    (h : a < 2 ^ 28 → P (s.withPc (BitVec.ofNat 28 a))) : Always P (jump s a) := by
  rcases Nat.lt_or_ge a (2 ^ 28) with ha | ha
  · rw [jump_inside ha]; exact (always_next _ _).2 (h ha)
  · rw [jump_outside ha]; simp

theorem pushCall_room {s : State} {e : CtlEntry} {k : State → Out} (h : callCount s.cur.ctl < s.cfg.cstackSize) :
    pushCall s e k = k (s.withCtl (e :: s.cur.ctl)) := by
  simp [pushCall, h]

theorem pushCall_full {s : State} {e : CtlEntry} {k : State → Out} (h : s.cfg.cstackSize ≤ callCount s.cur.ctl) :
    pushCall s e k = raise .callOverflow s := by
  simp [pushCall, Nat.not_lt.2 h]

theorem always_pushCall {P : State → Prop} {s : State} {e : CtlEntry} {k : State → Out}
    (hr : P (s.restart .callOverflow s.here.toNat))
    (hk : callCount s.cur.ctl < s.cfg.cstackSize → Always P (k (s.withCtl (e :: s.cur.ctl)))) :
    Always P (pushCall s e k) := by
  rcases Nat.lt_or_ge (callCount s.cur.ctl) s.cfg.cstackSize with h | h
  · rw [pushCall_room h]; exact hk h
  · rw [pushCall_full h]; exact (always_raise _ _ _).2 hr

theorem always_pushIf {P : State → Prop} {s : State} {k : State → Out}
    (hk : ifCount s.cur.ctl < s.cfg.nestMax → Always P (k (s.withCtl (.ifE :: s.cur.ctl)))) : Always P (pushIf s k) := by
  unfold pushIf
  exact always_ite hk (by simp)

/-- `NW(a)` is the word address above `a`, counted by twos. -/
theorem nextWord_eq (a : Nat) : nextWord a = 2 * (a / 2) + 2 := by
  have h : a ||| 1 = 2 * (a / 2) + 1 := by
    rcases Nat.mod_two_eq_zero_or_one a with h | h
    · obtain ⟨b, rfl⟩ : ∃ b, a = 2 * b := ⟨a / 2, by omega⟩
      rw [Nat.mul_div_cancel_left b (by norm_num)]
      exact (Nat.two_pow_add_eq_or_of_lt (i := 1) (b := 1) (by norm_num) b).symm ▸ by simp
    · obtain ⟨b, rfl⟩ : ∃ b, a = 2 * b + 1 := ⟨a / 2, by omega⟩
      have hb : (2 * b + 1) / 2 = b := by omega
      rw [hb]
      have := (Nat.two_pow_add_eq_or_of_lt (i := 1) (b := 1) (by norm_num) b)
      simp only [pow_one] at this
      rw [this, Nat.lor_assoc]
      simp
  rw [nextWord, h]

theorem nextWord_even (a : Nat) : nextWord a % 2 = 0 := by
  rw [nextWord_eq]; omega

theorem nextWord_le {a : Nat} (h : a < 2 ^ 28) : nextWord a ≤ 2 ^ 28 := by
  rw [nextWord_eq]; omega

/-! ## Memory accesses (R64, R65) -/

theorem always_memRead {P : State → Prop} {s : State} {a n : Nat} {k : Nat → State → Out}
    (hr : ∀ c, P (s.restart c s.here.toNat))
    (hk : ∀ v, Always P (k v (s.afterRead a n)) ∧ Always P (k v ((s.afterRead a 2).afterRead (a + 2) 2))) :
    Always P (memRead s a n k) := by
  unfold memRead
  split
  · exact (always_raise _ _ _).2 (hr _)
  · exact always_ite (fun _ => (hk _).2) fun _ => (hk _).1

theorem always_memWrite {P : State → Prop} {s : State} {a : Nat} {bytes : List Byte} {k : State → Out}
    (hr : ∀ c, P (s.restart c s.here.toNat))
    (hk : s.accessCheck a bytes.length = none → (bytes.length = 1 → s.touches .peripheral a 1 = false) →
      Always P (k (s.transfer a bytes)) ∧
        (bytes.length = 4 → Always P (k ((s.transfer a (bytes.take 2)).transfer (a + 2) (bytes.drop 2))))) :
    Always P (memWrite s a bytes k) := by
  unfold memWrite
  match h : s.accessCheck a bytes.length with
  | some c => exact (always_raise _ _ _).2 (hr c)
  | none =>
    refine always_ite (fun _ => by simp) fun _ => always_ite (fun _ => by simp) fun h1 =>
      always_ite (fun _ => by simp) fun _ => ?_
    have hk' := hk h fun e => by simpa [e] using h1
    exact always_ite hk'.2 fun _ => hk'.1

theorem accessCheck_none {s : State} {a n : Nat} : s.accessCheck a n = none ↔
    a + n ≤ 2 ^ 28 ∧ (n ≤ 1 ∨ a % 2 = 0) ∧ ∀ i < n, s.cfg.valid (a + i) = true := by
  unfold State.accessCheck
  by_cases h1 : 2 ^ 28 < a + n
  · rw [if_pos h1]; constructor
    · intro h; cases h
    · intro h; omega
  · rw [if_neg h1]
    by_cases h2 : 1 < n ∧ a % 2 = 1
    · rw [if_pos h2]; constructor
      · intro h; cases h
      · intro h; omega
    · rw [if_neg h2]
      by_cases h3 : anyByte (fun b => !s.cfg.valid b) a n = true
      · rw [if_pos h3]; constructor
        · intro h; cases h
        · intro h
          obtain ⟨i, hi, hv⟩ := anyByte_eq_true.1 h3
          rw [h.2.2 i hi] at hv; cases hv
      · rw [if_neg h3]
        have h4 := anyByte_eq_false.1 (Bool.not_eq_true _ ▸ h3)
        refine ⟨fun _ => ⟨by omega, by omega, fun i hi => by simpa using h4 i hi⟩, fun _ => rfl⟩

theorem plain_valid {s : State} {a n : Nat} (h : s.Plain a n) : ∀ i < n, s.cfg.valid (a + i) = true := by
  intro i hi
  rcases h i hi with h | h <;> simp [Params.valid, h]

/-- Plain memory is no peripheral. -/
theorem plain_touches {s : State} {a n : Nat} (h : s.Plain a n) : s.touches .peripheral a n = false := by
  refine anyByte_eq_false.2 fun i hi => ?_
  rcases h i hi with h | h <;> simp [h]

/-- RAM is plain memory. -/
theorem ram_plain {s : State} {a n : Nat} (h : s.Ram a n) : s.Plain a n :=
  fun i hi => Or.inl (h i hi)

/-- RAM is not read-only. -/
theorem ram_touches {s : State} {a n : Nat} (h : s.Ram a n) : s.touches .rom a n = false := by
  refine anyByte_eq_false.2 fun i hi => ?_
  simp [h i hi]

theorem plain_rangeOk {s : State} {a n : Nat} (h : s.Plain a n) (hr : a + n ≤ 2 ^ 28) : s.rangeOk a n = true := by
  have : anyByte (fun b => !s.cfg.valid b) a n = false :=
    anyByte_eq_false.2 fun i hi => by simp [plain_valid h i hi]
  simp only [State.rangeOk, this, Bool.not_false, Bool.and_true, decide_eq_true_eq]
  exact hr

/-- A read of plain memory answers the bytes there and changes nothing. -/
theorem memRead_plain {s : State} {a n : Nat} {k : Nat → State → Out} (h : s.Plain a n) (hr : a + n ≤ 2 ^ 28)
    (ha : n ≤ 1 ∨ a % 2 = 0) : memRead s a n k = k (s.valueAt a n) s := by
  have hc : s.accessCheck a n = none := accessCheck_none.2 ⟨hr, ha, plain_valid h⟩
  have hp : ∀ i < n, s.cfg.kindAt (a + i) ≠ some .peripheral := fun i hi => by rcases h i hi with h | h <;> simp [h]
  by_cases hn : n = 4
  · subst hn
    have h1 : s.afterRead a 2 = s := afterRead_of_plain (plain_touches fun i hi => h i (by omega))
    have h2 : s.afterRead (a + 2) 2 = s :=
      afterRead_of_plain (plain_touches fun i hi => by rw [Nat.add_assoc]; exact h (2 + i) (by omega))
    have hv : s.valueAt a 2 + 2 ^ 16 * s.valueAt (a + 2) 2 = s.valueAt a 4 := by
      rw [valueAt_of_plain (n := 2) fun i hi => hp i (by omega), valueAt_of_plain (n := 4) hp,
        valueAt_of_plain (n := 2) fun i hi => by rw [Nat.add_assoc]; exact hp (2 + i) (by omega)]
      simp only [leValue]
      ring
    simp only [memRead, hc, if_true, h1, h2, hv]
  · simp only [memRead, hc, if_neg hn, afterRead_of_plain (plain_touches h)]

/-- A store that passes its checks is one transfer, or two for 32 bits (R65, R75). -/
theorem memWrite_checked {s : State} {a : Nat} {bs : List Byte} {k : State → Out} (hc : s.accessCheck a bs.length = none)
    (hr : s.touches .rom a bs.length = false) (hp : bs.length = 1 → s.touches .peripheral a 1 = false)
    (ho : s.hitsOwnWord a bs.length = false) : memWrite s a bs k =
      if bs.length = 4 then k (((s.storeBytes a bs).afterWrite a (bs.take 2)).afterWrite (a + 2) (bs.drop 2))
      else k ((s.storeBytes a bs).afterWrite a bs) := by
  have h2 : ¬(bs.length = 1 ∧ s.touches .peripheral a 1 = true) := fun h => by simp [hp h.1] at h
  simp only [memWrite, hc, hr, Bool.false_eq_true, if_false, if_neg h2, ho]
  split
  · next h4 => rw [transfer_take_drop s a h4]
  · rfl

/-- A store to RAM outside the executing word stores its bytes and changes nothing else. -/
theorem memWrite_ram {s : State} {a : Nat} {bs : List Byte} {k : State → Out} (h : s.Ram a bs.length)
    (hr : a + bs.length ≤ 2 ^ 28) (ha : bs.length ≤ 1 ∨ a % 2 = 0) (ho : s.hitsOwnWord a bs.length = false) :
    memWrite s a bs k = k (s.storeBytes a bs) := by
  have hw (i n : Nat) (hi : i + n ≤ bs.length) (t : State) (ht : t.cfg = s.cfg) : t.touches .peripheral (a + i) n = false :=
    plain_touches fun j hj => Or.inl (by rw [ht, Nat.add_assoc]; exact h (i + j) (by omega))
  rw [memWrite_checked (accessCheck_none.2 ⟨hr, ha, plain_valid (ram_plain h)⟩) (ram_touches h)
    (fun h1 => hw 0 1 (by omega) s rfl) ho]
  split
  · next h4 =>
    rw [afterWrite_of_plain (s := State.afterWrite _ _ _) (by simpa [h4] using hw 2 2 (by omega) _ (by simp)),
      afterWrite_of_plain (by simpa [h4] using hw 0 2 (by omega) _ (by simp))]
  · rw [afterWrite_of_plain (by simpa using hw 0 bs.length (by omega) (s.storeBytes a bs) (by simp))]

end Sys2Proof.Machine
end

