-- ==== Sys2Proof/Laws/Execution.lean ====
section
/-!
SUPPORT. What executing an instruction can do, said once: a property `R` that the updates an instruction makes keep, and that gives `P` in
the end, gives `P` of every next state. A frame or an invariant is then an `R` and a `P`, and no proof goes through the meanings again.
-/
namespace Sys2Proof.Machine

/-- `R` holds while an instruction `i` executes, `P` when it is done: what the updates of the meanings of `i` must keep. The updates that
only some instructions make are asked of those alone. -/
structure Closed (R P : State → Prop) (i : Instr) : Prop where
  done : ∀ s, R s → P s
  restart : ∀ s c, R s → P (s.restart c s.here.toNat)
  drawn : ∀ s n, R s → R (s.drawn n)
  stack : ∀ s xs, R s → xs.length ≤ s.cur.stack.length ∨ xs.length ≤ s.cfg.dstackSize →
    R (s.setCur { s.cur with stack := xs })
  jumped : ∀ s a, R s → P (s.setCur { s.cur with pc := a })
  closed : ∀ s e es, R s → s.cur.ctl = e :: es → R (s.setCur { s.cur with ctl := es })
  called : ∀ s e, R s → e.ok = true → e.onCallStack = true → callCount s.cur.ctl < s.cfg.cstackSize →
    R (s.setCur { s.cur with ctl := e :: s.cur.ctl })
  opened : ∀ s, R s → ifCount s.cur.ctl < s.cfg.nestMax → R (s.setCur { s.cur with ctl := .ifE :: s.cur.ctl })
  ended : i = .endThread ∨ i = .setpr → ∀ s, R s → s.pxr ≠ 0 → P (s.endThread s.pxr)
  scanned : i ∈ [Instr.skip, .ifMark, .elseMark, .repIf, .breakLoop] → ∀ s k, R s →
    R (s.setCur { s.cur with mode := .scan k [] })
  held : i = .delay → ∀ s v, R s → R (s.setCur { s.cur with held := true, dcr := v })
  vars : i = .writeVar → ∀ s v, R s → R (s.setCur { s.cur with vars := v })
  prio : i = .setpr → ∀ s n, R s → n ≠ 0 → R (s.setCur { s.cur with prio := n })
  entered : i = .enter → ∀ s, R s → R (s.setCur { s.cur with snap := some s.cur.stack.length })
  left : i = .leave → ∀ s n xs, R s → s.cur.snap = some n → xs.length = n →
    R (s.setCur { s.cur with stack := xs, snap := none })
  begun : actsOnThreads i = true → ∀ s j a, R s → j ∈ s.freeThreads →
    R ((s.setThread j (Thread.begun s.draws a [])).drawn 9)
  alone : actsOnThreads i = true → ∀ s, R s → P s.endOthers
  stored : mayStore i = true → ∀ s a b, R s → s.cfg.valid a = true → R (s.storeByte a b)
  reached : reachesPlatform i = true → ∀ s p, R s → R { s with platform := p }

section
variable {R P : State → Prop} {i : Instr} {s : State}

/-! ## The operations -/

theorem closed_raise (C : Closed R P i) (h : R s) (c : Condition) : Always P (raise c s) :=
  (always_raise _ _ _).2 (C.restart s c h)

theorem closed_pop (C : Closed R P i) {k : W56 → State → Out} (h : R s) (hk : ∀ x t, R t → Always P (k x t)) :
    Always P (pop s k) :=
  always_pop (C.restart s _ h) fun x xs e => hk x _ (C.stack s xs h (Or.inl (by rw [e]; simp)))

theorem closed_push (C : Closed R P i) {v : W56} {k : State → Out} (h : R s) (hk : ∀ t, R t → Always P (k t)) :
    Always P (push v s k) :=
  always_push (C.restart s _ h) fun hl => hk _ (C.stack s _ h (Or.inr (by simpa using hl)))

theorem closed_result (C : Closed R P i) {v : W56} (h : R s) : Always P (push v s .next) :=
  closed_push C h fun t ht => C.done t ht

theorem closed_unary (C : Closed R P i) {f : W56 → W56} (h : R s) : Always P (unary f s) :=
  closed_pop C h fun _ _ ht => closed_result C ht

theorem closed_binary (C : Closed R P i) {f : W56 → W56 → W56} (h : R s) : Always P (binary f s) :=
  closed_pop C h fun _ _ ht => closed_pop C ht fun _ _ hu => closed_result C hu

theorem closed_jump (C : Closed R P i) (h : R s) (a : Nat) : Always P (jump s a) :=
  always_jump fun _ => C.jumped s _ h

theorem closed_pushCall (C : Closed R P i) {e : CtlEntry} {k : State → Out} (h : R s) (he : e.ok = true)
    (hc : e.onCallStack = true) (hk : ∀ t, R t → Always P (k t)) : Always P (pushCall s e k) :=
  always_pushCall (C.restart s _ h) fun hl => hk _ (C.called s e h he hc hl)

theorem closed_pushIf (C : Closed R P i) {k : State → Out} (h : R s) (hk : ∀ t, R t → Always P (k t)) :
    Always P (pushIf s k) :=
  always_pushIf fun hl => hk _ (C.opened s h hl)

theorem closed_popIf (C : Closed R P i) {k : State → Out} (h : R s) (hk : ∀ t, R t → Always P (k t)) :
    Always P (popIf s k) := by
  unfold popIf
  refine always_ite (fun _ => closed_raise C h _) fun _ => ?_
  split
  · next e => exact hk _ (C.closed s _ _ h e)
  · trivial

theorem closed_return (C : Closed R P i) (h : R s) : Always P (returnOp s) := by
  unfold returnOp
  refine always_ite (fun _ => closed_raise C h _) fun _ => ?_
  split
  · next e => exact closed_jump C (C.closed s _ _ h e) _
  · trivial

theorem closed_end (C : Closed R P i) (hi : i = .endThread ∨ i = .setpr) (h : R s) : Always P (endOp s) := by
  unfold endOp
  exact always_ite (fun _ => closed_return C h) fun hp => C.ended hi s h hp

theorem mem_of_pickIndex {free : Nat} {ks : List (BitVec 7)} {k : BitVec 7} (h : pickIndex free ks = some k) : k ∈ ks := by
  unfold pickIndex at h
  split at h
  · cases h
  · cases h; simp
  · exact List.mem_of_getElem? h

theorem closed_newThread (C : Closed R P i) (hi : actsOnThreads i = true) {a : A28} (h : R s) :
    Always P (newThread s a .next) := by
  unfold newThread
  split
  · trivial
  · next e => exact C.done _ (C.begun hi s _ a h (mem_of_pickIndex e))

theorem returnEntry_ok (s : State) : (CtlEntry.callE (nextWord s.here.toNat)).ok = true := by
  have := nextWord_le s.here.isLt
  simp only [CtlEntry.ok, nextWord_even, decide_true, Bool.and_true, decide_eq_true_eq]
  exact this

theorem loopEntry_ok (s : State) : (CtlEntry.loopE (nextWord s.here.toNat)).ok = true :=
  returnEntry_ok s

theorem closed_openLoop (C : Closed R P i) (h : R s) : Always P (openLoop s) :=
  closed_pushCall C h (loopEntry_ok s) rfl fun t ht => C.done t ht

theorem closed_closeLoop (C : Closed R P i) (h : R s) (back : Bool) : Always P (closeLoop back s) := by
  unfold closeLoop
  split
  · next e => exact always_ite (fun _ => closed_jump C h _) fun _ => C.done _ (C.closed s _ _ h e)
  · exact always_ite (fun _ => closed_raise C h _) fun _ => trivial

theorem closed_callTo (C : Closed R P i) (h : R s) (a : Nat) : Always P (callTo s a) :=
  closed_pushCall C h (returnEntry_ok s) rfl fun _ ht => C.jumped _ _ ht

theorem closed_backTarget (C : Closed R P i) {x : W56} {k : Nat → Out} (h : R s) (hk : ∀ a, Always P (k a)) :
    Always P (backTarget s x k) := by
  unfold backTarget
  exact always_ite (fun _ => trivial) fun _ => always_ite (fun _ => closed_raise C h _) fun _ => hk _

theorem closed_absTarget (C : Closed R P i) {x : W56} {k : Nat → Out} (h : R s) (hk : ∀ a, Always P (k a)) :
    Always P (absTarget s x k) := by
  unfold absTarget
  exact always_ite (fun _ => trivial) fun _ => always_ite (fun _ => closed_raise C h _) fun _ => hk _

theorem closed_scan (C : Closed R P i) (hi : i ∈ [Instr.skip, .ifMark, .elseMark, .repIf, .breakLoop]) (k : ScanKind)
    (h : R s) : Always P (.next (s.withMode (.scan k []))) :=
  C.done _ (C.scanned hi s k h)

/-! ## Memory -/

theorem closed_afterRead (C : Closed R P i) (hr : ∀ s p, R s → R { s with platform := p }) (h : R s) (a n : Nat) :
    R (s.afterRead a n) := by
  unfold State.afterRead
  split
  · exact hr _ _ (C.drawn s 1 h)
  · exact h

theorem closed_afterWrite (C : Closed R P i) (h : R s) {a : Nat} {bs : List Byte}
    (hb : s.touches .peripheral a bs.length = true → reachesPlatform i = true) : R (s.afterWrite a bs) := by
  unfold State.afterWrite
  split
  · next ht => exact C.reached (hb ht) _ _ h
  · exact h

theorem closed_storeBytes (C : Closed R P i) (hi : mayStore i = true) : ∀ (bs : List Byte) (s : State) (a : Nat), R s →
    (∀ j < bs.length, s.cfg.valid (a + j) = true) → R (s.storeBytes a bs)
  | [], _, _, h, _ => h
  | b :: bs, s, a, h, hv => closed_storeBytes C hi bs _ (a + 1) (C.stored hi s a b h (by simpa using hv 0 (by simp)))
      fun j hj => by
        rw [storeByte_cfg, show a + 1 + j = a + (j + 1) by omega]
        exact hv _ (by simpa using hj)

theorem closed_storeSome (C : Closed R P i) (hi : mayStore i = true) : ∀ (bs : List (Option Byte)) (s : State) (a : Nat),
    R s → R (s.storeSome a bs)
  | [], _, _, h => h
  | none :: bs, s, a, h => closed_storeSome C hi bs s (a + 1) h
  | some b :: bs, s, a, h => by
    rw [State.storeSome]
    split
    · next hc =>
      rw [Bool.and_eq_true] at hc
      exact closed_storeSome C hi bs _ (a + 1) (C.stored hi s a b h hc.1)
    · exact closed_storeSome C hi bs s (a + 1) h

theorem closed_storeAll (C : Closed R P .sysfn) : ∀ (bs : List (A28 × Byte)) (s : State), R s → R (s.storeAll bs)
  | [], _, h => h
  | (a, b) :: bs, s, h => by
    rw [State.storeAll]
    split
    · next hc => exact closed_storeAll C bs _ (C.stored rfl s _ b h hc)
    · exact closed_storeAll C bs s h

theorem closed_memRead (C : Closed R P i) (hi : reachesPlatform i = true) {a n : Nat} {k : Nat → State → Out} (h : R s)
    (hk : ∀ v t, R t → Always P (k v t)) : Always P (memRead s a n k) :=
  always_memRead (fun c => C.restart s c h) fun _ =>
    ⟨hk _ _ (closed_afterRead C (C.reached hi) h a n),
     hk _ _ (closed_afterRead C (C.reached hi) (closed_afterRead C (C.reached hi) h a 2) (a + 2) 2)⟩

theorem closed_memWrite (C : Closed R P i) (hi : mayStore i = true) {a : Nat} {bs : List Byte} {k : State → Out}
    (hb : reachesPlatform i = true ∨ bs.length = 1) (h : R s) (hk : ∀ t, R t → Always P (k t)) :
    Always P (memWrite s a bs k) := by
  refine always_memWrite (fun c => C.restart s c h) fun hc h1 => ?_
  have hs : R (s.storeBytes a bs) := closed_storeBytes C hi bs s a h (accessCheck_none.1 hc).2.2
  constructor
  · refine hk _ (closed_afterWrite C hs fun ht => hb.resolve_right fun hl => ?_)
    rw [hl, State.touches, storeBytes_cfg] at ht
    exact absurd ((h1 hl).symm.trans ht) (by decide)
  · intro hl
    have hr : reachesPlatform i = true := hb.resolve_right (by omega)
    rw [transfer_take_drop s a hl]
    exact hk _ (closed_afterWrite C (closed_afterWrite C hs fun _ => hr) fun _ => hr)

theorem closed_rawRead (C : Closed R P i) (hi : reachesPlatform i = true) (h : R s) (n : Nat) : Always P (rawRead n s) :=
  closed_pop C h fun _ _ ht => closed_memRead C hi ht fun _ _ hu => closed_result C hu

theorem closed_rawWrite (C : Closed R P i) (hi : mayStore i = true) {n : Nat} (hn : reachesPlatform i = true ∨ n = 1) (h : R s) :
    Always P (rawWrite n s) :=
  closed_pop C h fun _ _ ht => closed_pop C ht fun _ _ hu => closed_memWrite C hi (by simpa using hn) hu fun t ht => C.done t ht

theorem closed_readVlnFrom (C : Closed R P i) {fail : Condition → Nat → State → Out} {k : W56 → Nat → State → Out}
    (hr : ∀ s p, R s → R { s with platform := p }) (hf : ∀ c a t, R t → Always P (fail c a t))
    (hk : ∀ v n t, R t → Always P (k v n t)) :
    ∀ (left acc group a : Nat) (s : State), R s → Always P (readVlnFrom fail k left acc group a s)
  | 0, _, _, _, _, _ => trivial
  | left + 1, acc, group, a, s, h => by
    unfold readVlnFrom
    split
    · exact hf _ _ _ h
    · dsimp only
      split
      · exact hk _ _ _ (closed_afterRead C hr h a 2)
      · exact closed_readVlnFrom C hr hf hk left _ _ _ _ (closed_afterRead C hr h a 2)
      · trivial
      · trivial

theorem closed_writeWords (C : Closed R P .wrvln) {k : Nat → State → Out}
    (hk : ∀ n t, R t → Always P (k n t)) : ∀ (ws : List Word16) (a : Nat) (s : State), R s → Always P (writeWords k ws a s)
  | [], _, _, h => hk _ _ h
  | _ :: ws, a, _, h => closed_memWrite C rfl (Or.inl rfl) h fun t ht => closed_writeWords C hk ws (a + 2) t ht

theorem rangeOk_valid {a c : Nat} (h : s.rangeOk a c = true) : ∀ j < c, s.cfg.valid (a + j) = true := by
  simp only [State.rangeOk, Bool.and_eq_true, Bool.not_eq_true', decide_eq_true_eq] at h
  intro j hj
  simpa using anyByte_eq_false.1 h.2 j hj

@[simp] theorem bytesAt_length (s : State) (a n : Nat) : (s.bytesAt a n).length = n := by
  induction n generalizing a with
  | zero => rfl
  | succ n ih => simp [State.bytesAt, ih]

theorem closed_raiseInBlock (C : Closed R P i) (hi : mayStore i = true) (h : R s) (d : Nat) (bs : List (Option Byte)) :
    Always P (raiseInBlock s d bs) :=
  closed_raise C (C.drawn _ 1 (closed_storeSome C hi bs s d h)) _

@[simp] theorem sourceBytes_length (s : State) (a n : Nat) : (s.sourceBytes a n).length = n := by
  induction n generalizing a with
  | zero => rfl
  | succ n ih => simp [State.sourceBytes, ih]

theorem closed_fillBlock (C : Closed R P i) (hi : mayStore i = true) (h : R s) (a c : Nat) (b : Byte) :
    Always P (fillBlock s a c b) := by
  unfold fillBlock
  refine always_ite (fun _ => trivial) fun _ => always_ite (fun _ => closed_raiseInBlock C hi h _ _) fun hr =>
    always_ite (fun _ => trivial) fun _ => always_ite (fun _ => trivial) fun _ => ?_
  rw [Bool.not_eq_true', Bool.not_eq_false] at hr
  exact C.done _ (closed_storeBytes C hi _ s a h fun j hj => rangeOk_valid hr j (by simpa using hj))

theorem closed_copyBlock (C : Closed R P i) (hi : mayStore i = true) (h : R s) (a n c : Nat) :
    Always P (copyBlock s a n c) := by
  unfold copyBlock
  refine always_ite (fun _ => trivial) fun _ => always_ite (fun _ => closed_raiseInBlock C hi h _ _) fun hr =>
    always_ite (fun _ => trivial) fun _ => always_ite (fun _ => trivial) fun _ => ?_
  rw [Bool.not_eq_true', Bool.not_eq_false, Bool.and_eq_true] at hr
  exact C.done _ (closed_storeBytes C hi _ s n h fun j hj => rangeOk_valid hr.2 j (by simpa using hj))

theorem closed_strLen (C : Closed R P i) {a : Nat} {k : Nat → Out} (h : R s) (hk : ∀ n, Always P (k n)) :
    Always P (strLen s a k) := by
  unfold strLen
  split
  · exact hk _
  · exact closed_raise C h _
  · trivial

/-! ## The instructions -/

theorem closed_skip (C : Closed R P .skip) (h : R s) : Always P (execSkip s) :=
  closed_pop C h fun _ _ ht => always_ite (fun _ => trivial) fun _ => always_ite (fun _ => closed_raise C ht _) fun _ =>
    always_ite (fun _ => trivial) fun _ => (always_next _ _).2 (C.jumped _ _ (C.scanned (by decide) _ _ ht))

theorem closed_if (C : Closed R P .ifMark) (h : R s) : Always P (execIf s) :=
  closed_pop C h fun _ _ ht => always_ite (fun _ => closed_scan C (by decide) _ ht) fun _ =>
    closed_pushIf C ht fun t hu => C.done t hu

theorem closed_repIf (C : Closed R P .repIf) (h : R s) : Always P (execRepIf s) :=
  closed_pop C h fun _ _ ht => always_ite (fun _ => trivial) fun _ =>
    always_ite (fun _ => closed_scan C (by decide) _ ht) fun _ => closed_openLoop C ht

theorem closed_break (C : Closed R P .breakLoop) (h : R s) : Always P (execBreak s) :=
  closed_pop C h fun _ t ht => always_ite (fun _ => C.done t ht) fun _ => by
    split
    · next e => exact closed_scan C (by decide) _ (C.closed t _ _ ht e)
    · trivial

theorem closed_again (C : Closed R P .again) (h : R s) : Always P (execAgain s) :=
  closed_pop C h fun _ t ht => always_ite (fun _ => C.done t ht) fun _ => by
    split
    · exact closed_jump C ht _
    · trivial

theorem closed_setpr (C : Closed R P .setpr) (h : R s) : Always P (execSetpr s) :=
  closed_pop C h fun _ t ht => always_ite (fun _ => closed_end C (Or.inr rfl) ht) fun hx =>
    C.done _ (C.prio rfl t _ ht fun e => hx (BitVec.eq_of_toNat_eq e))

theorem closed_enter (C : Closed R P .enter) (h : R s) : Always P (execEnter s) := by
  unfold execEnter
  split
  · exact closed_raise C h _
  · exact C.done _ (C.entered rfl s h)

@[simp] theorem freeWords_length (from_ n : Nat) : (freeWords from_ n).length = n := by
  induction n generalizing from_ with
  | zero => rfl
  | succ n ih => simp [freeWords, ih]

theorem closed_leave (C : Closed R P .leave) (h : R s) : Always P (execLeave s) := by
  unfold execLeave
  split
  · exact closed_raise C h _
  · next n e =>
    refine always_ite (fun hl => C.done _ (C.left rfl s n _ h e ?_)) fun hl => C.done _ (C.drawn _ _ (C.left rfl s n _ h e ?_))
    · rw [List.length_drop]; omega
    · rw [List.length_append, freeWords_length]; omega

theorem exchange_length (xs : List W56) (j : Nat) : (exchange xs j).length = xs.length := by
  unfold exchange
  split <;> simp

theorem closed_swap (C : Closed R P .swap) (h : R s) : Always P (execSwap s) :=
  closed_pop C h fun _ t ht =>
    always_ite (fun _ => C.done _ (C.stack t _ ht (Or.inl (exchange_length _ _).le))) fun _ => closed_raise C ht _

theorem closed_over (C : Closed R P .overNth) (h : R s) : Always P (execOver s) :=
  closed_pop C h fun _ t ht => by
    split
    · exact closed_result C ht
    · exact closed_raise C ht _

theorem closed_readVar (C : Closed R P .readVar) (h : R s) : Always P (execReadVar s) :=
  closed_pop C h fun _ t ht => by
    split
    · exact closed_result C ht
    · trivial

theorem closed_writeVar (C : Closed R P .writeVar) (h : R s) : Always P (execWriteVar s) :=
  closed_pop C h fun _ _ ht => closed_pop C ht fun _ u hu => by
    split
    · exact C.done _ (C.vars rfl u _ hu)
    · trivial

theorem closed_div (C : Closed R P .div) (h : R s) : Always P (execDiv s) :=
  closed_pop C h fun _ _ ht => closed_pop C ht fun _ _ hu => by
    split
    · exact closed_raise C hu _
    · exact closed_result C hu

theorem closed_mod (C : Closed R P .modulo) (h : R s) : Always P (execMod s) :=
  closed_pop C h fun _ _ ht => closed_pop C ht fun _ _ hu => by
    split
    · exact closed_raise C hu _
    · exact closed_result C hu

theorem closed_diff (C : Closed R P .diff) (h : R s) : Always P (execDiff s) :=
  closed_pop C h fun _ _ ht => closed_pop C ht fun _ _ hu => closed_pop C hu fun _ _ hv =>
    always_ite (fun _ => closed_result C hv) fun _ => always_ite (fun _ => trivial) fun _ =>
      always_ite (fun _ => closed_raise C hv _) fun _ => by split <;> exact closed_result C hv

theorem closed_scanStr (C : Closed R P .scanStr) (h : R s) : Always P (execScanStr s) :=
  closed_pop C h fun _ _ ht => closed_pop C ht fun _ _ hu => closed_strLen C hu fun _ => closed_strLen C hu fun _ => by
    split <;> exact closed_result C hu

theorem closed_diffStr (C : Closed R P .diffStr) (h : R s) : Always P (execDiffStr s) :=
  closed_pop C h fun _ _ ht => closed_pop C ht fun _ _ hu => by
    split
    · exact closed_result C hu
    · exact closed_result C hu
    · exact closed_raise C hu _
    · trivial

theorem closed_rdvln (C : Closed R P .rdvln) (h : R s) : Always P (execRdvln s) :=
  closed_pop C h fun _ t ht => closed_readVlnFrom C (C.reached rfl) (fun c _ _ hu => closed_raise C hu c)
    (fun _ _ _ hu => closed_push C hu fun _ hv => closed_result C hv) _ _ _ _ t ht

theorem closed_wrvln (C : Closed R P .wrvln) (h : R s) : Always P (execWrvln s) :=
  closed_pop C h fun _ _ ht => closed_pop C ht fun _ t hu =>
    closed_writeWords C (fun _ _ hv => closed_result C hv) _ _ t hu

theorem closed_delay (C : Closed R P .delay) (h : R s) : Always P (execDelay s) :=
  closed_pop C h fun _ t ht => (always_next _ _).2 (C.done _ (C.held rfl t _ ht))

theorem closed_else (C : Closed R P .elseMark) (h : R s) : Always P (execElse s) :=
  closed_popIf C h fun _ ht => closed_scan C (by decide) _ ht

theorem closed_endIf (C : Closed R P .endIf) (h : R s) : Always P (execEndIf s) :=
  closed_popIf C h fun t ht => C.done t ht

theorem closed_repeat (C : Closed R P .repeatMark) (h : R s) : Always P (execRepeat s) :=
  always_ite (fun _ => closed_openLoop C h) fun _ => trivial

theorem closed_until (C : Closed R P .untilMark) (h : R s) : Always P (execUntil s) :=
  closed_pop C h fun _ _ ht => closed_closeLoop C ht _

theorem closed_while (C : Closed R P .whileMark) (h : R s) : Always P (execWhile s) :=
  closed_pop C h fun _ _ ht => closed_closeLoop C ht _

theorem closed_call (C : Closed R P .call) (h : R s) : Always P (execCall s) :=
  closed_pop C h fun _ _ ht => closed_backTarget C ht fun a => closed_callTo C ht a

theorem closed_acall (C : Closed R P .acall) (h : R s) : Always P (execAcall s) :=
  closed_pop C h fun _ _ ht => closed_absTarget C ht fun a => closed_callTo C ht a

theorem closed_ntcall (C : Closed R P .ntcall) (h : R s) : Always P (execNtcall s) :=
  closed_pop C h fun _ _ ht => closed_backTarget C ht fun _ => closed_newThread C rfl ht

theorem closed_ntacall (C : Closed R P .ntacall) (h : R s) : Always P (execNtacall s) :=
  closed_pop C h fun _ _ ht => closed_absTarget C ht fun _ => closed_newThread C rfl ht

theorem closed_empty (C : Closed R P .empty) (h : R s) : Always P (execEmpty s) :=
  C.done _ (C.stack s [] h (Or.inl (Nat.zero_le _)))

theorem closed_drop (C : Closed R P .drop) (h : R s) : Always P (execDrop s) :=
  closed_pop C h fun _ t ht => C.done t ht

theorem closed_dup (C : Closed R P .dup) (h : R s) : Always P (execDup s) :=
  closed_pop C h fun _ _ ht => closed_push C ht fun _ hu => closed_result C hu

theorem closed_rot (C : Closed R P .rot) (h : R s) : Always P (execRot s) :=
  closed_pop C h fun _ _ h => closed_pop C h fun _ _ h => closed_pop C h fun _ _ h =>
    closed_push C h fun _ h => closed_push C h fun _ h => closed_result C h

theorem closed_fill (C : Closed R P .fill) (h : R s) : Always P (execFill s) :=
  closed_pop C h fun _ _ h => closed_pop C h fun _ _ h => closed_pop C h fun _ t h =>
    always_ite (fun _ => C.done t h) fun _ => closed_fillBlock C rfl h _ _ _

theorem closed_copy (C : Closed R P .copy) (h : R s) : Always P (execCopy s) :=
  closed_pop C h fun _ _ h => closed_pop C h fun _ _ h => closed_pop C h fun _ t h =>
    always_ite (fun _ => C.done t h) fun _ => closed_copyBlock C rfl h _ _ _

theorem closed_lenStr (C : Closed R P .lenStr) (h : R s) : Always P (execLenStr s) :=
  closed_pop C h fun _ _ h => closed_strLen C h fun _ => closed_result C h

theorem closed_copyStr (C : Closed R P .copyStr) (h : R s) : Always P (execCopyStr s) :=
  closed_pop C h fun _ _ h => closed_pop C h fun _ _ h => closed_strLen C h fun _ => closed_copyBlock C rfl h _ _ _

/-- Every instruction but SYSFN keeps what its updates keep. -/
theorem closed_exec (C : Closed R P i) (hi : i ≠ .sysfn) (h : R s) : Always P (exec i s) :=
  match i, C, hi with
  | .sysfn, _, hi => absurd rfl hi
  | .nop, C, _ => C.done s h
  | .doMark, C, _ => C.done s h
  | .delay, C, _ => closed_delay C h
  | .skip, C, _ => closed_skip C h
  | .ifMark, C, _ => closed_if C h
  | .elseMark, C, _ => closed_else C h
  | .endIf, C, _ => closed_endIf C h
  | .repeatMark, C, _ => closed_repeat C h
  | .repIf, C, _ => closed_repIf C h
  | .untilMark, C, _ => closed_until C h
  | .whileMark, C, _ => closed_while C h
  | .breakLoop, C, _ => closed_break C h
  | .again, C, _ => closed_again C h
  | .call, C, _ => closed_call C h
  | .acall, C, _ => closed_acall C h
  | .ntcall, C, _ => closed_ntcall C h
  | .ntacall, C, _ => closed_ntacall C h
  | .ret, C, _ => closed_return C h
  | .maxthds, C, _ => closed_result C h
  | .threads, C, _ => closed_result C h
  | .endAll, C, _ => C.alone rfl s h
  | .endThread, C, _ => closed_end C (Or.inl rfl) h
  | .setpr, C, _ => closed_setpr C h
  | .enter, C, _ => closed_enter C h
  | .leave, C, _ => closed_leave C h
  | .empty, C, _ => closed_empty C h
  | .depth, C, _ => closed_result C h
  | .drop, C, _ => closed_drop C h
  | .dup, C, _ => closed_dup C h
  | .swap, C, _ => closed_swap C h
  | .rot, C, _ => closed_rot C h
  | .overNth, C, _ => closed_over C h
  | .readVar, C, _ => closed_readVar C h
  | .writeVar, C, _ => closed_writeVar C h
  | .com, C, _ => closed_unary C h
  | .not, C, _ => closed_unary C h
  | .and, C, _ => closed_binary C h
  | .or, C, _ => closed_binary C h
  | .xor, C, _ => closed_binary C h
  | .shl, C, _ => closed_binary C h
  | .shr, C, _ => closed_binary C h
  | .lt, C, _ => closed_binary C h
  | .le, C, _ => closed_binary C h
  | .eq, C, _ => closed_binary C h
  | .ne, C, _ => closed_binary C h
  | .ge, C, _ => closed_binary C h
  | .gt, C, _ => closed_binary C h
  | .add, C, _ => closed_binary C h
  | .sub, C, _ => closed_binary C h
  | .mul, C, _ => closed_binary C h
  | .div, C, _ => closed_div C h
  | .modulo, C, _ => closed_mod C h
  | .inc, C, _ => closed_unary C h
  | .dec, C, _ => closed_unary C h
  | .random, C, _ => closed_result C (C.drawn s 1 h)
  | .fill, C, _ => closed_fill C h
  | .diff, C, _ => closed_diff C h
  | .copy, C, _ => closed_copy C h
  | .lenStr, C, _ => closed_lenStr C h
  | .scanStr, C, _ => closed_scanStr C h
  | .diffStr, C, _ => closed_diffStr C h
  | .copyStr, C, _ => closed_copyStr C h
  | .rdvln, C, _ => closed_rdvln C h
  | .rd32, C, _ => closed_rawRead C rfl h _
  | .rd16, C, _ => closed_rawRead C rfl h _
  | .rd8, C, _ => closed_rawRead C rfl h _
  | .wrvln, C, _ => closed_wrvln C h
  | .wr32, C, _ => closed_rawWrite C rfl (Or.inl rfl) h
  | .wr16, C, _ => closed_rawWrite C rfl (Or.inl rfl) h
  | .wr8, C, _ => closed_rawWrite C rfl (Or.inr rfl) h

/-! ## System functions -/

theorem closed_popMany (C : Closed R P i) {k : State → Out} (hk : ∀ t, R t → Always P (k t)) :
    ∀ (n : Nat) (s : State), R s → Always P (popMany n s k)
  | 0, _, h => hk _ h
  | n + 1, _, h => closed_pop C h fun _ t ht => closed_popMany C hk n t ht

theorem closed_pushMany (C : Closed R P i) {k : State → Out} (hk : ∀ t, R t → Always P (k t)) :
    ∀ (vs : List W56) (s : State), R s → Always P (pushMany vs s k)
  | [], _, h => hk _ h
  | _ :: vs, _, h => closed_push C h fun t ht => closed_pushMany C hk vs t ht

theorem closed_systemFunction (C : Closed R P .sysfn) (e : SysEffect) (h : R s) : Always P (systemFunction e s) := by
  refine closed_popMany C (fun t ht => closed_pushMany C (fun u hu => ?_) _ t ht) _ s h
  refine always_ite (fun _ => trivial) fun _ => ?_
  have hs := closed_storeAll C e.stores _ (C.reached rfl u e.platform hu)
  split
  · exact C.done _ hs
  · exact closed_raise C hs _

theorem execNested_of_ne {again : State → Out} {j : Instr} (h : j ≠ .sysfn) (s : State) : execNested again j s = exec j s := by
  cases j <;> first | rfl | exact absurd rfl h

theorem closed_sysfnTurns (C : ∀ j, Closed R P j) : ∀ (turns : Nat) (s : State), R s → Always P (sysfnTurns turns s)
  | 0, _, h => closed_raise (C .sysfn) h _
  | turns + 1, _, h => closed_pop (C .sysfn) h fun x t ht => by
    refine always_ite (fun _ => ?_) fun _ => always_ite (fun _ => ?_) fun _ => (C .sysfn).done t ht
    · split
      · next j _ =>
        by_cases hj : j = .sysfn
        · subst hj; exact closed_sysfnTurns C turns t ht
        · rw [execNested_of_ne hj]; exact closed_exec (C j) hj ht
      · trivial
      · exact closed_raise (C .sysfn) ht _
    · exact closed_systemFunction (C .sysfn) _ ((C .sysfn).drawn t 1 ht)

/-- An execution keeps what the updates of every instruction keep. -/
theorem closed_execAny (C : ∀ j, Closed R P j) (i : Instr) (h : R s) : Always P (exec i s) := by
  by_cases hi : i = .sysfn
  · subst hi; exact closed_sysfnTurns C _ s h
  · exact closed_exec (C i) hi h

end

end Sys2Proof.Machine
end

