-- ==== Sys2Proof/Laws/Blocks.lean ====
section
/-!
SUPPORT. Laws of the block and string operations and of VLN constants in memory: what each search and each copy comes to on plain memory.
-/
namespace Sys2Proof.Machine

/-! ## Ranges -/

/-- Storing into a state with one thread replaced changes its memory alone. -/
theorem storeBytes_setCur_mem (s : State) (t : Thread) (a : Nat) (bs : List Byte) :
    (s.setCur t).storeBytes a bs = { s.setCur t with mem := (s.storeBytes a bs).mem } := by
  rw [storeBytes_eq, storeBytes_setCur]
  rfl

theorem bytesAt_getElem (s : State) (a n i : Nat) (h : i < (s.bytesAt a n).length) :
    (s.bytesAt a n)[i] = s.mem.read (a + i) := by
  induction n generalizing a i with
  | zero => simp [State.bytesAt] at h
  | succ n ih =>
    cases i with
    | zero => simp [State.bytesAt]
    | succ i => simp [State.bytesAt, ih]; congr 1; omega

theorem clipped_of_le {a c : Nat} (h : a + c ≤ 2 ^ 28) : clipped a c = c := by
  simp [clipped]; omega

theorem clipped_le (a c : Nat) : clipped a c ≤ c := by
  simp [clipped]

/-- Whether a store hits the executing word does not depend on the data stack. -/
theorem hitsOwnWord_setStack (s : State) (xs : List W56) (a n : Nat) :
    (s.setCur { s.cur with stack := xs }).hitsOwnWord a n = s.hitsOwnWord a n := by
  simp [State.hitsOwnWord, State.here]

theorem hitsOwnWord_inside {s : State} {a n a' n' : Nat} (h : s.hitsOwnWord a n = false) (h1 : a ≤ a')
    (h2 : a' + n' ≤ a + n) : s.hitsOwnWord a' n' = false := by
  simp [State.hitsOwnWord] at h ⊢
  intro g1 g2
  have := h g1 (by omega)
  omega

theorem rangeOk_eq_false {s : State} {a c : Nat}
    (h : 2 ^ 28 < a + c ∨ ∃ i < c, s.cfg.valid (a + i) = false) : s.rangeOk a c = false := by
  rcases h with h | ⟨i, hi, hv⟩
  · simp [State.rangeOk]
    intro h'
    omega
  · have : anyByte (fun b => !s.cfg.valid b) a c = true := anyByte_eq_true.2 ⟨i, hi, by simp [hv]⟩
    simp [State.rangeOk, this]

theorem touches_clipped {s : State} {k : RegionKind} {a c i : Nat} (hi : i < c) (hr : a + i < 2 ^ 28)
    (hk : s.cfg.kindAt (a + i) = some k) : s.touches k a (clipped a c) = true :=
  anyByte_eq_true.2 ⟨i, by simp [clipped]; omega, by simp [hk]⟩

/-- FILL over RAM outside the executing word (R261). -/
theorem fillBlock_ram {s : State} {a c : Nat} {b : Byte} (hp : s.Ram a c) (hr : a + c ≤ 2 ^ 28)
    (ho : s.hitsOwnWord a c = false) : fillBlock s a c b = .next (s.storeBytes a (List.replicate c b)) := by
  simp [fillBlock, clipped_of_le hr, plain_touches (ram_plain hp), ram_touches hp, plain_rangeOk (ram_plain hp) hr, ho]

/-- A copy from plain memory to RAM outside the executing word (R263). -/
theorem copyBlock_ram {s : State} {a n c : Nat} (hp : s.Plain a c) (hr : a + c ≤ 2 ^ 28) (hp' : s.Ram n c)
    (hr' : n + c ≤ 2 ^ 28) (ho : s.hitsOwnWord n c = false) :
    copyBlock s a n c = .next (s.storeBytes n (s.bytesAt a c)) := by
  simp [copyBlock, clipped_of_le hr, clipped_of_le hr', plain_touches hp, plain_touches (ram_plain hp'), ram_touches hp',
    plain_rangeOk hp hr, plain_rangeOk (ram_plain hp') hr', ho]

theorem sourceBytes_getElem (s : State) (a n i : Nat) (h : i < (s.sourceBytes a n).length) :
    (s.sourceBytes a n)[i] = none ∨ (s.sourceBytes a n)[i] = some (s.mem.read (a + i)) := by
  induction n generalizing a i with
  | zero => simp [State.sourceBytes] at h
  | succ n ih =>
    cases i with
    | zero => simp only [State.sourceBytes, List.getElem_cons_zero]; split <;> simp
    | succ i =>
      have := ih (a + 1) i (by simpa [State.sourceBytes] using h)
      simp only [State.sourceBytes, List.getElem_cons_succ]
      rw [show a + (i + 1) = a + 1 + i by omega]
      exact this

/-! ## Comparing and searching -/

theorem firstDifference_eq_none {s : State} {x y : Nat} : ∀ c,
    (∀ i < c, s.mem.read (x + i) = s.mem.read (y + i)) → firstDifference (s.bytesAt x c) (s.bytesAt y c) = none := by
  intro c
  induction c generalizing x y with
  | zero => intro _; rfl
  | succ c ih =>
    intro h
    simp only [State.bytesAt, firstDifference]
    rw [if_pos (by simpa using h 0 (by omega)), ih]
    · rfl
    · intro i hi
      rw [show x + 1 + i = x + (i + 1) by omega, show y + 1 + i = y + (i + 1) by omega]
      exact h (i + 1) (by omega)

theorem firstDifference_eq_some {s : State} {x y i : Nat} : ∀ c, i < c →
    (∀ j < i, s.mem.read (x + j) = s.mem.read (y + j)) → s.mem.read (x + i) ≠ s.mem.read (y + i) →
    firstDifference (s.bytesAt x c) (s.bytesAt y c) = some i := by
  induction i generalizing x y with
  | zero =>
    intro c hc h hn
    obtain ⟨c, rfl⟩ : ∃ d, c = d + 1 := ⟨c - 1, by omega⟩
    simp only [State.bytesAt, firstDifference]
    rw [if_neg (by simpa using hn)]
  | succ i ih =>
    intro c hc h hn
    obtain ⟨c, rfl⟩ : ∃ d, c = d + 1 := ⟨c - 1, by omega⟩
    simp only [State.bytesAt, firstDifference]
    rw [if_pos (by simpa using h 0 (by omega)), ih c (by omega)]
    · rfl
    · intro j hj
      rw [show x + 1 + j = x + (j + 1) by omega, show y + 1 + j = y + (j + 1) by omega]
      exact h (j + 1) (by omega)
    · rw [show x + 1 + i = x + (i + 1) by omega, show y + 1 + i = y + (i + 1) by omega]
      exact hn

/-- How the search for a string's end goes after `n` plain bytes other than 0: as from there on (R264). -/
theorem strEnd_skip {s : State} : ∀ (n left seen a : Nat), n ≤ left → s.Plain a n → (∀ i < n, s.mem.read (a + i) ≠ 0) →
    s.strEnd left seen a = s.strEnd (left - n) (seen + n) (a + n)
  | 0, _, _, _, _, _, _ => rfl
  | n + 1, left + 1, seen, a, hl, hp, hn => by
    have h0 : ¬s.mem.read a = 0 := by simpa using hn 0 (by omega)
    have e : s.strEnd (left + 1) seen a = s.strEnd left (seen + 1) (a + 1) := by
      rcases hp 0 (by omega) with hk | hk <;> simp only [Nat.add_zero] at hk <;> simp only [State.strEnd, hk, if_neg h0]
    rw [e, strEnd_skip n left (seen + 1) (a + 1) (by omega)
      (fun i hi => by rw [show a + 1 + i = a + (i + 1) by omega]; exact hp _ (by omega))
      (fun i hi => by rw [show a + 1 + i = a + (i + 1) by omega]; exact hn _ (by omega))]
    congr 1 <;> omega

/-- The length of a string that memory holds (R264). -/
theorem strLen_holds {s : State} {a len : Nat} {k : Nat → Out} (h : s.HoldsString a len) (t : Thread) :
    strLen (s.setCur t) a k = k len := by
  have hi := h.inside
  obtain ⟨l, hl⟩ : ∃ l, 2 ^ 28 - a - len = l + 1 := ⟨2 ^ 28 - a - len - 1, by omega⟩
  rw [strLen, strEnd_setCur, strEnd_skip len _ 0 a (by omega) (fun i hi => h.plain i (by omega)) h.nonzero, hl]
  rcases h.plain len (by omega) with hk | hk <;> simp [State.strEnd, hk, h.terminated]

/-- The length of a string that leaves memory (R264): $103. -/
theorem strLen_leaves {s : State} {a : Nat} {k : Nat → Out} (h : s.StringLeavesMemory a) (xs : List W56) :
    strLen (s.setCur { s.cur with stack := xs }) a k = .next (s.restart .badMemory s.here.toNat) := by
  have e : s.strEnd (2 ^ 28 - a) 0 a = .invalid := by
    rcases h with h | ⟨n, hp, hr, hn, hb⟩
    · rw [show 2 ^ 28 - a = 0 by omega]
      rfl
    · rw [strEnd_skip n _ 0 a (by omega) hp hn]
      match hl : 2 ^ 28 - a - n with
      | 0 => rfl
      | l + 1 =>
        have : s.cfg.kindAt (a + n) = none := by simpa [Params.valid] using hb.resolve_left (by omega)
        simp only [State.strEnd, this]
  rw [strLen, strEnd_setCur, e]
  simp [State.here]

/-- The length of a string that meets a peripheral location (R260 item 6): refused. -/
theorem strLen_meets {s : State} {a : Nat} {k : Nat → Out} (h : s.StringMeetsPeripheral a) (t : Thread) :
    strLen (s.setCur t) a k = .refused .blockOverPeripheral := by
  obtain ⟨n, hp, hr, hn, hb⟩ := h
  obtain ⟨l, hl⟩ : ∃ l, 2 ^ 28 - a - n = l + 1 := ⟨2 ^ 28 - a - n - 1, by omega⟩
  rw [strLen, strEnd_setCur, strEnd_skip n _ 0 a (by omega) hp hn, hl]
  simp only [State.strEnd, hb]

/-- How the comparison of two strings goes after `i` equal characters other than 0: as from there on (R266). -/
theorem strCmp_skip {s : State} : ∀ (i left seen x y : Nat), i ≤ left → s.Plain x i → s.Plain y i →
    (∀ j < i, s.mem.read (x + j) = s.mem.read (y + j) ∧ s.mem.read (x + j) ≠ 0) →
    s.strCmp left seen x y = s.strCmp (left - i) (seen + i) (x + i) (y + i)
  | 0, _, _, _, _, _, _, _, _ => rfl
  | i + 1, left + 1, seen, x, y, hl, hx, hy, h => by
    have h0 := h 0 (by omega)
    simp only [Nat.add_zero] at h0
    have kx := hx 0 (by omega)
    have ky := hy 0 (by omega)
    simp only [Nat.add_zero] at kx ky
    have e : s.strCmp (left + 1) seen x y = s.strCmp left (seen + 1) (x + 1) (y + 1) := by
      have hz : ¬s.mem.read x = 0 := h0.2
      rcases kx with kx | kx <;> rcases ky with ky | ky <;>
        rw [State.strCmp, kx, ky, if_neg (by simp), if_neg (by simp), if_pos h0.1, if_neg hz]
    rw [e, strCmp_skip i left (seen + 1) (x + 1) (y + 1) (by omega)
      (fun i hi => by rw [show x + 1 + i = x + (i + 1) by omega]; exact hx _ (by omega))
      (fun i hi => by rw [show y + 1 + i = y + (i + 1) by omega]; exact hy _ (by omega))
      (fun j hj => by
        rw [show x + 1 + j = x + (j + 1) by omega, show y + 1 + j = y + (j + 1) by omega]; exact h _ (by omega))]
    congr 1 <;> omega

theorem take_bytesAt {s : State} {a n m : Nat} (h : m ≤ n) : (s.bytesAt a n).take m = s.bytesAt a m := by
  induction m generalizing a n with
  | zero => simp [State.bytesAt]
  | succ m ih =>
    obtain ⟨n, rfl⟩ : ∃ d, n = d + 1 := ⟨n - 1, by omega⟩
    simp [State.bytesAt, ih (a := a + 1) (n := n) (by omega)]

theorem bytesAt_eq_iff {s : State} {a b n : Nat} :
    s.bytesAt a n = s.bytesAt b n ↔ ∀ j < n, s.mem.read (a + j) = s.mem.read (b + j) := by
  constructor
  · intro h j hj
    rw [← bytesAt_getElem s a n j (by simpa using hj), ← bytesAt_getElem s b n j (by simpa using hj)]
    simp only [h]
  · intro h
    apply List.ext_getElem (by simp)
    intro i h1 h2
    rw [bytesAt_getElem, bytesAt_getElem]
    exact h i (by simpa using h1)

/-- Where a string stands at the front of another (R265). -/
theorem isPrefixOf_bytesAt {s : State} {x y n m : Nat} : (s.bytesAt y m).isPrefixOf (s.bytesAt x n) = true ↔
    m ≤ n ∧ ∀ j < m, s.mem.read (x + j) = s.mem.read (y + j) := by
  rw [List.isPrefixOf_iff_prefix, List.prefix_iff_eq_take, bytesAt_length]
  constructor
  · intro h
    have hl := congrArg List.length h
    simp at hl
    rw [take_bytesAt hl] at h
    exact ⟨hl, fun j hj => (bytesAt_eq_iff.1 h j hj).symm⟩
  · rintro ⟨h1, h2⟩
    rw [take_bytesAt h1]
    exact bytesAt_eq_iff.2 fun j hj => (h2 j hj).symm

/-! ## VLN constants in memory -/

theorem byteAt_of_not_peripheral {s : State} {n a : Nat} (h : s.cfg.kindAt a ≠ some .peripheral) : s.byteAt n a = s.mem.read a := by
  simp [State.byteAt, h]

theorem plain_ne {s : State} {a n : Nat} (h : s.Plain a n) {i : Nat} (hi : i < n) : s.cfg.kindAt (a + i) ≠ some .peripheral := by
  rcases h i hi with h | h <;> simp [h]

/-- A word that is not a peripheral's depends on memory alone. -/
theorem wordAt_congr {s t : State} (hm : t.mem = s.mem) (hc : t.cfg = s.cfg) {a : Nat}
    (hp : s.touches .peripheral a 2 = false) : t.wordAt a = s.wordAt a := by
  have h := anyByte_eq_false.1 hp
  have h0 : s.cfg.kindAt a ≠ some .peripheral := by simpa using h 0 (by omega)
  have h1 : s.cfg.kindAt (a + 1) ≠ some .peripheral := by simpa using h 1 (by omega)
  simp [State.wordAt, State.valueAt, leValue, State.byteAt, hm, hc, h0, h1]

theorem holdsWords_congr {s t : State} (hm : t.mem = s.mem) (hc : t.cfg = s.cfg) : ∀ (ws : List Word16) (a : Nat),
    s.HoldsWords ws a → t.HoldsWords ws a
  | [], _, _ => trivial
  | _ :: ws, a, ⟨hp, hr, hw, h⟩ => by
    refine ⟨fun i hi => by rw [hc]; exact hp i hi, hr, ?_, holdsWords_congr hm hc ws (a + 2) h⟩
    rw [← hw]
    exact wordAt_congr hm hc (plain_touches hp)

/-- A word of plain memory passes the checks of a read, which changes nothing. -/
theorem wordRead_plain {s : State} {a : Nat} (hp : s.Plain a 2) (hr : a + 2 ≤ 2 ^ 28) (ha : a % 2 = 0) :
    s.accessCheck a 2 = none ∧ s.afterRead a 2 = s :=
  ⟨accessCheck_none.2 ⟨hr, Or.inr ha, plain_valid hp⟩, afterRead_of_plain (plain_touches hp)⟩

/-- Reading one group after another (R94). -/
theorem readVlnFrom_words {fail : Condition → Nat → State → Out} {k : W56 → Nat → State → Out} {s : State} :
    ∀ (ws : List Word16) (left acc group a : Nat), ws ≠ [] → ws.length ≤ left → a % 2 = 0 → isVln s.cfg.typeMap ws = true →
    s.HoldsWords ws a → readVlnFrom fail k left acc group a s =
      k (BitVec.ofNat 56 (acc + vlnValue ws * 2 ^ (14 * group))) (a + 2 * ws.length) s
  | [], _, _, _, _, h, _, _, _, _ => absurd rfl h
  | _ :: _, 0, _, _, _, _, h, _, _, _ => by simp at h
  | w :: ws, left + 1, acc, group, a, _, hl, ha, hv, hh => by
    obtain ⟨hp, hr, hw, hh'⟩ := hh
    obtain ⟨e1, e2⟩ := wordRead_plain hp hr ha
    cases ws with
    | nil =>
      have hv' : wordClass s.cfg.typeMap w = .vlnLast := by simpa [isVln] using hv
      simp only [readVlnFrom, e1, hw, hv', e2, vlnValue]
      simp
    | cons w' ws =>
      simp only [isVln, Bool.and_eq_true, decide_eq_true_eq] at hv
      simp only [readVlnFrom, e1, hw, hv.1, e2]
      rw [readVlnFrom_words (w' :: ws) left _ _ _ (by simp) (by simp at hl ⊢; omega) (by omega) hv.2 hh']
      have hg : 2 ^ (14 * (group + 1)) = 2 ^ 14 * 2 ^ (14 * group) := by rw [← pow_add]; congr 1; ring
      have e5 : acc + (payloadOf w).toNat * 2 ^ (14 * group) + vlnValue (w' :: ws) * 2 ^ (14 * (group + 1)) =
          acc + vlnValue (w :: w' :: ws) * 2 ^ (14 * group) := by
        rw [show vlnValue (w :: w' :: ws) = (payloadOf w).toNat + 2 ^ 14 * vlnValue (w' :: ws) from rfl, hg]
        generalize vlnValue (w' :: ws) = v
        ring
      have e6 : a + 2 + 2 * (w' :: ws).length = a + 2 * (w :: w' :: ws).length := by simp; ring
      rw [e5, e6]

/-- Reading groups that all announce another comes to the word after them (R94). -/
theorem readVlnFrom_more {fail : Condition → Nat → State → Out} {k : W56 → Nat → State → Out} {s : State} :
    ∀ (ws : List Word16) (left acc group a : Nat) (rest : List Word16), a % 2 = 0 → ws.length ≤ left →
    (∀ v ∈ ws, wordClass s.cfg.typeMap v = .vlnMore) → s.HoldsWords (ws ++ rest) a →
    s.HoldsWords rest (a + 2 * ws.length) ∧ ∃ acc', readVlnFrom fail k left acc group a s =
      readVlnFrom fail k (left - ws.length) acc' (group + ws.length) (a + 2 * ws.length) s
  | [], _, acc, _, _, _, _, _, _, hh => ⟨hh, acc, rfl⟩
  | _ :: _, 0, _, _, _, _, _, hl, _, _ => by simp at hl
  | w :: ws, left + 1, acc, group, a, rest, ha, hl, hv, ⟨hp, hr, hw, hh⟩ => by
    obtain ⟨e1, e2⟩ := wordRead_plain hp hr ha
    obtain ⟨hh', acc', e⟩ := readVlnFrom_more (fail := fail) (k := k) ws left
      (acc + (payloadOf w).toNat * 2 ^ (14 * group)) (group + 1) (a + 2) rest (by omega) (by simpa using hl)
      (fun v hm => hv v (List.mem_cons_of_mem _ hm)) hh
    have ea : a + 2 + 2 * ws.length = a + 2 * (w :: ws).length := by simp only [List.length_cons]; omega
    refine ⟨ea ▸ hh', acc', ?_⟩
    simp only [readVlnFrom, e1, hw, hv w List.mem_cons_self, e2, e, ← ea]
    congr 1 <;> simp only [List.length_cons] <;> omega

/-- A word of which a byte lies beyond 2^28 or does not exist fails the checks of a read with $103. -/
theorem accessCheck_missing {s : State} {a : Nat} (ha : a % 2 = 0)
    (h : 2 ^ 28 < a + 2 ∨ ∃ i < 2, s.cfg.valid (a + i) = false) : s.accessCheck a 2 = some .badMemory := by
  unfold State.accessCheck
  by_cases hr : 2 ^ 28 < a + 2
  · rw [if_pos hr]
  · obtain ⟨i, hi, hv⟩ := h.resolve_left hr
    have hm : anyByte (fun b => !s.cfg.valid b) a 2 = true := anyByte_eq_true.2 ⟨i, hi, by simp [hv]⟩
    rw [if_neg hr, if_neg (by omega), if_pos hm]

/-- Reading groups of which a later word does not exist (R94). -/
theorem readVlnFrom_missing {fail : Condition → Nat → State → Out} {k : W56 → Nat → State → Out} {s : State}
    {ws : List Word16} {left acc group a : Nat} (ha : a % 2 = 0) (hl : ws.length < left)
    (hv : ∀ v ∈ ws, wordClass s.cfg.typeMap v = .vlnMore) (hh : s.HoldsWords ws a)
    (hm : 2 ^ 28 < a + 2 * ws.length + 2 ∨ ∃ i < 2, s.cfg.valid (a + 2 * ws.length + i) = false) :
    readVlnFrom fail k left acc group a s = fail .badMemory (a + 2 * ws.length) s := by
  obtain ⟨-, acc', e⟩ := readVlnFrom_more (fail := fail) (k := k) ws left acc group a [] ha (Nat.le_of_lt hl) hv
    (by simpa using hh)
  obtain ⟨l, hl'⟩ : ∃ l, left - ws.length = l + 1 := ⟨left - ws.length - 1, by omega⟩
  rw [e, hl', readVlnFrom, accessCheck_missing (by omega) hm]

/-- Reading groups that a word of another class ends, or of which the last one read announces another (R94, R101). -/
theorem readVlnFrom_malformed {fail : Condition → Nat → State → Out} {k : W56 → Nat → State → Out} {s : State}
    {ws : List Word16} {w : Word16} {left acc group a : Nat} (ha : a % 2 = 0)
    (hv : ∀ v ∈ ws, wordClass s.cfg.typeMap v = .vlnMore) (hh : s.HoldsWords (ws ++ [w]) a)
    (hw : ws.length < left ∧ (wordClass s.cfg.typeMap w = .instr ∨ wordClass s.cfg.typeMap w = .reserved) ∨
      ws.length + 1 = left ∧ wordClass s.cfg.typeMap w = .vlnMore) :
    readVlnFrom fail k left acc group a s = .refused .malformedVln := by
  obtain ⟨hh', acc', e⟩ := readVlnFrom_more (fail := fail) (k := k) ws left acc group a [w] ha (by omega) hv hh
  obtain ⟨hp, hr, hw', -⟩ := hh'
  obtain ⟨e1, -⟩ := wordRead_plain hp hr (by omega)
  obtain ⟨l, hl'⟩ : ∃ l, left - ws.length = l + 1 := ⟨left - ws.length - 1, by omega⟩
  rw [e, hl']
  rcases hw with ⟨-, hc | hc⟩ | ⟨hl, hc⟩
  · simp only [readVlnFrom, e1, hw', hc]
  · simp only [readVlnFrom, e1, hw', hc]
  · obtain rfl : l = 0 := by omega
    simp only [readVlnFrom, e1, hw', hc]

theorem flatMap_wordBytes_length (ws : List Word16) : (ws.flatMap wordBytes).length = 2 * ws.length := by
  induction ws with
  | nil => rfl
  | cons w ws ih => simp [List.flatMap_cons, ih, wordBytes]; omega

/-- Writing words one after another to RAM outside the executing word (R95). -/
theorem writeWords_ram {k : Nat → State → Out} : ∀ (ws : List Word16) (a : Nat) (s : State), a % 2 = 0 →
    s.Ram a (2 * ws.length) → a + 2 * ws.length ≤ 2 ^ 28 → s.hitsOwnWord a (2 * ws.length) = false →
    writeWords k ws a s = k (a + 2 * ws.length) (s.storeBytes a (ws.flatMap wordBytes))
  | [], _, _, _, _, _, _ => rfl
  | w :: ws, a, s, ha, hp, hr, ho => by
    simp only [List.length_cons] at hp hr ho
    have h1 : s.hitsOwnWord a 2 = false := hitsOwnWord_inside ho (Nat.le_refl _) (by omega)
    have e1 : memWrite s a (wordBytes w) (fun s => writeWords k ws (a + 2) s) =
        writeWords k ws (a + 2) (s.storeBytes a (wordBytes w)) :=
      memWrite_ram (s := s) (a := a) (bs := wordBytes w) (fun i hi => hp i (by simp [wordBytes] at hi; omega))
        (by simp [wordBytes]; omega) (Or.inr ha) h1
    have hp2 : (s.storeBytes a (wordBytes w)).Ram (a + 2) (2 * ws.length) := fun i hi => by
      rw [storeBytes_cfg, show a + 2 + i = a + (2 + i) by omega]
      exact hp _ (by omega)
    have ho2 : (s.storeBytes a (wordBytes w)).hitsOwnWord (a + 2) (2 * ws.length) = false := by
      simpa [State.hitsOwnWord, State.here] using hitsOwnWord_inside (a' := a + 2) (n' := 2 * ws.length) ho (by omega) (by omega)
    rw [writeWords, e1, writeWords_ram ws (a + 2) _ (by omega) hp2 (by omega) ho2, List.flatMap_cons, storeBytes_append]
    simp [wordBytes]
    congr 1
    omega

theorem writeWords_append {k : Nat → State → Out} (post : List Word16) : ∀ (pre : List Word16) (a : Nat) (s : State),
    writeWords k (pre ++ post) a s = writeWords (fun a s => writeWords k post a s) pre a s
  | [], _, _ => rfl
  | w :: pre, a, s => by simp only [List.cons_append, writeWords, writeWords_append post pre]

end Sys2Proof.Machine
end

