-- ==== Sys2Proof/Laws/Cycle.lean ====
section
/-!
SUPPORT. Laws of the step: what selecting a thread and fetching a slot leave, what a step is once its word is known, and the rule by which a
property of every next state passes through a step.
-/
namespace Sys2Proof.Machine

/-! ## Selecting and fetching -/

@[simp] theorem select_cfg (s : State) (k : BitVec 7) : (s.select k).cfg = s.cfg := rfl
@[simp] theorem select_mem (s : State) (k : BitVec 7) : (s.select k).mem = s.mem := rfl
@[simp] theorem select_pxr (s : State) (k : BitVec 7) : (s.select k).pxr = k := rfl

theorem select_cur (s : State) (k : BitVec 7) :
    (s.select k).cur = { s.thread k with work := Config.freeWork s.draws } := by
  rw [State.select]
  simp only [cur_setCur]
  rfl

theorem select_thread_of_ne (s : State) {k j : BitVec 7} (h : j ≠ k) : (s.select k).thread j = s.thread j := by
  rw [State.select, thread_setCur_of_ne _ _ h]
  rfl

@[simp] theorem wordRead_cfg (s : State) (k : BitVec 7) : (s.wordRead k).cfg = s.cfg := afterRead_cfg _ _ _
@[simp] theorem wordRead_mem (s : State) (k : BitVec 7) : (s.wordRead k).mem = s.mem := afterRead_mem _ _ _
@[simp] theorem wordRead_pxr (s : State) (k : BitVec 7) : (s.wordRead k).pxr = k := afterRead_pxr _ _ _
@[simp] theorem wordRead_cur (s : State) (k : BitVec 7) : (s.wordRead k).cur = (s.select k).cur := afterRead_cur _ _ _

theorem wordRead_thread_of_ne (s : State) {k j : BitVec 7} (h : j ≠ k) : (s.wordRead k).thread j = s.thread j := by
  rw [State.wordRead, afterRead_thread, select_thread_of_ne s h]

/-- Reading a word that is no peripheral's changes nothing. -/
theorem wordRead_of_plain {s : State} {k : BitVec 7}
    (h : s.touches .peripheral (wordAddress (s.thread k).pc.toNat) 2 = false) : s.wordRead k = s.select k :=
  afterRead_of_plain h

@[simp] theorem fetched_cfg (s : State) (k : BitVec 7) (w : Word16) : (s.fetched k w).cfg = s.cfg := wordRead_cfg s k
@[simp] theorem fetched_mem (s : State) (k : BitVec 7) (w : Word16) : (s.fetched k w).mem = s.mem := wordRead_mem s k
@[simp] theorem fetched_pxr (s : State) (k : BitVec 7) (w : Word16) : (s.fetched k w).pxr = k := wordRead_pxr s k

theorem fetched_cur (s : State) (k : BitVec 7) (w : Word16) : (s.fetched k w).cur =
    { s.thread k with
      pc := BitVec.ofNat 28 ((s.thread k).pc.toNat + 1), icr := payloadOf w, work := Config.freeWork s.draws } := by
  rw [State.fetched, State.atSlot]
  simp [select_cur]

/-- The instruction that a fetched slot holds executes at that slot's address. -/
theorem fetched_here (s : State) (k : BitVec 7) (w : Word16) : (s.fetched k w).here = (s.thread k).pc := by
  rw [State.here, fetched_cur]
  apply BitVec.eq_of_toNat_eq
  have := (s.thread k).pc.isLt
  simp [BitVec.toNat_sub]
  omega

theorem fetched_thread_of_ne (s : State) {k j : BitVec 7} (w : Word16) (h : j ≠ k) :
    (s.fetched k w).thread j = s.thread j := by
  rw [State.fetched, State.atSlot, thread_setCur_of_ne _ _ (by simpa using h), wordRead_thread_of_ne _ h]

theorem step_awake {s : State} {k : BitVec 7} (hc : s.chosen = some k) (ha : (s.thread k).held = false) :
    step s = runThread (s.select k) := by
  simp [step, machineStep, hc, ha]

theorem step_held {s : State} {k : BitVec 7} (hc : s.chosen = some k) (hh : (s.thread k).held = true) :
    step s = .next (s.release k) := by
  simp [step, machineStep, hc, hh]

/-- A step whose word is known runs it or scans it (R96, R132). -/
theorem step_fetches {s : State} {k : BitVec 7} {w : Word16} (h : s.Fetches k w) :
    step s = match (s.thread k).mode with
      | .run => runWord (s.thread k).pc.toNat w (s.wordRead k)
      | .scan kind opened => scanWord kind opened (s.thread k).pc.toNat w (s.wordRead k) := by
  rw [step_awake h.chosen h.awake]
  have hcur := select_cur s k
  have e1 : (s.select k).accessCheck (wordAddress (s.thread k).pc.toNat) 2 = none := h.present
  unfold runThread
  rw [hcur]
  cases (s.thread k).mode <;> simp only [e1, h.word] <;> rfl

/-- A step of a thread that meets a code in scan mode (R132). -/
theorem step_scansCode {s : State} {k : BitVec 7} {w : Word16} {c : Code7} {kind : ScanKind} {opened : List OpenKind}
    (h : s.ScansCode k w c kind opened) : step s = scanCode c kind opened (s.fetched k w) := by
  rw [step_fetches h.fetches, h.scanning]
  simp only [scanWord, wordRead_cfg, h.instrWord, if_true, if_neg h.notLast, h.code]
  rfl

/-! ## The canonical form of memory under what stores outside the block instructions -/

/-- The word read from memory that is no peripheral's is the one that stands there, whoever reads it. -/
theorem fetches_plain {s : State} {k : BitVec 7} {w : Word16} (h : s.Fetches k w)
    (hp : s.touches .peripheral (wordAddress (s.thread k).pc.toNat) 2 = false) :
    s.wordAt (wordAddress (s.thread k).pc.toNat) = w := by
  rw [← h.word]
  exact (wordAt_congr (s := s) (t := s.select k) rfl rfl hp).symm

/-- A system function's stores keep the canonical form of memory. -/
theorem storeAll_wf : ∀ (bs : List (A28 × Byte)) {s : State}, s.mem.wf = true → (s.storeAll bs).mem.wf = true
  | [], _, h => h
  | (a, b) :: bs, s, h => by
    rw [State.storeAll]
    split
    · exact storeAll_wf bs (storeByte_wf a.toNat b h)
    · exact storeAll_wf bs h

/-- Placing an instruction keeps the canonical form of memory. -/
theorem placeCode_wf {s : State} (k : BitVec 7) (c : Code7) (h : s.mem.wf = true) : (s.placeCode k c).mem.wf = true :=
  Memory.write_wf _ _ (Memory.write_wf _ _ h)

/-! ## Who takes the step -/

theorem mem_threadIndices (k : BitVec 7) : k ∈ threadIndices := by
  revert k
  decide +kernel

theorem threadIndices_nodup : threadIndices.Nodup := by
  decide +kernel

theorem pickIndex_of_ne_nil (free : Nat) {ks : List (BitVec 7)} (h : ks ≠ []) : ∃ k, pickIndex free ks = some k := by
  match ks, h with
  | [k], _ => exact ⟨k, rfl⟩
  | a :: b :: r, _ =>
    have hlt : free % (a :: b :: r).length < (a :: b :: r).length := Nat.mod_lt _ (by simp)
    exact ⟨(a :: b :: r)[free % (a :: b :: r).length], by simp only [pickIndex]; rw [List.getElem?_eq_getElem hlt]⟩

theorem chosen_live {s : State} {k : BitVec 7} (h : s.chosen = some k) : (s.thread k).live = true := by
  have := mem_of_pickIndex h
  simp only [State.liveThreads, List.mem_filter] at this
  exact this.2

theorem chosen_of_live {s : State} {k : BitVec 7} (h : (s.thread k).live = true) : ∃ j, s.chosen = some j :=
  pickIndex_of_ne_nil _ (List.ne_nil_of_mem (List.mem_filter.2 ⟨mem_threadIndices k, h⟩))

theorem mem_freeThreads {s : State} {j : BitVec 7} : j ∈ s.freeThreads ↔
    j ≠ 0 ∧ j.toNat < s.cfg.maxThreads ∧ (s.thread j).live = false := by
  simp only [State.freeThreads, List.mem_filter, mem_threadIndices, true_and, Bool.and_eq_true, decide_eq_true_eq,
    Bool.not_eq_true', and_assoc]
  constructor
  · rintro ⟨h1, h2, h3⟩
    exact ⟨by rintro rfl; exact h1 rfl, h2, h3⟩
  · rintro ⟨h1, h2, h3⟩
    exact ⟨fun e => h1 (BitVec.eq_of_toNat_eq e), h2, h3⟩

/-! ## Properties of every next state -/

/-- `R` holds while a step is under way, `P` after it: beside what executing asks (`Closed`), what fetching and scanning do. -/
structure StepClosed (R P : State → Prop) : Prop where
  exec : ∀ i, Closed R P i
  restart : ∀ s c a, R s → P (s.restart c a)
  scan : ∀ s m, R s → (s.cur.mode.ok s.cfg.nestMax = true → m.ok s.cfg.nestMax = true) →
    R (s.setCur { s.cur with mode := m })
  slot : ∀ s a w, R s → R (s.atSlot a w)
  reached : ∀ s p, R s → R { s with platform := p }

section
variable {R P : State → Prop} {s : State}

theorem closed_pushConstant (S : StepClosed R P) (a : Nat) (h : R s) : Always P (pushConstant a s) := by
  unfold pushConstant
  refine closed_readVlnFrom (S.exec .nop) S.reached (fun c a t ht => (always_next _ _).2 (S.restart t c a ht)) (fun v n t ht => ?_)
    _ _ _ _ s h
  exact always_ite (fun hl => closed_jump (S.exec .nop) ((S.exec .nop).stack t _ ht (Or.inr (by simpa using hl))) _)
    fun _ => (always_next _ _).2 (S.restart t _ _ ht)

theorem closed_runWord (S : StepClosed R P) (a : Nat) (w : Word16) (h : R s) : Always P (runWord a w s) := by
  unfold runWord
  split
  · unfold runSlot
    refine always_ite (fun _ => trivial) fun _ => ?_
    split
    · exact closed_execAny S.exec _ (S.slot s a w h)
    · trivial
    · exact closed_raise (S.exec .nop) (S.slot s a w h) _
  · exact always_ite (fun _ => trivial) fun _ => closed_pushConstant S a h
  · exact always_ite (fun _ => trivial) fun _ => closed_pushConstant S a h
  · trivial

theorem closed_scanMode (S : StepClosed R P) {m : Mode} (h : R s)
    (hm : s.cur.mode.ok s.cfg.nestMax = true → m.ok s.cfg.nestMax = true) : Always P (.next (s.withMode m)) :=
  (S.exec .nop).done _ (S.scan s m h hm)

theorem closed_scanCode (S : StepClosed R P) {kind : ScanKind} {opened : List OpenKind} (c : Code7) (h : R s)
    (hm : s.cur.mode = .scan kind opened) : Always P (scanCode c kind opened s) := by
  have run : Always P (.next (s.withMode .run)) := closed_scanMode S h fun _ => rfl
  have stay : Always P (.next s) := (S.exec .nop).done s h
  have push : ∀ o, Always P (scanOpen o kind opened s) := fun o =>
    always_ite (fun hl => closed_scanMode S h fun _ => by simp [Mode.ok]; omega) fun _ => trivial
  have pull : ∀ o rest, opened = o :: rest → Always P (.next (s.withMode (.scan kind rest))) := fun o rest e =>
    closed_scanMode S h fun hok => by
      rw [hm, e] at hok
      simp [Mode.ok] at hok ⊢
      omega
  have close : Always P (scanClose kind opened s) := by
    unfold scanClose
    split
    · exact always_ite (fun _ => run) fun _ => trivial
    · exact pull _ _ rfl
    · trivial
  unfold scanCode
  split
  · exact push _
  · exact push _
  · exact push _
  · unfold scanEndIf
    split
    · exact always_ite (fun _ => run) fun _ => trivial
    · exact pull _ _ rfl
    · trivial
  · unfold scanElse
    split
    · refine always_ite (fun _ => closed_pushIf (S.exec .nop) h fun t ht => ?_) fun _ => trivial
      exact closed_scanMode S ht fun _ => rfl
    · exact stay
    · trivial
  · exact close
  · exact close
  · exact always_ite (fun _ => run) fun _ => stay
  · exact stay

theorem closed_runThread (S : StepClosed R P) (h : R s) : Always P (runThread s) := by
  unfold runThread
  split
  · exact S.restart _ _ _ h
  · have h2 := closed_afterRead (S.exec .nop) S.reached h (wordAddress s.cur.pc.toNat) 2
    split
    · exact closed_runWord S _ _ h2
    · next kind opened hm =>
      unfold scanWord
      refine always_ite (fun _ => always_ite (fun _ => trivial) fun _ => ?_) fun _ => ?_
      · exact closed_scanCode S _ (S.slot _ _ _ h2) (by rw [State.atSlot, cur_setCur]; simp [hm])
      · exact always_ite (fun _ => trivial) fun _ => always_ite (fun _ => trivial) fun _ => (S.exec .nop).jumped _ _ h2

/-- A step that a thread takes keeps what executing, fetching, scanning and the release of a held thread keep. -/
theorem closed_step (S : StepClosed R P) {k : BitVec 7} (hk : s.chosen = some k)
    (held : (s.thread k).held = true → P (s.release k)) (awake : (s.thread k).held = false → R (s.select k)) :
    Always P (step s) := by
  cases hh : (s.thread k).held with
  | true => rw [step_held hk hh]; exact held hh
  | false => rw [step_awake hk hh]; exact closed_runThread S (awake hh)

end

end Sys2Proof.Machine
end

