-- ==== Sys2Proof/Laws/Fairness.lean ====
section
/-!
SUPPORT. Laws of runs: what a step does to a thread it does not fall to, and when a run is fair.
-/
namespace Sys2Proof.Machine

/-- What another thread's step can do to a live thread: nothing, or end it, or restart the machine. -/
def LeftAlone (k : BitVec 7) (old : Thread) (t : State) : Prop :=
  t.thread k = old ∨ (t.thread k).live = false ∨ k = 0 ∧ ∃ u c a, t = State.restart u c a

/-- While another thread's step is under way. -/
structure Untouched (k : BitVec 7) (old : Thread) (s : State) : Prop where
  other : k ≠ s.pxr
  same : s.thread k = old
  live : old.live = true

section
variable {k : BitVec 7} {old : Thread} {s : State}

theorem Untouched.setCur (h : Untouched k old s) (t : Thread) : Untouched k old (s.setCur t) :=
  ⟨h.other, by rw [thread_setCur_of_ne _ _ h.other, h.same], h.live⟩

theorem restart_leftAlone (s : State) (c : Condition) (a : Nat) : LeftAlone k old (s.restart c a) := by
  by_cases hk : k = 0
  · exact .inr (.inr ⟨hk, s, c, a, rfl⟩)
  · exact .inr (.inl (by rw [restart_thread_of_ne _ _ _ hk]; rfl))

theorem untouched_closed (k : BitVec 7) (old : Thread) (i : Instr) : Closed (Untouched k old) (LeftAlone k old) i where
  done _ h := .inl h.same
  restart s c _ := restart_leftAlone s c _
  drawn _ _ h := ⟨h.other, h.same, h.live⟩
  stack _ _ h _ := h.setCur _
  jumped _ _ h := .inl (h.setCur _).same
  closed _ _ _ h _ := h.setCur _
  called _ _ h _ _ _ := h.setCur _
  opened _ h _ := h.setCur _
  ended _ _ h _ := .inl (by rw [State.endThread, thread_setThread_of_ne _ _ h.other, h.same])
  scanned _ _ _ h := h.setCur _
  held _ _ _ h := h.setCur _
  vars _ _ _ h := h.setCur _
  prio _ _ _ h _ := h.setCur _
  entered _ _ h := h.setCur _
  left _ _ _ _ h _ _ := h.setCur _
  begun _ s j a h hj := by
    have hne : k ≠ j := by
      rintro rfl
      have h1 := (mem_freeThreads.1 hj).2.2
      rw [h.same, h.live] at h1
      cases h1
    exact ⟨h.other, by rw [drawn_thread, thread_setThread_of_ne _ _ hne, h.same], h.live⟩
  alone _ s h := by
    by_cases hk : k = 0
    · subst hk; exact .inl (by rw [endOthers_thread_zero, h.same])
    · exact .inr (.inl (by rw [endOthers_thread_of_ne _ hk]; rfl))
  stored _ _ _ _ h _ := ⟨by rw [storeByte_pxr]; exact h.other, by rw [← h.same]; simp [State.thread], h.live⟩
  reached _ _ _ h := ⟨h.other, h.same, h.live⟩

theorem untouched_stepClosed (k : BitVec 7) (old : Thread) : StepClosed (Untouched k old) (LeftAlone k old) where
  exec i := untouched_closed k old i
  restart s c a _ := restart_leftAlone s c a
  scan _ _ h _ := h.setCur _
  slot _ _ _ h := h.setCur _
  reached _ _ h := ⟨h.other, h.same, h.live⟩

/-- A step that falls to another thread leaves a live thread alone, ends it, or restarts the machine (R21, R74, R333). -/
theorem step_leftAlone {t : State} {j : BitVec 7} (hc : s.chosen = some j) (hj : k ≠ j) (hl : (s.thread k).live = true)
    (e : step s = .next t) : LeftAlone k (s.thread k) t :=
  always_of_next (closed_step (untouched_stepClosed k (s.thread k)) hc
    (fun _ => .inl (thread_setThread_of_ne _ _ hj)) (fun _ => ⟨hj, select_thread_of_ne s hj, hl⟩)) e

end

/-- Every state of a run whose first state has a property that steps keep has it. -/
theorem run_keeps {run : Nat → State} {J : State → Prop} (hr : IsRun run) (h0 : J (run 0))
    (hs : ∀ s t, J s → step s = .next t → J t) : ∀ n, J (run n)
  | 0 => h0
  | n + 1 => hs _ _ (run_keeps hr h0 hs n) (hr n)

end Sys2Proof.Machine
end

