-- ==== Sys2Proof/Laws/PerInstr.lean ====
section
/-!
SUPPORT. A statement for each instruction as syntax: some 7-bit code stands for it, and that code decodes to it, under every value of the open
parameters that R3 and R100 admit.
-/
namespace Sys2Proof.Laws.SlotRoundTrip

/-- While some code stands for the instruction, encoding its slot and decoding it again gives the instruction. -/
def Statement (i : Instr) : Prop :=
  ∀ p : Params, p.wf = true → i.wf p = true →
    ∃ c, encodeCode p.sysfnOpcode i = some c ∧ decodeCode p.sysfnOpcode c = .ok i

/-- An instruction with a code of its own. -/
theorem of_fixedCode {i : Instr} {c : Code7} (h : i.fixedCode = some c) : Statement i := fun _ _ _ =>
  ⟨c, by simp [encodeCode, h], decodeCode_of_fixedCode h⟩

theorem sysfn : Statement .sysfn := fun p hp hi => by
  obtain ⟨o, ho⟩ := Option.isSome_iff_exists.1 hi
  refine ⟨o, ho, ?_⟩
  rw [decodeCode_unassigned (sysfnOpcode_unassigned hp ho), ho]
  simp

theorem nop : Statement .nop := of_fixedCode rfl
theorem delay : Statement .delay := of_fixedCode rfl
theorem doMark : Statement .doMark := of_fixedCode rfl
theorem skip : Statement .skip := of_fixedCode rfl
theorem ifMark : Statement .ifMark := of_fixedCode rfl
theorem elseMark : Statement .elseMark := of_fixedCode rfl
theorem endIf : Statement .endIf := of_fixedCode rfl
theorem repeatMark : Statement .repeatMark := of_fixedCode rfl
theorem repIf : Statement .repIf := of_fixedCode rfl
theorem untilMark : Statement .untilMark := of_fixedCode rfl
theorem whileMark : Statement .whileMark := of_fixedCode rfl
theorem breakLoop : Statement .breakLoop := of_fixedCode rfl
theorem again : Statement .again := of_fixedCode rfl
theorem call : Statement .call := of_fixedCode rfl
theorem acall : Statement .acall := of_fixedCode rfl
theorem ntcall : Statement .ntcall := of_fixedCode rfl
theorem ntacall : Statement .ntacall := of_fixedCode rfl
theorem ret : Statement .ret := of_fixedCode rfl
theorem maxthds : Statement .maxthds := of_fixedCode rfl
theorem threads : Statement .threads := of_fixedCode rfl
theorem endAll : Statement .endAll := of_fixedCode rfl
theorem endThread : Statement .endThread := of_fixedCode rfl
theorem setpr : Statement .setpr := of_fixedCode rfl
theorem enter : Statement .enter := of_fixedCode rfl
theorem leave : Statement .leave := of_fixedCode rfl
theorem empty : Statement .empty := of_fixedCode rfl
theorem depth : Statement .depth := of_fixedCode rfl
theorem drop : Statement .drop := of_fixedCode rfl
theorem dup : Statement .dup := of_fixedCode rfl
theorem swap : Statement .swap := of_fixedCode rfl
theorem rot : Statement .rot := of_fixedCode rfl
theorem overNth : Statement .overNth := of_fixedCode rfl
theorem readVar : Statement .readVar := of_fixedCode rfl
theorem writeVar : Statement .writeVar := of_fixedCode rfl
theorem com : Statement .com := of_fixedCode rfl
theorem not : Statement .not := of_fixedCode rfl
theorem and : Statement .and := of_fixedCode rfl
theorem or : Statement .or := of_fixedCode rfl
theorem xor : Statement .xor := of_fixedCode rfl
theorem shl : Statement .shl := of_fixedCode rfl
theorem shr : Statement .shr := of_fixedCode rfl
theorem lt : Statement .lt := of_fixedCode rfl
theorem le : Statement .le := of_fixedCode rfl
theorem eq : Statement .eq := of_fixedCode rfl
theorem ne : Statement .ne := of_fixedCode rfl
theorem ge : Statement .ge := of_fixedCode rfl
theorem gt : Statement .gt := of_fixedCode rfl
theorem add : Statement .add := of_fixedCode rfl
theorem sub : Statement .sub := of_fixedCode rfl
theorem mul : Statement .mul := of_fixedCode rfl
theorem div : Statement .div := of_fixedCode rfl
theorem modulo : Statement .modulo := of_fixedCode rfl
theorem inc : Statement .inc := of_fixedCode rfl
theorem dec : Statement .dec := of_fixedCode rfl
theorem random : Statement .random := of_fixedCode rfl
theorem fill : Statement .fill := of_fixedCode rfl
theorem diff : Statement .diff := of_fixedCode rfl
theorem copy : Statement .copy := of_fixedCode rfl
theorem lenStr : Statement .lenStr := of_fixedCode rfl
theorem scanStr : Statement .scanStr := of_fixedCode rfl
theorem diffStr : Statement .diffStr := of_fixedCode rfl
theorem copyStr : Statement .copyStr := of_fixedCode rfl
theorem rdvln : Statement .rdvln := of_fixedCode rfl
theorem rd32 : Statement .rd32 := of_fixedCode rfl
theorem rd16 : Statement .rd16 := of_fixedCode rfl
theorem rd8 : Statement .rd8 := of_fixedCode rfl
theorem wrvln : Statement .wrvln := of_fixedCode rfl
theorem wr32 : Statement .wr32 := of_fixedCode rfl
theorem wr16 : Statement .wr16 := of_fixedCode rfl
theorem wr8 : Statement .wr8 := of_fixedCode rfl

end Sys2Proof.Laws.SlotRoundTrip
end

