-- ==== Sys2Proof/Tests/Slice0.lean ====
section
/-!
SUPPORT. Tests. The expected results are the vectors of spec/95_test_vectors.md, or worked out by hand from the cited rule; every word is written out
from the layout `$C000 | slot1 << 7 | slot0` of spec/30_encoding.md R92 under the placeholder type map. Then, for each statement with hypotheses, a
state and operands that meet them.
-/
namespace Sys2Proof.Tests
open Sys2Proof.Machine

-- One theorem at a time: a hundred waiting at once would ask for a hundred thread stacks.
set_option Elab.async false

/-! ## Well-formedness: the standard parameters pass, and each check refuses a term -/

theorem test_wf_standard : Params.standard.wf = true := by decide +kernel
theorem test_wf_no_threads : ({ Params.standard with maxThreads := 0 } : Params).wf = false := by decide +kernel
theorem test_wf_too_many_threads : ({ Params.standard with maxThreads := 129 } : Params).wf = false := by decide +kernel
theorem test_wf_small_data_stack : ({ Params.standard with dstackSize := 1 } : Params).wf = false := by decide +kernel
theorem test_wf_no_call_stack : ({ Params.standard with cstackSize := 0 } : Params).wf = false := by decide +kernel
theorem test_wf_class_twice :
    ({ Params.standard with typeMap := ⟨.instr, .vlnMore, .reserved, .instr⟩ } : Params).wf = false := by decide +kernel
theorem test_wf_region_beyond_space :
    ({ Params.standard with regions := [⟨0, 2, .ram⟩, ⟨2 ^ 28 - 1, 2, .ram⟩] } : Params).wf = false := by decide +kernel
theorem test_wf_nothing_at_origin : ({ Params.standard with regions := [⟨1, 16, .ram⟩] } : Params).wf = false := by decide +kernel
theorem test_wf_sysfn_takes_over : ({ Params.standard with sysfnOpcode := some 0x17 } : Params).wf = false := by decide +kernel
theorem test_wf_sysfn_code_low : ({ Params.standard with sysfnCodes := [0x7f] } : Params).wf = false := by decide +kernel
theorem test_wf_sysfn_without_code : Instr.wf { Params.standard with sysfnOpcode := none } .sysfn = false := by decide +kernel

/-! ## Decoding: every instruction's code in slot 0 with NOP in slot 1, from its entry's code line (R134 to R300) -/

theorem test_decode_control :
    decodeWord Params.standard false 0xFFFF = .ok .nop ∧ decodeWord Params.standard false 0xFF9C = .ok .delay ∧
    decodeWord Params.standard false 0xFFF0 = .ok .doMark ∧ decodeWord Params.standard false 0xFFF1 = .ok .skip ∧
    decodeWord Params.standard false 0xFFFC = .ok .ifMark ∧ decodeWord Params.standard false 0xFFFE = .ok .elseMark ∧
    decodeWord Params.standard false 0xFFFD = .ok .endIf ∧ decodeWord Params.standard false 0xFFF8 = .ok .repeatMark ∧
    decodeWord Params.standard false 0xFFFB = .ok .repIf ∧ decodeWord Params.standard false 0xFFF9 = .ok .untilMark ∧
    decodeWord Params.standard false 0xFFFA = .ok .whileMark ∧ decodeWord Params.standard false 0xFF83 = .ok .breakLoop ∧
    decodeWord Params.standard false 0xFF84 = .ok .again := by decide +kernel

theorem test_decode_calls :
    decodeWord Params.standard false 0xFF85 = .ok .call ∧ decodeWord Params.standard false 0xFF86 = .ok .acall ∧
    decodeWord Params.standard false 0xFF8D = .ok .ntcall ∧ decodeWord Params.standard false 0xFF8E = .ok .ntacall ∧
    decodeWord Params.standard false 0xFF87 = .ok .ret ∧ decodeWord Params.standard false 0xFF88 = .ok .maxthds ∧
    decodeWord Params.standard false 0xFF89 = .ok .threads ∧ decodeWord Params.standard false 0xFF8B = .ok .endAll ∧
    decodeWord Params.standard false 0xFF8C = .ok .endThread ∧ decodeWord Params.standard false 0xFF81 = .ok .setpr ∧
    decodeWord Params.standard false 0xFF98 = .ok .enter ∧ decodeWord Params.standard false 0xFF99 = .ok .leave := by
  decide +kernel

theorem test_decode_stack :
    decodeWord Params.standard false 0xFF91 = .ok .empty ∧ decodeWord Params.standard false 0xFF92 = .ok .depth ∧
    decodeWord Params.standard false 0xFF93 = .ok .drop ∧ decodeWord Params.standard false 0xFF94 = .ok .dup ∧
    decodeWord Params.standard false 0xFF95 = .ok .swap ∧ decodeWord Params.standard false 0xFF96 = .ok .rot ∧
    decodeWord Params.standard false 0xFF97 = .ok .overNth ∧ decodeWord Params.standard false 0xFF9A = .ok .readVar ∧
    decodeWord Params.standard false 0xFF9B = .ok .writeVar := by decide +kernel

theorem test_decode_logic :
    decodeWord Params.standard false 0xFFA0 = .ok .com ∧ decodeWord Params.standard false 0xFFA1 = .ok .not ∧
    decodeWord Params.standard false 0xFFA2 = .ok .and ∧ decodeWord Params.standard false 0xFFA3 = .ok .or ∧
    decodeWord Params.standard false 0xFFA4 = .ok .xor ∧ decodeWord Params.standard false 0xFFA6 = .ok .shl ∧
    decodeWord Params.standard false 0xFFA7 = .ok .shr := by decide +kernel

theorem test_decode_arith :
    decodeWord Params.standard false 0xFFA8 = .ok .lt ∧ decodeWord Params.standard false 0xFFA9 = .ok .le ∧
    decodeWord Params.standard false 0xFFAA = .ok .eq ∧ decodeWord Params.standard false 0xFFAB = .ok .ne ∧
    decodeWord Params.standard false 0xFFAC = .ok .ge ∧ decodeWord Params.standard false 0xFFAD = .ok .gt ∧
    decodeWord Params.standard false 0xFFC0 = .ok .add ∧ decodeWord Params.standard false 0xFFC2 = .ok .sub ∧
    decodeWord Params.standard false 0xFFC4 = .ok .mul ∧ decodeWord Params.standard false 0xFFC6 = .ok .div ∧
    decodeWord Params.standard false 0xFFC7 = .ok .modulo ∧ decodeWord Params.standard false 0xFFC8 = .ok .inc ∧
    decodeWord Params.standard false 0xFFC9 = .ok .dec ∧ decodeWord Params.standard false 0xFFCB = .ok .random := by
  decide +kernel

theorem test_decode_memory :
    decodeWord Params.standard false 0xFFD0 = .ok .fill ∧ decodeWord Params.standard false 0xFFD2 = .ok .diff ∧
    decodeWord Params.standard false 0xFFD3 = .ok .copy ∧ decodeWord Params.standard false 0xFFD8 = .ok .lenStr ∧
    decodeWord Params.standard false 0xFFD9 = .ok .scanStr ∧ decodeWord Params.standard false 0xFFDA = .ok .diffStr ∧
    decodeWord Params.standard false 0xFFDB = .ok .copyStr ∧ decodeWord Params.standard false 0xFFE0 = .ok .rdvln ∧
    decodeWord Params.standard false 0xFFE4 = .ok .rd32 ∧ decodeWord Params.standard false 0xFFE5 = .ok .rd16 ∧
    decodeWord Params.standard false 0xFFE6 = .ok .rd8 ∧ decodeWord Params.standard false 0xFFE8 = .ok .wrvln ∧
    decodeWord Params.standard false 0xFFEC = .ok .wr32 ∧ decodeWord Params.standard false 0xFFED = .ok .wr16 ∧
    decodeWord Params.standard false 0xFFEE = .ok .wr8 := by decide +kernel

/-- SYSFN under SYSFN_OPCODE $00, and $17 stays OVER's (R100, R304). -/
theorem test_decode_sysfn :
    decodeWord Params.standard false 0xFF80 = .ok .sysfn ∧
    decodeWord { Params.standard with sysfnOpcode := some 0x77 } false 0xFFF7 = .ok .sysfn ∧
    decodeWord { Params.standard with sysfnOpcode := none } false 0xFF80 = .error (.invalidOrSysfn 0x00) ∧
    decodeWord Params.standard false 0xFF97 = .ok .overNth := by decide +kernel

/-- Slot 1 is bits 13..7 (R92): words of spec/95_test_vectors.md section 2.1. -/
theorem test_decode_slot_one :
    decodeWord Params.standard true 0xC995 = .ok .drop ∧ decodeWord Params.standard true 0xCA78 = .ok .dup ∧
    decodeWord Params.standard true 0xE01A = .ok .add := by decide +kernel

theorem test_decode_bytes :
    decodeBytes Params.standard false [0xED, 0xFF, 0x01] = .ok (.wr16, [0x01]) ∧
    decodeBytes Params.standard false [0xED] = .error .tooShort := by decide +kernel

/-- The 70 codes of R98 and the 58 of R99 are all 128, without a repeat. -/
theorem test_codes_partition :
    (opcodeRows.map Prod.fst ++ unassignedCodes).Nodup ∧ (opcodeRows.map Prod.fst ++ unassignedCodes).length = 128 ∧
    ∀ c ∈ opcodeRows.map Prod.fst ++ unassignedCodes, c < 128 := by decide +kernel

theorem test_decodeTableWord :
    decodeTableWord 7 0x47 = some .modulo ∧ decodeTableWord 7 0x17 = some .overNth ∧ decodeTableWord 7 0x02 = none ∧
    decodeTableWord 7 0x80 = none := by decide +kernel

/-- Words of R93 and R95: $12345 and 2^42. -/
theorem test_vlnWords :
    vlnWords TypeMap.placeholder 0x12345 = [0x6345, 0x0004] ∧
    vlnWords TypeMap.placeholder 0x40000000000 = [0x4000, 0x4000, 0x4000, 0x0001] := by decide +kernel

/-! ## Small states -/

/-- Thread 0 alone, executing the instruction at an address, with a data stack. -/
def executing (here : A28) (xs : List W56) : State :=
  State.reset.setThread 0 { Thread.coldStart with pc := here + 1, stack := xs }

/-- The same with a control stack. -/
def nested (here : A28) (xs : List W56) (es : List CtlEntry) : State :=
  State.reset.setThread 0 { Thread.coldStart with pc := here + 1, stack := xs, ctl := es }

/-- The same with memory. -/
def remembering (here : A28) (xs : List W56) (m : Memory) : State :=
  { executing here xs with mem := m }

/-- Thread 0 alone, about to fetch. -/
def fetching (pc : A28) (xs : List W56) (mode : Mode) (m : Memory) : State :=
  { State.reset.setThread 0 { Thread.coldStart with pc := pc, stack := xs, mode := mode } with mem := m }

/-- Thread 2 executing beside thread 0. -/
def second (here : A28) (xs : List W56) : State :=
  { (executing 0x100 []).setThread 2 { Thread.coldStart with pc := here + 1, stack := xs } with pxr := 2 }

/-- The data stack after an outcome. -/
def stackOf : Out → Option (List W56)
  | .next t => some t.cur.stack
  | _ => none

/-- Pc, control stack and mode after an outcome. -/
def flowOf : Out → Option (Nat × List CtlEntry × Mode)
  | .next t => some (t.cur.pc.toNat, t.cur.ctl, t.cur.mode)
  | _ => none

/-- Bytes of memory after an outcome. -/
def bytesOf (a n : Nat) : Out → Option (List Byte)
  | .next t => some (t.bytesAt a n)
  | _ => none

/-- Why an outcome is no next state. -/
def refusalOf : Out → Option Refusal
  | .refused r => some r
  | _ => none

/-- Whether a thread is live after an outcome. -/
def liveAfter (k : BitVec 7) : Out → Option Bool
  | .next t => some (t.thread k).live
  | _ => none

/-- RAM below $1000 and 256 bytes of ROM there. -/
def romAbove : Params :=
  { Params.standard with regions := [⟨0, 0x1000, .ram⟩, ⟨0x1000, 0x100, .rom⟩] }

/-! ## Instructions: spec/95_test_vectors.md sections 1 and 2 -/

theorem test_nop : stackOf (exec .nop (executing 0x40 [7, 9])) = some [7, 9] := by decide +kernel
theorem test_do : flowOf (exec .doMark (executing 0x40 [])) = some (0x41, [], .run) := by decide +kernel
theorem test_skip : flowOf (exec .skip (executing 4 [0x12])) = some (0x18, [], .scan .skSkip []) := by decide +kernel
theorem test_skip_odd : stackOf (exec .skip (executing 4 [3])) = some [0x102, 4] := by decide +kernel
theorem test_if : flowOf (exec .ifMark (executing 4 [0x80000000000000])) = some (5, [.ifE], .run) := by decide +kernel
theorem test_if_zero : flowOf (exec .ifMark (executing 4 [0])) = some (5, [], .scan .skIf []) := by decide +kernel
theorem test_else : flowOf (exec .elseMark (nested 4 [] [.ifE])) = some (5, [], .scan .skElse []) := by decide +kernel
theorem test_else_alone : stackOf (exec .elseMark (nested 0x40 [] [.callE 0x22])) = some [0x10a, 0x40] := by decide +kernel
theorem test_endIf : flowOf (exec .endIf (nested 4 [] [.ifE, .callE 0x22])) = some (5, [.callE 0x22], .run) := by decide +kernel
theorem test_repeat_partner : refusalOf (exec .repeatMark
    ((executing 0xe []).setThread 0 { Thread.coldStart with pc := 0xf, icr := payloadOf 0xCA78 })) = some .partnerNotNop := by
  decide +kernel
theorem test_repeat_slot_one : flowOf (exec .repeatMark
    ((executing 0xf []).setThread 0 { Thread.coldStart with pc := 0x10, icr := payloadOf 0xFC7F })) =
      some (0x10, [.loopE 0x10], .run) := by decide +kernel
theorem test_repIf : flowOf (exec .repIf
    ((executing 6 []).setThread 0 { Thread.coldStart with pc := 7, stack := [3], icr := payloadOf 0xFFFB })) =
      some (7, [.loopE 8], .run) := by decide +kernel
theorem test_until_back : flowOf (exec .untilMark (nested 0x2b [0] [.loopE 0x10])) = some (0x10, [.loopE 0x10], .run) := by
  decide +kernel
theorem test_until_done : flowOf (exec .untilMark (nested 0x2b [1] [.loopE 0x10])) = some (0x2c, [], .run) := by decide +kernel
theorem test_while_back : flowOf (exec .whileMark (nested 0x2b [7] [.loopE 0x10])) = some (0x10, [.loopE 0x10], .run) := by
  decide +kernel
theorem test_break : flowOf (exec .breakLoop (nested 0x2b [1] [.loopE 0x10])) = some (0x2c, [], .scan .skLoop []) := by
  decide +kernel
theorem test_again : flowOf (exec .again (nested 0x2b [5] [.loopE 0x10])) = some (0x10, [.loopE 0x10], .run) := by decide +kernel
theorem test_call : flowOf (exec .call (executing 0x1000 [0x400])) = some (0xc02, [.callE 0x1002], .run) := by decide +kernel
theorem test_call_slot_one : flowOf (exec .call (executing 0x1001 [0x400])) = some (0xc02, [.callE 0x1002], .run) := by
  decide +kernel
theorem test_acall : flowOf (exec .acall (executing 0x1000 [0x400])) = some (0x400, [.callE 0x1002], .run) := by decide +kernel
theorem test_ntcall : ∃ t, exec .ntcall { executing 0x16 [0x12] with cfg := { Params.standard with maxThreads := 2 } } = .next t ∧
    (t.thread 1).live = true ∧ (t.thread 1).pc = 6 ∧ t.cur.stack = [] ∧ t.cur.pc = 0x17 := ⟨_, rfl, by decide +kernel⟩
theorem test_ret : flowOf (exec .ret (nested 0x40 [] [.callE 0x1002])) = some (0x1002, [], .run) := by decide +kernel
theorem test_ret_empty : stackOf (exec .ret (executing 0x40 [])) = some [0x108, 0x40] := by decide +kernel
theorem test_maxthds : stackOf (exec .maxthds { executing 0x40 [] with cfg := { Params.standard with maxThreads := 8 } }) =
    some [8] := by decide +kernel
theorem test_threads : stackOf (exec .threads (second 0x40 [])) = some [2] := by decide +kernel
theorem test_endAll : liveAfter 2 (exec .endAll (second 0x40 [])) = some false ∧
    liveAfter 0 (exec .endAll (second 0x40 [])) = some true := by decide +kernel
theorem test_end : liveAfter 2 (exec .endThread (second 0x40 [])) = some false := by decide +kernel
theorem test_end_zero : flowOf (exec .endThread (nested 0x40 [] [.callE 0x22])) = some (0x22, [], .run) := by decide +kernel
theorem test_setpr : ∃ t, exec .setpr (executing 0x40 [3]) = .next t ∧ t.cur.prio = 3 ∧ t.cur.stack = [] :=
  ⟨_, rfl, by decide +kernel⟩
theorem test_enter : ∃ t, exec .enter (executing 0x40 [7, 9]) = .next t ∧ t.cur.snap = some 2 := ⟨_, rfl, by decide +kernel⟩
theorem test_leave : stackOf (exec .leave
    ((executing 0x40 []).setThread 0 { Thread.coldStart with pc := 0x41, stack := [1, 2, 3, 7, 9], snap := some 2 })) =
      some [7, 9] := by decide +kernel
theorem test_empty : stackOf (exec .empty (executing 0x40 [0x101, 0])) = some [] := by decide +kernel
theorem test_depth : stackOf (exec .depth (executing 0x40 [7, 9])) = some [3, 7, 9] := by decide +kernel
theorem test_drop : stackOf (exec .drop (executing 0x40 [7, 9])) = some [9] := by decide +kernel
theorem test_dup : stackOf (exec .dup (executing 0x40 [7, 9])) = some [7, 7, 9] := by decide +kernel
theorem test_swap : stackOf (exec .swap (executing 0x40 [2, 30, 20, 10])) = some [10, 20, 30] := by decide +kernel
theorem test_swap_index : stackOf (exec .swap (executing 0x40 [0])) = some [0x104, 0x40] := by decide +kernel
theorem test_rot : stackOf (exec .rot (executing 0x40 [30, 20, 10, 5])) = some [10, 30, 20, 5] := by decide +kernel
theorem test_over : stackOf (exec .overNth (executing 0x40 [1, 3, 7])) = some [7, 3, 7] := by decide +kernel
theorem test_over_index : stackOf (exec .overNth (executing 0x40 [2, 3, 7])) = some [0x104, 0x40] := by decide +kernel
theorem test_variables : ∃ t, exec .writeVar (executing 0x40 [7, 0xffffffffffffff]) = .next t ∧
    stackOf (exec .readVar (t.withStack [7])) = some [0xffffffffffffff] := ⟨_, rfl, by decide +kernel⟩
theorem test_com : stackOf (exec .com (executing 0x40 [1])) = some [0xffffffffffffff] := by decide +kernel
theorem test_not : stackOf (exec .not (executing 0x40 [1])) = some [0xfffffffffffffe] := by decide +kernel
theorem test_and : stackOf (exec .and (executing 0x40 [0x0ff0, 0xff0f])) = some [0x0f00] := by decide +kernel
theorem test_or : stackOf (exec .or (executing 0x40 [0x0ff0, 0xff0f])) = some [0xffff] := by decide +kernel
theorem test_xor : stackOf (exec .xor (executing 0x40 [0x0ff0, 0xff0f])) = some [0xf0ff] := by decide +kernel
theorem test_shl : stackOf (exec .shl (executing 0x40 [55, 3])) = some [0x80000000000000] := by decide +kernel
theorem test_shl_56 : stackOf (exec .shl (executing 0x40 [56, 1])) = some [0] := by decide +kernel
theorem test_shr : stackOf (exec .shr (executing 0x40 [1, 0xffffffffffffff])) = some [0x7fffffffffffff] := by decide +kernel
theorem test_lt : stackOf (exec .lt (executing 0x40 [20, 10])) = some [1] := by decide +kernel
theorem test_lt_signed : stackOf (exec .lt
    { executing 0x40 [1, 0xffffffffffffff] with cfg := { Params.standard with signedArith := true } }) = some [1] := by
  decide +kernel
theorem test_le : stackOf (exec .le (executing 0x40 [5, 6])) = some [0] := by decide +kernel
theorem test_eq : stackOf (exec .eq (executing 0x40 [5, 5])) = some [1] := by decide +kernel
theorem test_ne : stackOf (exec .ne (executing 0x40 [5, 5])) = some [0] := by decide +kernel
theorem test_ge : stackOf (exec .ge (executing 0x40 [20, 30])) = some [1] := by decide +kernel
theorem test_gt : stackOf (exec .gt (executing 0x40 [5, 5])) = some [0] := by decide +kernel
theorem test_add : stackOf (exec .add (executing 0x40 [1, 0xffffffffffffff])) = some [0] := by decide +kernel
theorem test_sub : stackOf (exec .sub (executing 0x40 [30, 20])) = some [0xfffffffffffff6] := by decide +kernel
theorem test_mul : stackOf (exec .mul (executing 0x40 [2, 0xffffffffffffff])) = some [0xfffffffffffffe] := by decide +kernel
theorem test_div : stackOf (exec .div (executing 0x40 [7, 90])) = some [12] := by decide +kernel
theorem test_div_zero : stackOf (exec .div (executing 0x40 [0, 5])) = some [0x109, 0x40] := by decide +kernel
theorem test_mod : stackOf (exec .modulo (executing 0x40 [7, 90])) = some [6] := by decide +kernel
theorem test_inc : stackOf (exec .inc (executing 0x40 [0xffffffffffffff])) = some [0] := by decide +kernel
theorem test_dec : stackOf (exec .dec (executing 0x40 [0])) = some [0xffffffffffffff] := by decide +kernel
theorem test_fill : bytesOf 0x1ff 5 (exec .fill (executing 0x40 [0x1AA, 3, 0x200])) = some [0, 0xAA, 0xAA, 0xAA, 0] := by
  decide +kernel
theorem test_fill_top : ((match exec .fill (executing 0x40 [0, 2, 0xfffffff]) with
    | .next t => t.cur.stack.head? | _ => none) : Option W56) = some 0x103 := by decide +kernel
/-- R261: `$FE` bytes of ROM and two that do not exist: $103 before any write; all of it ROM: refused (R62). -/
theorem test_fill_rom :
    ((match exec .fill { executing 0x40 [0, 0x100, 0x1002] with cfg := romAbove } with
      | .next t => t.cur.stack.head? | _ => none) : Option W56) = some 0x103 ∧
    refusalOf (exec .fill { executing 0x40 [0, 0x100, 0x1000] with cfg := romAbove }) = some .readOnlyLocation := by decide +kernel
theorem test_diff : stackOf (exec .diff (remembering 0x40 [4, 0x300, 0x200]
    [(0x200, 1), (0x201, 2), (0x202, 3), (0x203, 4), (0x300, 1), (0x301, 2), (0x302, 9), (0x303, 4)])) = some [2] := by
  decide +kernel
theorem test_copy_up : bytesOf 0x200 4 (exec .copy (remembering 0x40 [3, 0x201, 0x200]
    [(0x200, 1), (0x201, 2), (0x202, 3), (0x203, 4)])) = some [1, 1, 2, 3] := by decide +kernel
theorem test_copy_down : bytesOf 0x200 4 (exec .copy (remembering 0x40 [3, 0x200, 0x201]
    [(0x200, 1), (0x201, 2), (0x202, 3), (0x203, 4)])) = some [2, 3, 4, 4] := by decide +kernel
theorem test_lenStr : stackOf (exec .lenStr (remembering 0x40 [0x200] [(0x200, 0x41), (0x201, 0x42)])) = some [2] := by
  decide +kernel
theorem test_scanStr : stackOf (exec .scanStr (remembering 0x40 [0x300, 0x200]
    [(0x200, 0x48), (0x201, 0x45), (0x202, 0x4C), (0x203, 0x4C), (0x204, 0x4F), (0x300, 0x4C), (0x301, 0x4F)])) =
      some [0x203] := by decide +kernel
theorem test_scanStr_empty : stackOf (exec .scanStr (remembering 0x40 [0x300, 0x200] [(0x200, 0x48)])) = some [0x200] := by
  decide +kernel
theorem test_diffStr : stackOf (exec .diffStr (remembering 0x40 [0x300, 0x200]
    [(0x200, 0x41), (0x201, 0x42), (0x300, 0x41), (0x301, 0x42), (0x302, 0x43)])) = some [2] := by decide +kernel
theorem test_copyStr : bytesOf 0x200 4 (exec .copyStr (remembering 0x40 [0x201, 0x200] [(0x200, 0x48), (0x201, 0x49)])) =
    some [0x48, 0x48, 0x49, 0] := by decide +kernel
theorem test_rdvln : stackOf (exec .rdvln (remembering 0x40 [0x200] [(0x200, 0x45), (0x201, 0x63), (0x202, 4)])) =
    some [0x12345, 0x204] := by decide +kernel
theorem test_rd32 : stackOf (exec .rd32 (remembering 0x40 [0x200]
    [(0x200, 0x44), (0x201, 0x33), (0x202, 0x22), (0x203, 0x11)])) = some [0x11223344] := by decide +kernel
theorem test_rd16_odd : stackOf (exec .rd16 (executing 0x40 [0x201])) = some [0x102, 0x40] := by decide +kernel
theorem test_rd16_top : stackOf (exec .rd16 (executing 0x40 [0xfffffff])) = some [0x103, 0x40] := by decide +kernel
theorem test_rd8 : stackOf (exec .rd8 (remembering 0x40 [0x201] [(0x201, 0x63)])) = some [0x63] := by decide +kernel
theorem test_wrvln : bytesOf 0x200 4 (exec .wrvln (executing 0x40 [0x200, 0x12345])) = some [0x45, 0x63, 4, 0] := by
  decide +kernel
/-- `$4000 $FFE WRVLN` with $1000 not VALID: the first word stays written (R95, R272). -/
theorem test_wrvln_partial : bytesOf 0xFFE 4 (exec .wrvln
    { executing 0x40 [0xFFE, 0x4000] with cfg := { Params.standard with regions := [⟨0, 0x1000, .ram⟩] } }) =
      some [0x00, 0x40, 0, 0] := by decide +kernel
theorem test_wr32 : bytesOf 0x200 5 (exec .wr32 (executing 0x40 [0x200, 0xAA11223344])) = some [0x44, 0x33, 0x22, 0x11, 0] := by
  decide +kernel
theorem test_wr16 : bytesOf 0x200 2 (exec .wr16 (executing 0x40 [0x200, 0x1FF91])) = some [0x91, 0xFF] := by decide +kernel
/-- R356: WR16 into its own word, refused from slot 0 and allowed from slot 1. -/
theorem test_wr16_own_word : refusalOf (exec .wr16 (executing 0x10 [0x10, 1])) = some .storeIntoOwnWord ∧
    bytesOf 0x10 1 (exec .wr16 (executing 0x11 [0x10, 1])) = some [1] := by decide +kernel
theorem test_wr8 : bytesOf 0x100 2 (exec .wr8 (remembering 0x40 [0x101, 0x15A] [(0x100, 0x77)])) = some [0x77, 0x5A] := by
  decide +kernel
theorem test_sysfn : stackOf (exec .sysfn (executing 0x40 [0x40, 3, 5])) = some [8] := by decide +kernel
/-- R356 exempts no store: a system function's into the word at $40, from slot 0 and from slot 1. -/
theorem test_systemFunction_own_word :
    refusalOf (systemFunction ⟨0, [], 0, [(0x41, 7)], none⟩ (executing 0x40 [])) = some .storeIntoOwnWord ∧
    bytesOf 0x41 1 (systemFunction ⟨0, [], 0, [(0x41, 7)], none⟩ (executing 0x41 [])) = some [7] := by decide +kernel
theorem test_sysfn_conditions : stackOf (exec .sysfn (executing 0x40 [0x80, 1])) = some [1] ∧
    stackOf (exec .sysfn (executing 0x40 [0x02])) = some [0x100, 0x40] ∧
    stackOf (exec .sysfn (executing 0x40 [0x00, 0x00])) = some [0x106, 0x40] := by decide +kernel

/-! ## Steps -/

theorem test_step_placed : stackOf (step (State.reset.withFetchWord 7 0x12)) = some [3, 0x101, 0] := by decide +kernel
theorem test_step_constant : ∃ t, step (fetching 2 [] .run [(2, 0x45), (3, 0x63), (4, 4)]) = .next t ∧
    t.cur.stack = [0x12345] ∧ t.cur.pc = 6 := ⟨_, rfl, by decide +kernel⟩
theorem test_step_malformed : refusalOf (step (fetching 2 [] .run [(3, 0x40), (4, 0xFF), (5, 0xFF)])) = some .malformedVln := by
  decide +kernel
theorem test_step_invalid : stackOf (step (fetching 2 [] .run [(2, 0x82), (3, 0xFF)])) = some [0x100, 2] := by decide +kernel
theorem test_step_scan_ends : flowOf (step (fetching 0x18 [] (.scan .skSkip []) [(0x18, 0xF0), (0x19, 0xFF)])) =
    some (0x19, [], .run) := by decide +kernel
theorem test_step_scan_constant : flowOf (step (fetching 0x10 [] (.scan .skSkip []) [(0x10, 0x23), (0x11, 1)])) =
    some (0x12, [], .scan .skSkip []) := by decide +kernel

/-! ## Witnesses: for each statement with hypotheses, values that meet them, clause by clause -/

/-- Under the standard parameters all 2^28 bytes are RAM. -/
theorem ram_standard {s : State} (h : s.cfg = Params.standard) {a n : Nat} (hr : a + n ≤ 2 ^ 28) : s.Ram a n := by
  intro i hi
  rw [h]
  simp [Params.kindAt, Params.standard, Region.holds]
  omega

theorem plain_standard {s : State} (h : s.cfg = Params.standard) {a n : Nat} (hr : a + n ≤ 2 ^ 28) : s.Plain a n :=
  ram_plain (ram_standard h hr)

/-- A thread fetches a word, from facts that evaluate. -/
theorem fetches_of {s : State} {k : BitVec 7} {w : Word16}
    (h : s.chosen = some k ∧ (s.thread k).held = false ∧ s.accessCheck (wordAddress (s.thread k).pc.toNat) 2 = none ∧
      (s.select k).wordAt (wordAddress (s.thread k).pc.toNat) = w) : s.Fetches k w :=
  ⟨h.1, h.2.1, h.2.2.1, h.2.2.2⟩

/-- A word and the words after it stand in memory under the standard parameters. -/
theorem holds_cons {s : State} {w : Word16} {ws : List Word16} {a : Nat} (h : s.cfg = Params.standard) (ha : a + 2 ≤ 2 ^ 28)
    (hw : s.wordAt a = w) (hr : s.HoldsWords ws (a + 2)) : s.HoldsWords (w :: ws) a :=
  ⟨plain_standard h ha, ha, hw, hr⟩

/-- The standard parameters with another memory map. -/
def mapped (rs : List Region) : Params :=
  { Params.standard with regions := rs }

/-- RAM below $1000, 256 bytes of ROM there, nothing from $1100 on, 256 peripheral locations at $2000. -/
def mixed : Params :=
  mapped [⟨0, 0x1000, .ram⟩, ⟨0x1000, 0x100, .rom⟩, ⟨0x2000, 0x100, .peripheral⟩]

/-- A state with other parameters. -/
def under (p : Params) (s : State) : State :=
  { s with cfg := p }

/-- Bytes are RAM, or plain memory, from facts that evaluate. -/
theorem ram_of {s : State} {a n : Nat} (h : ∀ i < n, s.cfg.kindAt (a + i) = some .ram) : s.Ram a n := h
theorem plain_of {s : State} {a n : Nat} (h : ∀ i < n, s.cfg.kindAt (a + i) = some .ram ∨ s.cfg.kindAt (a + i) = some .rom) :
    s.Plain a n := h

/-- Words that announce another. -/
theorem more_words : ∀ v ∈ ([0x4000, 0x4000, 0x4000] : List Word16), wordClass Params.standard.typeMap v = .vlnMore := by
  intro v hv
  simp only [List.mem_cons, List.not_mem_nil, or_false, or_self] at hv
  subst hv
  decide

theorem witness_EncodedWordsDecodeToTheirInstructions : Params.standard.wf = true ∧ Instr.wf Params.standard .sysfn = true ∧
    Instr.wf { Params.standard with sysfnOpcode := none } .nop = true := by decide +kernel

theorem witness_DecodedWordsEncodeBack : Params.standard.wf = true ∧ decodeWord Params.standard false 0xC995 = .ok .swap ∧
    decodeWord Params.standard true 0xC995 = .ok .drop := by decide +kernel

theorem witness_UnassignedCodesDecodeToNothing : (0x00 : Code7).toNat ∈ unassignedCodes ∧
    (0x77 : Code7).toNat ∈ unassignedCodes := by decide +kernel

theorem witness_ConstantsEncodeTheirValue : TypeMap.placeholder.wf = true ∧
    isVln TypeMap.placeholder [0x4000, 0x0001] = true ∧ vlnValue [0x4000, 0x0001] = (0x4000 : W56).toNat := by decide +kernel

theorem witness_StepKeepsInvariant : ∃ s t, s.Inv ∧ s ≠ State.reset ∧ step s = .next t := by
  refine ⟨fetching 2 [7] .run [(2, 0x93), (3, 0xFF)], _, ?_, by decide +kernel, rfl⟩
  have live : ∀ k, ((fetching 2 [7] .run [(2, 0x93), (3, 0xFF)]).thread k).live = true → k = 0 := by decide +kernel
  refine ⟨by decide +kernel, by decide +kernel, by decide +kernel, by decide +kernel, fun k hk => ?_⟩
  rw [live k hk]
  decide +kernel

theorem witness_StepKeepsParameters : ∃ s t, step s = .next t := ⟨State.reset, _, rfl⟩

theorem witness_StepNeverFaultsWithThreadZeroLive : (State.reset.thread 0).live = true := by decide +kernel

theorem witness_RestartLeavesTheStartState : (executing 0x40 []).cfg.eventRule = .slot ∧
    (under { Params.standard with eventRule := .nextWord } (executing 0x40 [])).cfg.eventRule = .nextWord := by decide +kernel

/-- An instruction word in slot 0, one in the last word of the address space, and a word a peripheral answers. -/
theorem witness_StepRunsDecodedInstruction :
    ((fetching 2 [9] .run [(2, 0x93), (3, 0xFF)]).Fetches 0 0xFF93 ∧
      ((fetching 2 [9] .run [(2, 0x93), (3, 0xFF)]).thread 0).mode = .run ∧
      decodeWord Params.standard false 0xFF93 = .ok .drop) ∧
    ((fetching 0xffffffe [9] .run [(0xffffffe, 0x93), (0xfffffff, 0xFF)]).Fetches 0 0xFF93 ∧
      ((fetching 0xffffffe [9] .run [(0xffffffe, 0x93), (0xfffffff, 0xFF)]).thread 0).pc.toNat ≠ 2 ^ 28 - 1) ∧
    (∃ w, (under mixed (fetching 0x2000 [9] .run [])).Fetches 0 w) ∧
    (fetching 2 [9] .run [(2, 0x93), (3, 0xFF)]).touches .peripheral (wordAddress 2) 2 = false :=
  ⟨⟨fetches_of (by decide +kernel), by decide +kernel⟩,
   ⟨fetches_of (by decide +kernel), by decide +kernel⟩,
   ⟨_, by decide +kernel, by decide +kernel, by decide +kernel, rfl⟩, by decide +kernel⟩

theorem witness_StepPushesConstant :
    ((fetching 2 [] .run [(2, 0x45), (3, 0x63), (4, 4)]).chosen = some 0 ∧ isVln Params.standard.typeMap [0x6345, 0x0004] = true ∧
      (fetching 2 [] .run [(2, 0x45), (3, 0x63), (4, 4)]).HoldsWords [0x6345, 0x0004] 2) ∧
    (fetching 0xffffffe [] .run [(0xffffffe, 5)]).HoldsWords [0x0005] 0xffffffe ∧
    (under { Params.standard with dstackSize := 2 } (fetching 2 [1, 2] .run [(2, 5)])).cfg.dstackSize ≤
      ((under { Params.standard with dstackSize := 2 } (fetching 2 [1, 2] .run [(2, 5)])).thread 0).stack.length ∧
    (under { Params.standard with dstackSize := 2 } (fetching 2 [1, 2] .run [(2, 5)])).HoldsWords [0x0005] 2 ∧
    (under mixed (fetching 0x1000 [] .run [(0x1000, 5)])).HoldsWords [0x0005] 0x1000 :=
  ⟨⟨by decide +kernel, by decide +kernel, plain_standard rfl (by decide), by decide, by decide +kernel,
      plain_standard rfl (by decide), by decide, by decide +kernel, trivial⟩,
   ⟨plain_standard rfl (by decide), by decide, by decide +kernel, trivial⟩, by decide +kernel,
   ⟨fun i hi => plain_standard (s := State.reset) rfl (a := 2) (n := 2) (by decide) i hi, by decide, by decide +kernel, trivial⟩,
   ⟨plain_of (by decide +kernel), by decide, by decide +kernel, trivial⟩⟩

/-- Nothing at the word's second byte; an unassigned code with SYSFN_OPCODE set and unset; a RESERVED word; a constant at an odd address; an
instruction in the last slot; constants that end at the end of memory, or where ROM ends; one an instruction word interrupts; a fifth word. -/
theorem witness_StepMeetsFetchConditions :
    ((under (mapped [⟨0, 3, .ram⟩]) (fetching 2 [] .run [])).chosen = some 0 ∧ (mapped [⟨0, 3, .ram⟩]).valid (2 + 1) = false) ∧
    ((fetching 3 [] .run [(2, 0x7F), (3, 0xC1)]).Fetches 0 0xC17F ∧
      (slotCode true (payloadOf 0xC17F)).toNat ∈ unassignedCodes ∧ (0x00 : Code7) ≠ slotCode true (payloadOf 0xC17F)) ∧
    (under { Params.standard with sysfnOpcode := none } (fetching 3 [] .run [(2, 0x7F), (3, 0xC1)])).Fetches 0 0xC17F ∧
    ((fetching 2 [] .run [(3, 0x80)]).Fetches 0 0x8000 ∧ wordClass Params.standard.typeMap 0x8000 = .reserved) ∧
    ((fetching 3 [] .run [(3, 0x40)]).Fetches 0 0x4000 ∧ wordClass Params.standard.typeMap 0x4000 = .vlnMore) ∧
    ((fetching 0xfffffff [] .run [(0xffffffe, 0xFF), (0xfffffff, 0xFF)]).Fetches 0 0xFFFF ∧
      wordClass Params.standard.typeMap 0xFFFF = .instr) ∧
    (∀ v ∈ ([0x4000, 0x4000, 0x4000] : List Word16), wordClass Params.standard.typeMap v = .vlnMore) ∧
    ((fetching 0xffffffe [] .run [(0xfffffff, 0x40)]).HoldsWords [0x4000] 0xffffffe ∧ 2 ^ 28 < 0xffffffe + 2 * 1 + 2) ∧
    ((under mixed (fetching 0x10fe [] .run [(0x10ff, 0x40)])).HoldsWords [0x4000] 0x10fe ∧ mixed.valid (0x10fe + 2 * 1 + 0) = false) ∧
    (fetching 2 [] .run [(3, 0x40), (4, 0xFF), (5, 0xFF)]).HoldsWords ([0x4000] ++ [0xFFFF]) 2 ∧
    (fetching 2 [] .run [(3, 0x40), (5, 0x40), (7, 0x40), (9, 0x40)]).HoldsWords ([0x4000, 0x4000, 0x4000] ++ [0x4000]) 2 :=
  ⟨by decide +kernel,
   ⟨fetches_of (by decide +kernel), by decide +kernel⟩,
   fetches_of (by decide +kernel),
   ⟨fetches_of (by decide +kernel), by decide +kernel⟩,
   ⟨fetches_of (by decide +kernel), by decide +kernel⟩,
   ⟨fetches_of (by decide +kernel), by decide +kernel⟩,
   more_words,
   ⟨holds_cons rfl (by decide) (by decide +kernel) trivial, by decide⟩,
   ⟨⟨plain_of (by decide +kernel), by decide, by decide +kernel, trivial⟩, by decide +kernel⟩,
   holds_cons rfl (by decide) (by decide +kernel) (holds_cons rfl (by decide) (by decide +kernel) trivial),
   holds_cons rfl (by decide) (by decide +kernel) (holds_cons rfl (by decide) (by decide +kernel)
    (holds_cons rfl (by decide) (by decide +kernel) (holds_cons rfl (by decide) (by decide +kernel) trivial)))⟩

/-- Thread 0 alone, at address 0, where the unassigned code $02 stands: each step restarts the machine (R311). -/
structure Restarting (s : State) : Prop where
  cfg : s.cfg = Params.standard
  mem : s.mem = [(0, 0x82), (1, 0xFF)]
  alone : ∀ k, (s.thread k).live = true → k = 0
  live : (s.thread 0).live = true
  pc : (s.thread 0).pc = 0
  mode : (s.thread 0).mode = .run
  awake : (s.thread 0).held = false

theorem alone_chosen {s : State} (alone : ∀ k, (s.thread k).live = true → k = 0) (live : (s.thread 0).live = true) :
    s.chosen = some 0 := by
  obtain ⟨j, hj⟩ := chosen_of_live live
  rw [hj, alone j (chosen_live hj)]

theorem restarting_step {s : State} (h : Restarting s) : ∃ t, step s = .next t ∧ Restarting t := by
  have hp : ∀ i < 2, Params.standard.kindAt (0 + i) = some .ram := by decide +kernel
  have hr : s.Ram 0 2 := fun i hi => by rw [h.cfg]; exact hp i hi
  have hw : s.wordAt 0 = 0xFF82 := by
    rw [State.wordAt, valueAt_of_plain fun i hi => by rw [hr i hi]; simp, h.mem]
    decide +kernel
  have hf : s.Fetches 0 0xFF82 := by
    refine ⟨alone_chosen h.alone h.live, h.awake, ?_, ?_⟩
    all_goals rw [h.pc]
    · exact (wordRead_plain (ram_plain hr) (by decide) rfl).1
    · exact (wordAt_congr (s := s) (t := s.select 0) rfl rfl (plain_touches (ram_plain hr))).trans hw
  refine ⟨((s.wordRead 0).atSlot 0 0xFF82).restart .invalidCode ((s.wordRead 0).atSlot 0 0xFF82).here.toNat, ?_, ?_⟩
  · rw [step_fetches hf, h.mode, h.pc]
    simp only [runWord, runSlot, wordRead_cfg, h.cfg]
    rfl
  · refine ⟨?_, ?_, fun k hk => ?_, ?_, ?_, ?_, ?_⟩
    · simp [State.atSlot, h.cfg]
    · simp [State.atSlot, h.mem]
    · by_contra hne
      rw [restart_thread_of_ne _ _ _ hne] at hk
      cases hk
    all_goals rw [restart_thread_zero]; rfl

/-- The run from a state, as long as its steps answer next states. -/
def runFrom (s : State) : Nat → State
  | 0 => s
  | n + 1 =>
    match step (runFrom s n) with
    | .next t => t
    | _ => runFrom s n

/-- Thread 0 inside a DELAY, released by the first step. -/
def delayed : State :=
  { State.reset.setThread 0 { Thread.coldStart with held := true } with mem := [(0, 0x82), (1, 0xFF)] }

theorem delayed_step : ∃ t, step delayed = .next t ∧ Restarting t :=
  ⟨_, step_held (by decide +kernel : delayed.chosen = some 0) (by decide +kernel),
    by decide +kernel, by decide +kernel, by decide +kernel, by decide +kernel, by decide +kernel, by decide +kernel, by decide +kernel⟩

theorem delayed_run : ∀ n, step (runFrom delayed n) = .next (runFrom delayed (n + 1)) ∧ Restarting (runFrom delayed (n + 1))
  | 0 => by
    obtain ⟨t, e, ht⟩ := delayed_step
    have e' : runFrom delayed 1 = t := by simp only [runFrom, e]
    rw [e']
    exact ⟨e, ht⟩
  | n + 1 => by
    obtain ⟨t, e, ht⟩ := restarting_step (delayed_run n).2
    have e' : runFrom delayed (n + 2) = t := by rw [runFrom, e]
    rw [e']
    exact ⟨e, ht⟩

/-- A held thread, and a run that is weakly fair: its first step releases thread 0, every later one is thread 0's. -/
theorem witness_StepReleasesHeldThread :
    (∃ s : State, s.chosen = some 0 ∧ (s.thread 0).held = true) ∧
    IsRun (runFrom delayed) ∧ WeaklyFair (runFrom delayed) ∧
    ((runFrom delayed 0).thread 0).live = true ∧ ((runFrom delayed 0).thread 0).held = true ∧
    ((runFrom delayed 1).thread 0).live = true ∧ ((runFrom delayed 1).thread 0).held = false := by
  have h0 : (delayed.thread 0).held = true ∧ (delayed.thread 0).live = true ∧ delayed.chosen = some 0 := by decide +kernel
  have alone : ∀ k, (delayed.thread k).live = true → k = 0 := by decide +kernel
  have later (n : Nat) := (delayed_run n).2
  refine ⟨⟨delayed, h0.2.2, h0.1⟩, fun n => (delayed_run n).1, ⟨fun n k hl ha => ?_, fun n k hl hh => ?_⟩, h0.2.1, h0.1,
    (later 0).live, (later 0).awake⟩
  · refine ⟨n + 1, by omega, .inl ?_⟩
    obtain rfl : k = 0 := by
      cases n with
      | zero => exact alone k hl
      | succ n => exact (later n).alone k hl
    exact ⟨alone_chosen (later n).alone (later n).live, (later n).awake⟩
  · cases n with
    | zero => exact ⟨0, Nat.le_refl _, .inl (by rw [alone k hl]; exact ⟨h0.2.2, h0.1⟩)⟩
    | succ n =>
      rw [(later n).alone k hl, (later n).awake] at hh
      cases hh

/-- A thread meets a code in a scan, from facts that evaluate. -/
theorem scansCode {s : State} {k : BitVec 7} {w : Word16} {c : Code7} {kind : ScanKind} {opened : List OpenKind}
    (hf : s.chosen = some k ∧ (s.thread k).held = false ∧ s.accessCheck (wordAddress (s.thread k).pc.toNat) 2 = none ∧
      (s.select k).wordAt (wordAddress (s.thread k).pc.toNat) = w)
    (h : (s.thread k).mode = .scan kind opened ∧ wordClass s.cfg.typeMap w = .instr ∧
      (s.thread k).pc.toNat ≠ 2 ^ 28 - 1 ∧ slotCode (decide ((s.thread k).pc.toNat % 2 = 1)) (payloadOf w) = c) :
    s.ScansCode k w c kind opened :=
  ⟨fetches_of hf, h.1, h.2.1, h.2.2.1, h.2.2.2⟩

theorem witness_ScanPassesOverEverythingElse :
    ((fetching 0x10 [] (.scan .skSkip []) [(0x10, 0x23), (0x11, 1)]).Fetches 0 0x0123 ∧
      wordClass Params.standard.typeMap 0x0123 ≠ .instr) ∧
    (fetching 0x10 [] (.scan .skSkip []) [(0x10, 0x82), (0x11, 0xFF)]).ScansCode 0 0xFF82 0x02 .skSkip [] ∧
    (0x02 : Code7) ∉ ([0x7c, 0x7e, 0x7d, 0x78, 0x7b, 0x79, 0x7a, 0x70] : List Code7) ∧
    (fetching 0x11 [] (.scan .skSkip []) [(0x10, 0x23), (0x11, 1)]).Fetches 0 0x0123 ∧
    (fetching 0xffffffe [] (.scan .skIf []) [(0xffffffe, 0x23), (0xfffffff, 1)]).Fetches 0 0x0123 ∧
    ((fetching 0xfffffff [] (.scan .skIf []) [(0xffffffe, 0xFF), (0xfffffff, 0xFF)]).Fetches 0 0xFFFF ∧
      wordClass Params.standard.typeMap 0xFFFF = .instr) :=
  ⟨⟨fetches_of (by decide +kernel), by decide +kernel⟩,
   scansCode (by decide +kernel) (by decide +kernel), by decide, fetches_of (by decide +kernel), fetches_of (by decide +kernel),
   fetches_of (by decide +kernel), by decide +kernel⟩

theorem witness_ScanEndsAtItsMark :
    (fetching 0x10 [] (.scan .skSkip []) [(0x10, 0xF0), (0x11, 0xFF)]).ScansCode 0 0xFFF0 0x70 .skSkip [] ∧
    (fetching 0x10 [] (.scan .skIf []) [(0x10, 0xFE), (0x11, 0xFF)]).ScansCode 0 0xFFFE 0x7e .skIf [] ∧
    (fetching 0x10 [] (.scan .skElse []) [(0x10, 0xFD), (0x11, 0xFF)]).ScansCode 0 0xFFFD 0x7d .skElse [] ∧
    (fetching 0x10 [] (.scan .skLoop []) [(0x10, 0xF9), (0x11, 0xFF)]).ScansCode 0 0xFFF9 0x79 .skLoop [] ∧
    (fetching 0x10 [] (.scan .skLoop []) [(0x10, 0xFA), (0x11, 0xFF)]).ScansCode 0 0xFFFA 0x7a .skLoop [] ∧
    ifCount ((nested 0 [] (List.replicate 31 .ifE)).thread 0).ctl < Params.standard.nestMax ∧
    Params.standard.nestMax ≤ ifCount ((nested 0 [] (List.replicate 32 .ifE)).thread 0).ctl :=
  ⟨scansCode (by decide +kernel) (by decide +kernel),
   scansCode (by decide +kernel) (by decide +kernel),
   scansCode (by decide +kernel) (by decide +kernel),
   scansCode (by decide +kernel) (by decide +kernel),
   scansCode (by decide +kernel) (by decide +kernel), by decide +kernel, by decide +kernel⟩

/-- Each mark in a scan that has an IF, a loop, nothing, or NEST_MAX structures open. -/
theorem witness_ScanCountsStructures :
    (fetching 0x10 [] (.scan .skElse [.ifOpen]) [(0x10, 0xFC), (0x11, 0xFF)]).ScansCode 0 0xFFFC 0x7c .skElse [.ifOpen] ∧
    (fetching 0x10 [] (.scan .skLoop [.loopOpen]) [(0x10, 0xF8), (0x11, 0xFF)]).ScansCode 0 0xFFF8 0x78 .skLoop [.loopOpen] ∧
    (fetching 0x10 [] (.scan .skLoop []) [(0x10, 0xFD), (0x11, 0xFF)]).ScansCode 0 0xFFFD 0x7d .skLoop [] ∧
    (fetching 0x10 [] (.scan .skIf []) [(0x10, 0xF9), (0x11, 0xFF)]).ScansCode 0 0xFFF9 0x79 .skIf [] ∧
    (fetching 0x10 [] (.scan .skSkip []) [(0x10, 0xFA), (0x11, 0xFF)]).ScansCode 0 0xFFFA 0x7a .skSkip [] ∧
    (fetching 0x10 [] (.scan .skElse []) [(0x10, 0xFE), (0x11, 0xFF)]).ScansCode 0 0xFFFE 0x7e .skElse [] ∧
    (fetching 0x10 [] (.scan .skSkip [.ifOpen]) [(0x10, 0xF0), (0x11, 0xFF)]).ScansCode 0 0xFFF0 0x70 .skSkip [.ifOpen] ∧
    (fetching 0x10 [] (.scan .skIf (List.replicate 32 .ifOpen)) [(0x10, 0xFB), (0x11, 0xFF)]).ScansCode 0 0xFFFB 0x7b .skIf
      (List.replicate 32 .ifOpen) ∧ Params.standard.nestMax ≤ (List.replicate 32 OpenKind.ifOpen).length :=
  ⟨scansCode (by decide +kernel) (by decide +kernel),
   scansCode (by decide +kernel) (by decide +kernel),
   scansCode (by decide +kernel) (by decide +kernel),
   scansCode (by decide +kernel) (by decide +kernel),
   scansCode (by decide +kernel) (by decide +kernel),
   scansCode (by decide +kernel) (by decide +kernel),
   scansCode (by decide +kernel) (by decide +kernel),
   scansCode (by decide +kernel) (by decide +kernel), by decide +kernel⟩

theorem witness_DoAndDelayComplete : (executing 0x40 [1000]).cur.stack = [1000] := by decide +kernel

/-- The largest target inside the address space, the first one outside it, an odd distance, slot 1. -/
theorem witness_SkipJumpsAndScans :
    ((executing 4 [0xffffff8]).cur.stack = [0xffffff8] ∧ (executing 4 []).here.toNat % 2 = 0 ∧
      nextWord (executing 4 []).here.toNat + (0xffffff8 : W56).toNat < 2 ^ 28) ∧
    2 ^ 28 ≤ nextWord (executing 4 []).here.toNat + (0xffffffa : W56).toNat ∧ (3 : W56).toNat % 2 = 1 ∧
    (executing 5 []).here.toNat % 2 = 1 := by decide +kernel

theorem witness_IfOpensOrScans :
    (executing 4 []).cur.stack = [] ∧ (nested 4 [5] (List.replicate 31 .ifE)).cur.stack = [5] ∧
    ifCount (nested 4 [5] (List.replicate 31 .ifE)).cur.ctl < Params.standard.nestMax ∧
    Params.standard.nestMax ≤ ifCount (nested 4 [5] (List.replicate 32 .ifE)).cur.ctl ∧ (executing 4 [0]).cur.stack = [0] := by
  decide +kernel

theorem witness_ElseAndEndifCloseTheirIf :
    (nested 4 [] [.ifE, .callE 0x22]).cur.ctl = [.ifE, .callE 0x22] ∧ CtlEntry.ifE ∉ (nested 4 [] [.callE 0x22]).cur.ctl ∧
    CtlEntry.ifE ∈ ([.ifE] : List CtlEntry) ∧ (nested 4 [] [.loopE 0x10, .ifE]).cur.ctl = [.loopE 0x10, .ifE] ∧
    (fetching 0x10 [] (.scan .skElse []) [(0x10, 0xFE), (0x11, 0xFF)]).ScansCode 0 0xFFFE 0x7e .skElse [] ∧
    (fetching 0x10 [] (.scan .skElse []) [(0x10, 0xFD), (0x11, 0xFF)]).ScansCode 0 0xFFFD 0x7d .skElse [] :=
  ⟨by decide +kernel, by decide +kernel, by decide, by decide +kernel,
   scansCode (by decide +kernel) (by decide +kernel),
   scansCode (by decide +kernel) (by decide +kernel)⟩

/-- Executing with a payload in ICR. -/
def inWord (here : A28) (xs : List W56) (es : List CtlEntry) (w : Word16) : State :=
  State.reset.setThread 0 { Thread.coldStart with pc := here + 1, stack := xs, ctl := es, icr := payloadOf w }

theorem witness_RepeatAndRepifOpenLoops :
    slotCode (decide ((inWord 0xe [3] [] 0xFFF8).here.toNat % 2 = 0)) (inWord 0xe [3] [] 0xFFF8).cur.icr = 0x7f ∧
    slotCode (decide ((inWord 0xf [0] [] 0xFC7F).here.toNat % 2 = 0)) (inWord 0xf [0] [] 0xFC7F).cur.icr = 0x7f ∧
    callCount (inWord 0xe [3] (List.replicate 31 (.callE 2)) 0xFFF8).cur.ctl < Params.standard.cstackSize ∧
    Params.standard.cstackSize ≤ callCount (inWord 0xe [3] (List.replicate 32 (.callE 2)) 0xFFF8).cur.ctl ∧
    slotCode (decide ((inWord 0xe [3] [] 0xCA78).here.toNat % 2 = 0)) (inWord 0xe [3] [] 0xCA78).cur.icr ≠ 0x7f := by
  decide +kernel

/-- Bodies at the last address that exists and at the first one that does not. -/
theorem witness_UntilAndWhileCloseLoops :
    (nested 4 [0] [.loopE 0xffffffe]).cur.stack = [0] ∧ (nested 4 [0] [.loopE 0xffffffe]).cur.ctl = [.loopE 0xffffffe] ∧
    0xffffffe < 2 ^ 28 ∧ (nested 4 [1] [.loopE 0x10000000]).cur.ctl = [.loopE 0x10000000] ∧ 2 ^ 28 ≤ 0x10000000 ∧
    callCount (nested 4 [1] [.ifE]).cur.ctl = 0 ∧ callCount (nested 4 [1] [.ifE, .loopE 0x10]).cur.ctl ≠ 0 ∧
    (∀ b, CtlEntry.ifE ≠ .loopE b) := by
  refine ⟨by decide +kernel, by decide +kernel, by decide, by decide +kernel, by decide, by decide +kernel, by decide +kernel, ?_⟩
  simp

theorem witness_BreakAndAgainLeaveOrRepeat :
    (executing 4 [0]).cur.stack = [0] ∧ (nested 4 [1] [.loopE 0xffffffe]).cur.ctl = [.loopE 0xffffffe] ∧
    (nested 4 [1] [.loopE 0x10000000]).cur.ctl = [.loopE 0x10000000] ∧
    (∀ b es, (nested 4 [1] [.ifE, .loopE 0x10]).cur.ctl ≠ .loopE b :: es) := by
  refine ⟨by decide +kernel, by decide +kernel, by decide +kernel, ?_⟩
  rw [show (nested 4 [1] [.ifE, .loopE 0x10]).cur.ctl = [.ifE, .loopE 0x10] by decide +kernel]
  simp

/-- Targets 0 and 2^28 - 2, odd ones, and the first ones outside. -/
theorem witness_CallsPushTheReturnAddress :
    ((executing 0x1000 [0x1002]).cur.stack = [0x1002] ∧ (0x1002 : W56).toNat ≤ nextWord (executing 0x1000 []).here.toNat ∧
      nextWord (executing 0x1000 []).here.toNat - (0x1002 : W56).toNat < 2 ^ 28 ∧ (0x1002 : W56).toNat % 2 = 0) ∧
    nextWord (executing 0x1000 []).here.toNat < (0x1003 : W56).toNat ∧
    2 ^ 28 ≤ nextWord (executing 0xffffffe []).here.toNat - (0 : W56).toNat ∧
    (0xffffffe : W56).toNat < 2 ^ 28 ∧ (0xffffffe : W56).toNat % 2 = 0 ∧ (0x401 : W56).toNat % 2 = 1 ∧
    2 ^ 28 ≤ (0x10000000 : W56).toNat ∧
    callCount (nested 4 [2] (List.replicate 31 (.callE 2))).cur.ctl < Params.standard.cstackSize ∧
    Params.standard.cstackSize ≤ callCount (nested 4 [2] (List.replicate 32 (.callE 2))).cur.ctl := by decide +kernel

theorem witness_NewThreadsBegin :
    ((executing 0x16 [0x12]).cur.stack = [0x12] ∧ (executing 0x16 [0x12]).cur.live = true ∧
      (0x12 : W56).toNat ≤ nextWord (executing 0x16 []).here.toNat ∧
      nextWord (executing 0x16 []).here.toNat - (0x12 : W56).toNat = 6) ∧
    (∃ j : BitVec 7, j ≠ 0 ∧ j.toNat < Params.standard.maxThreads ∧ ((executing 0x16 [0x12]).thread j).live = false) ∧
    (∀ j : BitVec 7, j ≠ 0 → j.toNat < (under { Params.standard with maxThreads := 1 } (executing 4 [2])).cfg.maxThreads →
      ((executing 4 [2]).thread j).live = true) ∧
    (0x11 : W56).toNat % 2 = 1 ∧ nextWord (executing 0x16 []).here.toNat < (0x19 : W56).toNat ∧
    2 ^ 28 ≤ (0x10000000 : W56).toNat :=
  ⟨by decide +kernel, ⟨127, by decide +kernel⟩, by decide +kernel, by decide +kernel, by decide +kernel, by decide +kernel⟩

theorem witness_ReturnGoesBackToTheCaller :
    (nested 4 [0] [.callE 0xffffffe]).cur.ctl = [.callE 0xffffffe] ∧ (nested 4 [0] [.callE 0xffffffe]).pxr = 0 ∧
    (nested 4 [0] [.callE 0xffffffe]).cur.stack = [0] ∧ callCount (nested 4 [0] [.ifE]).cur.ctl = 0 ∧
    (nested 4 [0] [.ifE, .callE 0x22]).cur.ctl = [.ifE, .callE 0x22] ∧ (∀ r, CtlEntry.ifE ≠ .callE r) ∧
    callCount (nested 4 [0] [.ifE, .callE 0x22]).cur.ctl ≠ 0 ∧
    (nested 4 [0] [.callE 0x10000000]).cur.ctl = [.callE 0x10000000] := by
  refine ⟨by decide +kernel, by decide +kernel, by decide +kernel, by decide +kernel, by decide +kernel, ?_, by decide +kernel,
    by decide +kernel⟩
  simp

theorem witness_EndingThreads : (second 0x40 [0]).pxr ≠ 0 ∧ (second 0x40 [0]).cur.stack = [0] := by decide +kernel

theorem witness_ThreadNumbersAndPriority :
    (executing 4 (List.replicate 63 1)).cur.stack.length < Params.standard.dstackSize ∧ (executing 4 [3]).cur.stack = [3] := by
  decide +kernel

/-- A thread that holds a snapshot. -/
def entered (xs : List W56) (n : Nat) : State :=
  State.reset.setThread 0 { Thread.coldStart with pc := 0x41, stack := xs, snap := some n }

theorem witness_EnterAndLeave :
    (executing 4 [7, 9]).cur.snap = none ∧ (entered [1, 2, 3, 7, 9] 2).cur.snap = some 2 ∧
    (entered [1, 2, 3, 7, 9] 2).cur.stack = [1, 2, 3] ++ [7, 9] ∧ (entered [7, 9] 2).cur.stack = [] ++ [7, 9] ∧
    (entered [9] 2).cur.stack.length < 2 := by decide +kernel

theorem witness_SnapshotConditions : (entered [7, 9] 2).cur.snap = some 2 ∧ (executing 4 []).cur.snap = none := by
  decide +kernel

/-- The lowest, a middle and the last element, the first index past the stack, and the register numbers 7 and 8. -/
theorem witness_StackInstructionsComplete :
    (executing 4 (List.replicate 63 1)).cur.stack.length < Params.standard.dstackSize ∧
    (executing 4 [0, 30]).cur.stack = 0 :: [30] ∧ ((executing 4 [1, 30, 20, 10]).cur.stack = 1 :: 30 :: ([] ++ 20 :: [10]) ∧
      (1 : W56).toNat = ([] : List W56).length + 1) ∧
    ((executing 4 [2, 30, 20, 10]).cur.stack = 2 :: 30 :: ([20] ++ 10 :: []) ∧ (2 : W56).toNat = ([20] : List W56).length + 1) ∧
    ((executing 4 [1, 3, 7]).cur.stack = 1 :: ([3] ++ 7 :: []) ∧ (1 : W56).toNat = ([3] : List W56).length) ∧
    (([3, 7] : List W56).length ≤ (2 : W56).toNat ∧ (executing 4 [2, 3, 7]).cur.stack = 2 :: [3, 7]) ∧
    (executing 4 [7]).cur.stack = [7] ∧ (7 : W56).toNat < 8 ∧ 7 < (8 : W56).toNat := by decide +kernel

theorem witness_DropDupAndRot :
    (executing 4 []).cur.stack = [] ∧ (executing 4 (List.replicate 63 1)).cur.stack.length < Params.standard.dstackSize ∧
    Params.standard.dstackSize ≤ (executing 4 (List.replicate 64 1)).cur.stack.length ∧
    (executing 4 [1, 2]).cur.stack.length < 3 ∧ (executing 4 [30, 20, 10]).cur.stack = 30 :: 20 :: 10 :: [] := by decide +kernel

theorem witness_WriteVariable :
    (executing 4 [1]).cur.stack.length < 2 ∧ (executing 4 [7, 5]).cur.stack = 7 :: 5 :: [] ∧ (7 : W56).toNat < 8 ∧
    7 < (8 : W56).toNat := by decide +kernel

theorem witness_BitwiseResults :
    (executing 4 []).cur.stack = [] ∧ (executing 4 [1]).cur.stack.length < 2 ∧ (executing 4 [1]).cur.stack = 1 :: [] ∧
    (executing 4 [2, 1]).cur.stack = 2 :: 1 :: [] ∧ (executing 4 [2, 1]).cur.stack.length ≤ Params.standard.dstackSize := by
  decide +kernel

theorem witness_ComplementAndShiftResults :
    (executing 4 [0x80000000000000]).cur.stack = 0x80000000000000 :: [] ∧ (executing 4 [55, 3]).cur.stack = 55 :: 3 :: [] ∧
    (55 : W56).toNat < 56 ∧ 56 ≤ (56 : W56).toNat ∧ (executing 4 [56, 1]).cur.stack = 56 :: 1 :: [] := by decide +kernel

theorem witness_EqualityResults :
    (executing 4 [1]).cur.stack.length < 2 ∧ (executing 4 [5, 5]).cur.stack = 5 :: 5 :: [] ∧
    (executing 4 [5, 5]).cur.stack.length ≤ Params.standard.dstackSize := by decide +kernel

theorem witness_OrderComparisonResults :
    (∃ a b : Int, (executing 4 [1, 0xffffffffffffff]).cur.stack = 1 :: 0xffffffffffffff :: [] ∧
      (executing 4 [1, 0xffffffffffffff]).cfg.signedArith = false ∧
      a = (0xffffffffffffff : W56).toNat ∧ b = (1 : W56).toNat) ∧
    (∃ a b : Int, (under { Params.standard with signedArith := true } (executing 4 [1, 0xffffffffffffff])).cfg.signedArith = true ∧
      a = (0xffffffffffffff : W56).toInt ∧ b = (1 : W56).toInt) :=
  ⟨⟨_, _, by decide +kernel, by decide +kernel, rfl, rfl⟩, ⟨_, _, by decide +kernel, rfl, rfl⟩⟩

theorem witness_SumsAndProductsWrap :
    (executing 4 [1, 0xffffffffffffff]).cur.stack = 1 :: 0xffffffffffffff :: [] ∧ (executing 4 [0]).cur.stack = 0 :: [] ∧
    (executing 4 [1, 2]).cur.stack.length ≤ Params.standard.dstackSize := by decide +kernel

theorem witness_QuotientResults :
    (executing 4 [1]).cur.stack.length < 2 ∧ (executing 4 [0, 5]).cur.stack = 0 :: 5 :: [] ∧
    ((executing 4 [1, 0x7fffffffffffff]).cur.stack = 1 :: 0x7fffffffffffff :: [] ∧
      (0x7fffffffffffff : W56).toNat < 2 ^ 55) ∧
    ((executing 4 [2, 0x80000000000000]).cur.stack = 2 :: 0x80000000000000 :: [] ∧
      2 ^ 55 ≤ (0x80000000000000 : W56).toNat) := by decide +kernel

theorem witness_RemainderResults :
    (executing 4 [0, 5]).cur.stack = 0 :: 5 :: [] ∧ ((executing 4 [7, 90]).cur.stack = 7 :: 90 :: [] ∧ (90 : W56).toNat < 2 ^ 55) ∧
    ((executing 4 [0x80000000000000, 1]).cur.stack = 0x80000000000000 :: 1 :: [] ∧
      2 ^ 55 ≤ (0x80000000000000 : W56).toNat) := by decide +kernel

theorem witness_RandomPushesAFreeValue :
    (executing 4 (List.replicate 63 1)).cur.stack.length < Params.standard.dstackSize := by decide +kernel

/-- Ranges that end at 2^28, a range over the executing word, a source and a destination that are in part ROM, and a peripheral location
at the start of a range. -/
theorem witness_FillAndCopyWriteTheirRange :
    ((executing 4 [0xAA, 2, 0xffffffe]).cur.stack = 0xAA :: 2 :: 0xffffffe :: [] ∧
      (executing 4 [0xAA, 2, 0xffffffe]).Ram (0xffffffe : W56).toNat (2 : W56).toNat ∧
      (0xffffffe : W56).toNat + (2 : W56).toNat ≤ 2 ^ 28 ∧
      (executing 4 [0xAA, 2, 0xffffffe]).hitsOwnWord 0xffffffe 2 = false ∧ (executing 4 []).mem.wf = true) ∧
    ((executing 4 [3, 0x201, 0x200]).cur.stack = 3 :: 0x201 :: 0x200 :: [] ∧ (executing 4 [3, 0x201, 0x200]).Ram 0x201 3 ∧
      (executing 4 [3, 0x201, 0x200]).Plain 0x200 3 ∧ (executing 4 [3, 0x201, 0x200]).hitsOwnWord 0x201 3 = false) ∧
    ((executing 4 [0xAA, 2, 3]).hitsOwnWord 3 2 = true ∧ (executing 4 [0xAA, 2, 3]).Ram 3 2) ∧
    ((under mixed (executing 4 [2, 0x200, 0xfff])).Plain 0xfff 2 ∧ mixed.kindAt (0xfff + 1) = some .rom) ∧
    mixed.kindAt (0x2000 + 0) = some .peripheral :=
  ⟨⟨by decide +kernel, ram_standard rfl (by decide), by decide, by decide +kernel, by decide +kernel⟩,
   ⟨by decide +kernel, ram_standard rfl (by decide), plain_standard rfl (by decide), by decide +kernel⟩,
   ⟨by decide +kernel, ram_standard rfl (by decide)⟩, ⟨plain_of (by decide +kernel), by decide +kernel⟩, by decide +kernel⟩

/-- A range beyond 2^28, and one that leaves memory where ROM ends. -/
theorem witness_BlockFaultLeavesOldOrNewBytes :
    ((executing 4 [0, 2, 0xfffffff]).cur.stack = 0 :: 2 :: 0xfffffff :: [] ∧
      2 ^ 28 < (0xfffffff : W56).toNat + (2 : W56).toNat ∧
      ∀ i < 2, Params.standard.kindAt (0xfffffff + i) ≠ some .peripheral) ∧
    (mixed.valid (0x10ff + 1) = false ∧ (executing 4 [2, 0x10ff, 0]).cur.stack = 2 :: 0x10ff :: 0 :: [] ∧
      (executing 4 [2, 0x10ff, 0]).mem.wf = true ∧
      ∀ i < 2, mixed.kindAt (0 + i) ≠ some .peripheral ∧ mixed.kindAt (0x10ff + i) ≠ some .peripheral) := by decide +kernel

/-- Four bytes at $200 and four at $300 that differ in the third. -/
def twoRanges : Memory :=
  [(0x200, 1), (0x201, 2), (0x202, 3), (0x203, 4), (0x300, 1), (0x301, 2), (0x302, 9), (0x303, 4)]

theorem witness_DiffCountsWhatRemains :
    ((remembering 4 [4, 0x300, 0x200] twoRanges).cur.stack = 4 :: 0x300 :: 0x200 :: [] ∧
      (remembering 4 [4, 0x300, 0x200] twoRanges).Plain 0x200 4 ∧ (remembering 4 [4, 0x300, 0x200] twoRanges).Plain 0x300 4 ∧
      (∀ j < 2, twoRanges.read (0x200 + j) = twoRanges.read (0x300 + j)) ∧
      twoRanges.read (0x200 + 2) ≠ twoRanges.read (0x300 + 2)) ∧
    (∀ i < 2, twoRanges.read (0x200 + i) = twoRanges.read (0x300 + i)) ∧
    (under mixed (executing 4 [2, 0xfff, 0x1000])).Plain 0xfff 2 ∧
    2 ^ 28 < (0xfffffff : W56).toNat + (2 : W56).toNat ∧ mixed.valid (0x10ff + 1) = false ∧
    mixed.kindAt 0x2000 = some .peripheral :=
  ⟨⟨by decide +kernel, plain_standard rfl (by decide), plain_standard rfl (by decide), by decide +kernel, by decide +kernel⟩,
   by decide +kernel, plain_of (by decide +kernel), by decide +kernel, by decide +kernel, by decide +kernel⟩

/-- "HELLO" at $200 and "LO" at $300. -/
def twoStrings : Memory :=
  [(0x200, 0x48), (0x201, 0x45), (0x202, 0x4C), (0x203, 0x4C), (0x204, 0x4F), (0x300, 0x4C), (0x301, 0x4F)]

theorem holdsString {xs : List W56} {m : Memory} {a len : Nat} (hr : a + len + 1 ≤ 2 ^ 28)
    (hn : ∀ i < len, m.read (a + i) ≠ 0) (ht : m.read (a + len) = 0) : (remembering 4 xs m).HoldsString a len :=
  ⟨plain_standard rfl (by omega), hr, hn, ht⟩

/-- A string that runs off the end of memory, and one that begins at a peripheral location. -/
theorem leavesMemory : (remembering 4 [0xfffffff] [(0xfffffff, 1)]).StringLeavesMemory 0xfffffff :=
  Or.inr ⟨1, plain_standard rfl (by decide), by decide, by decide +kernel, Or.inl (by decide)⟩
theorem meetsPeripheral {xs : List W56} : (under mixed (executing 4 xs)).StringMeetsPeripheral 0x2000 :=
  ⟨0, fun _ h => absurd h (Nat.not_lt_zero _), by decide, fun _ h => absurd h (Nat.not_lt_zero _),
    (by decide +kernel : mixed.kindAt (0x2000 + 0) = some .peripheral)⟩

theorem witness_StringLengthAndSearch :
    ((remembering 4 [0x200] twoStrings).cur.stack = [0x200] ∧ (remembering 4 [0x200] twoStrings).HoldsString 0x200 5) ∧
    ((remembering 4 [0xfffffff] [(0xfffffff, 1)]).StringLeavesMemory 0xfffffff ∧
      (executing 4 [0x10000000]).StringLeavesMemory (0x10000000 : W56).toNat ∧
      (under mixed (remembering 4 [0x10ff] [(0x10ff, 1)])).StringLeavesMemory 0x10ff) ∧
    (under mixed (executing 4 [0x2000])).StringMeetsPeripheral 0x2000 ∧
    ((remembering 4 [0x300, 0x200] twoStrings).cur.stack = [0x300, 0x200] ∧
      (remembering 4 [0x300, 0x200] twoStrings).HoldsString 0x300 2 ∧ 3 + 2 ≤ 5 ∧
      (∀ j < 2, twoStrings.read (0x200 + 3 + j) = twoStrings.read (0x300 + j)) ∧
      (∀ q < 3, ∃ j < 2, twoStrings.read (0x200 + q + j) ≠ twoStrings.read (0x300 + j))) ∧
    (∀ p, p + 5 ≤ 2 → ∃ j < 5, twoStrings.read (0x300 + p + j) ≠ twoStrings.read (0x200 + j)) :=
  ⟨⟨by decide +kernel, holdsString (by decide) (by decide +kernel) (by decide +kernel)⟩,
   ⟨leavesMemory,
    Or.inl (by decide), Or.inr ⟨1, plain_of (by decide +kernel), by decide, by decide +kernel, Or.inr (by decide +kernel)⟩⟩,
   meetsPeripheral,
   ⟨by decide +kernel, holdsString (by decide) (by decide +kernel) (by decide +kernel), by decide, by decide +kernel,
    by decide +kernel⟩, fun p hp => absurd hp (by omega)⟩

/-- "AB" at $200 and "ABC" at $300. -/
def nearStrings : Memory :=
  [(0x200, 0x41), (0x201, 0x42), (0x300, 0x41), (0x301, 0x42), (0x302, 0x43)]

theorem witness_StringComparison :
    ((remembering 4 [0x300, 0x200] nearStrings).cur.stack = [0x300, 0x200] ∧
      (remembering 4 [0x300, 0x200] nearStrings).Plain 0x200 2 ∧
      (∀ j < 2, nearStrings.read (0x200 + j) = nearStrings.read (0x300 + j) ∧ nearStrings.read (0x200 + j) ≠ 0) ∧
      nearStrings.read (0x200 + 2) ≠ nearStrings.read (0x300 + 2)) ∧
    (Memory.read (0x200 + 0) [] = 0 ∧ Memory.read (0x300 + 0) [] = 0) ∧
    ((0xfffffff : W56).toNat + 1 = 2 ^ 28 ∧
      (∀ j < 1, Memory.read (0xfffffff + j) [(0x300, 1), (0xfffffff, 1)] = Memory.read (0x300 + j) [(0x300, 1), (0xfffffff, 1)] ∧
        Memory.read (0xfffffff + j) [(0x300, 1), (0xfffffff, 1)] ≠ 0) ∧
      Params.standard.kindAt (0xfffffff + 1) ≠ some .peripheral) ∧
    (mixed.valid (0x1100 + 0) = false ∧ mixed.kindAt (0x2000 + 0) = some .peripheral) :=
  ⟨⟨by decide +kernel, plain_standard rfl (by decide), by decide +kernel, by decide +kernel⟩, by decide +kernel, by decide +kernel,
   by decide +kernel⟩

theorem witness_StringCopy :
    (remembering 4 [0x201, 0x200] twoStrings).cur.stack = [0x201, 0x200] ∧
    (remembering 4 [0x201, 0x200] twoStrings).HoldsString 0x200 5 ∧ (remembering 4 [0x201, 0x200] twoStrings).Ram 0x201 (5 + 1) ∧
    (remembering 4 [0x201, 0x200] twoStrings).hitsOwnWord 0x201 (5 + 1) = false ∧
    (remembering 4 [0x201, 0x200] twoStrings).mem.wf = true ∧
    (remembering 4 [0x200, 0xfffffff] [(0xfffffff, 1)]).cur.stack = [0x200, 0xfffffff] ∧
    (remembering 4 [0xfffffff] [(0xfffffff, 1)]).StringLeavesMemory 0xfffffff ∧
    (under mixed (executing 4 [0x200, 0x2000])).StringMeetsPeripheral 0x2000 ∧
    ((under mixed (executing 4 [0xfff, 0x1000])).HoldsString 0x1000 0 ∧ mixed.kindAt (0x2000 + 0) = some .peripheral ∧
      mixed.valid (0x1100 + 0) = false ∧ mixed.kindAt (0x1000 + 0) = some .rom ∧
      (under mixed (executing 4 [4, 0x1000])).hitsOwnWord 4 (0 + 1) = true) :=
  ⟨by decide +kernel, holdsString (by decide) (by decide +kernel) (by decide +kernel), ram_standard rfl (by decide),
   by decide +kernel, by decide +kernel, by decide +kernel, leavesMemory, meetsPeripheral,
   ⟨plain_of (by decide +kernel), by decide, fun _ h => absurd h (Nat.not_lt_zero _), by decide +kernel⟩, by decide +kernel⟩

/-- Accesses that end at the last byte of the address space. -/
theorem witness_RawReadsAreLittleEndian :
    ((executing 4 [0xfffffff]).cur.stack = [0xfffffff] ∧ (executing 4 [0xfffffff]).Plain (0xfffffff : W56).toNat 1) ∧
    (executing 4 [0xffffffe]).Plain (0xffffffe : W56).toNat 2 ∧ (executing 4 [0xffffffc]).Plain (0xffffffc : W56).toNat 4 ∧
    (0xffffffc : W56).toNat % 2 = 0 ∧ (under mixed (executing 4 [0xffe])).Plain (0xffe : W56).toNat 4 ∧
    ((∀ j < 4, mixed.valid (0x2000 + j) = true) ∧ mixed.kindAt (0x2000 + 3) = some .peripheral ∧ (0x2000 : W56).toNat % 2 = 0) :=
  ⟨⟨by decide +kernel, plain_standard rfl (by decide)⟩, plain_standard rfl (by decide), plain_standard rfl (by decide), by decide,
   plain_of (by decide +kernel), by decide +kernel⟩

theorem witness_RawWritesAreLittleEndian :
    (executing 4 [0xffffffc, 0xAA11223344]).cur.stack = [0xffffffc, 0xAA11223344] ∧
    (executing 4 [0xffffffc, 0xAA11223344]).Ram (0xffffffc : W56).toNat 4 ∧ (0xffffffc : W56).toNat + 4 ≤ 2 ^ 28 ∧
    (executing 4 [0xffffffc, 0xAA11223344]).hitsOwnWord 0xffffffc 4 = false ∧ (executing 4 []).mem.wf = true ∧
    (∀ j < 4, mixed.kindAt (0x2000 + j) = some .peripheral) ∧
    (∀ j < 2, (mapped [⟨0, 0x11, .ram⟩, ⟨0x11, 1, .peripheral⟩]).kindAt (0x10 + j) = some .ram ∨
      (mapped [⟨0, 0x11, .ram⟩, ⟨0x11, 1, .peripheral⟩]).kindAt (0x10 + j) = some .peripheral) ∧
    (mapped [⟨0, 0x11, .ram⟩, ⟨0x11, 1, .peripheral⟩]).kindAt (0x10 + 1) = some .peripheral :=
  ⟨by decide +kernel, ram_standard rfl (by decide), by decide, by decide +kernel, by decide +kernel, by decide +kernel,
   by decide +kernel, by decide +kernel⟩

theorem witness_RawAccessConditions :
    (executing 4 [0xfffffff, 1]).cur.stack = [0xfffffff, 1] ∧ 2 ^ 28 < (0xfffffff : W56).toNat + 2 ∧
    ((executing 4 [0xfffffff]).cur.stack = 0xfffffff :: [] ∧ mayStore .rdvln = false) ∧
    ((0x201 : W56).toNat + 4 ≤ 2 ^ 28 ∧ (0x201 : W56).toNat % 2 = 1) ∧
    ((0xffe : W56).toNat % 2 = 0 ∧ (mapped [⟨0, 0xfff, .ram⟩]).valid (0xffe + 1) = false) ∧
    ((executing 4 [4, 1]).Ram (4 : W56).toNat 2 ∧ (executing 4 [4, 1]).here.toNat % 2 = 0 ∧
      (4 : W56).toNat < (executing 4 [4, 1]).here.toNat + 2 ∧ (executing 4 [4, 1]).here.toNat < (4 : W56).toNat + 2) ∧
    ((∀ j < 2, (mapped [⟨0, 0x10, .ram⟩, ⟨0x10, 2, .rom⟩]).valid (0x10 + j) = true) ∧
      (mapped [⟨0, 0x10, .ram⟩, ⟨0x10, 2, .rom⟩]).kindAt (0x10 + 1) = some .rom) ∧
    (mapped [⟨0, 0x10, .ram⟩, ⟨0x10, 1, .peripheral⟩]).kindAt (0x10 : W56).toNat = some .peripheral :=
  ⟨by decide +kernel, by decide, by decide +kernel, by decide, by decide +kernel,
   ⟨ram_standard rfl (by decide), by decide +kernel, by decide +kernel, by decide +kernel⟩, by decide +kernel, by decide +kernel⟩

theorem witness_StoredConstantsReadBack :
    ((remembering 4 [0x200] [(0x200, 0x45), (0x201, 0x63), (0x202, 4)]).cur.stack = [0x200] ∧
      isVln Params.standard.typeMap [0x6345, 0x0004] = true ∧
      (remembering 4 [0x200] [(0x200, 0x45), (0x201, 0x63), (0x202, 4)]).HoldsWords [0x6345, 0x0004] 0x200) ∧
    ((∀ v ∈ ([0x4000, 0x4000, 0x4000] : List Word16), wordClass Params.standard.typeMap v = .vlnMore) ∧
      (remembering 4 [0x200] [(0x201, 0x40), (0x203, 0x40), (0x205, 0x40), (0x207, 0x40)]).HoldsWords
        ([0x4000, 0x4000, 0x4000] ++ [0x4000]) 0x200) ∧
    ((remembering 4 [0x200] [(0x200, 0x91), (0x201, 0xFF)]).HoldsWords ([] ++ [0xFF91]) 0x200 ∧
      wordClass Params.standard.typeMap 0xFF91 = .instr) ∧
    ((executing 4 [0xffffff8, 0xffffffffffffff]).cur.stack = [0xffffff8, 0xffffffffffffff] ∧
      2 * (vlnWords Params.standard.typeMap 0xffffffffffffff).length = 8 ∧
      (executing 4 [0xffffff8, 0xffffffffffffff]).Ram (0xffffff8 : W56).toNat 8 ∧ (0xffffff8 : W56).toNat + 8 ≤ 2 ^ 28 ∧
      (executing 4 [0xffffff8, 0xffffffffffffff]).hitsOwnWord 0xffffff8 8 = false ∧ Params.standard.typeMap.wf = true) ∧
    ((under mixed (remembering 4 [0x10fe] [(0x10ff, 0x40)])).HoldsWords [0x4000] 0x10fe ∧
      mixed.valid (0x10fe + 2 * 1 + 0) = false ∧ 2 ^ 28 < 0xffffffe + 2 * 1 + 2) ∧
    (vlnWords Params.standard.typeMap 0x4000 = [0x4000] ++ 0x0001 :: [] ∧
      (executing 4 [0xffffffe, 0x4000]).Ram (0xffffffe : W56).toNat 2 ∧
      (executing 4 [0xffffffe, 0x4000]).hitsOwnWord 0xffffffe 2 = false) ∧
    ((∀ j < 2, mixed.valid (0xffe + 2 * 1 + j) = true) ∧ mixed.kindAt (0xffe + 2 * 1 + 0) = some .rom ∧
      (under mixed (executing 4 [0xffe, 0x4000])).Ram 0xffe 2) ∧
    ((executing 4 [2, 0x4000]).hitsOwnWord 2 2 = false ∧ (executing 4 [2, 0x4000]).hitsOwnWord (2 + 2 * 1) 2 = true) :=
  ⟨⟨by decide +kernel, by decide +kernel,
    holds_cons rfl (by decide) (by decide +kernel) (holds_cons rfl (by decide) (by decide +kernel) trivial)⟩,
   ⟨more_words,
    holds_cons rfl (by decide) (by decide +kernel) (holds_cons rfl (by decide) (by decide +kernel)
    (holds_cons rfl (by decide) (by decide +kernel) (holds_cons rfl (by decide) (by decide +kernel) trivial)))⟩,
   ⟨holds_cons rfl (by decide) (by decide +kernel) trivial, by decide +kernel⟩,
   ⟨by decide +kernel, by decide +kernel, ram_standard rfl (by decide), by decide, by decide +kernel, by decide +kernel⟩,
   ⟨⟨plain_of (by decide +kernel), by decide, by decide +kernel, trivial⟩, by decide +kernel⟩,
   ⟨by decide +kernel, ram_standard rfl (by decide), by decide +kernel⟩,
   ⟨by decide +kernel, by decide +kernel, ram_of (by decide +kernel)⟩, by decide +kernel⟩

/-- Codes $7f and $80 where the clauses meet, an unassigned one with SYSFN_OPCODE set and unset, a code SYSFN_IMPL defines, and effects: one
that completes, one that pops or pushes too much, one that stores into the executing word. -/
theorem witness_SysfnRunsItsCode :
    ((executing 4 [0x7f]).cur.stack = [0x7f] ∧ (0x7f : W56).toNat < 0x80 ∧
      decodeCode (some 0x00) (BitVec.ofNat 7 (0x7f : W56).toNat) = .ok .nop) ∧
    decodeCode (some 0x00) (BitVec.ofNat 7 (0x02 : W56).toNat) = .error (.invalidCode 0x02) ∧
    decodeCode none (BitVec.ofNat 7 (0x02 : W56).toNat) = .error (.invalidOrSysfn 0x02) ∧
    (0x80 ≤ (0x80 : W56).toNat ∧ (0x80 : W56) ∉ Params.standard.sysfnCodes) ∧
    (0x80 : W56) ∈ ({ Params.standard with sysfnCodes := [0x80] } : Params).sysfnCodes ∧
    (∃ e : SysEffect, (executing 4 [1, 2]).cur.stack = [1] ++ [2] ∧ ([1] : List W56).length = e.pops ∧
      ([2] : List W56).length + e.pushes.length ≤ Params.standard.dstackSize ∧ e.raises = some .badMemory ∧
      ∀ c ∈ e.stores, Params.standard.valid c.1.toNat = true → (executing 4 [1, 2]).hitsOwnWord c.1.toNat 1 = false) ∧
    (∃ e : SysEffect, (executing 4 [1]).cur.stack.length < e.pops) ∧
    (∃ e : SysEffect, (executing 4 (List.replicate 64 1)).cur.stack = [] ++ List.replicate 64 1 ∧ ([] : List W56).length = e.pops ∧
      e.pushes ≠ [] ∧ Params.standard.dstackSize < (List.replicate 64 (1 : W56)).length + e.pushes.length) ∧
    (∃ e : SysEffect, ∃ c ∈ e.stores, Params.standard.valid c.1.toNat = true ∧ (executing 4 []).hitsOwnWord c.1.toNat 1 = true) :=
  ⟨by decide +kernel, by decide +kernel, by decide +kernel, by decide +kernel, by decide +kernel,
   ⟨⟨1, [7, 8], 0, [(3, 4)], some .badMemory⟩, by decide +kernel, by decide +kernel, by decide +kernel, by decide +kernel, fun c hc _ => by
      rw [List.mem_singleton.1 hc]
      decide +kernel⟩, ⟨⟨2, [], 0, [], none⟩, by decide +kernel⟩,
   ⟨⟨0, [7], 0, [], none⟩, by decide +kernel⟩, ⟨⟨0, [], 0, [(5, 4)], none⟩, (5, 4), List.mem_singleton.2 rfl, by decide +kernel⟩⟩

theorem witness_MissingParametersRestart : (executing 4 [1]).cur.stack.length < paramCount .add ∧
    (executing 4 []).cur.stack.length < paramCount .sysfn ∧ (executing 4 [1, 2]).cur.stack.length < paramCount .rot := by
  decide +kernel

theorem witness_FullStackRestarts : Params.standard.dstackSize ≤ (executing 4 (List.replicate 64 1)).cur.stack.length ∧
    (executing 4 (List.replicate 64 1)).cur.stack ≠ [] ∧
    ((executing 4 (0x200 :: List.replicate 63 1)).cur.stack = 0x200 :: List.replicate 63 1 ∧ (0x200 : W56).toNat % 2 = 0 ∧
      isVln Params.standard.typeMap [0x0000] = true ∧
      (executing 4 (0x200 :: List.replicate 63 1)).HoldsWords [0x0000] (0x200 : W56).toNat) :=
  ⟨by decide +kernel, by decide +kernel, by decide +kernel, by decide +kernel, by decide +kernel,
   holds_cons rfl (by decide) (by decide +kernel) trivial⟩

theorem witness_OnlyStoringInstructionsChangeMemory : mayStore .add = false ∧ reachesPlatform .add = false ∧
    ∃ t, exec .add (executing 4 [1, 2]) = .next t := ⟨rfl, rfl, _, rfl⟩

theorem witness_OtherThreadsAreLeftAlone : actsOnThreads .drop = false ∧ ∃ t, exec .drop (second 4 [1]) = .next t := ⟨rfl, _, rfl⟩

theorem witness_RegistersHaveTheirOwnWriters : Instr.drop ≠ .sysfn ∧ (executing 4 [1]).cur.live = true ∧
    ∃ t, exec .drop (executing 4 [1]) = .next t := ⟨by decide, by decide +kernel, _, rfl⟩

end Sys2Proof.Tests
end

/-!
PROOF. NOP, IF, ELSE and ENDIF (spec/40_control.md R134, R138 to R140): what the two operations on open IFs come to in each case, the three
meanings in each case, and from these the statements.
-/
namespace Sys2Proof.Machine

/-! ## Open IFs (R35, R132) -/

/-- An open IF is the one entry that takes no place on the hardware call stack. -/
theorem onCallStack_eq_false {e : CtlEntry} : e.onCallStack = false ↔ e = .ifE := by
  cases e <;> simp [CtlEntry.onCallStack]

theorem ifCount_eq_zero {es : List CtlEntry} : ifCount es = 0 ↔ CtlEntry.ifE ∉ es := by
  simp only [ifCount, List.countP_eq_zero, Bool.not_eq_true', onCallStack_eq_false]
  exact ⟨fun h hm => h _ hm rfl, fun h e he hi => h (hi ▸ he)⟩

theorem pushIf_room {s : State} {k : State → Out} (h : ifCount s.cur.ctl < s.cfg.nestMax) :
    pushIf s k = k (s.withCtl (.ifE :: s.cur.ctl)) := by
  simp only [pushIf, if_pos h]

theorem pushIf_full {s : State} {k : State → Out} (h : s.cfg.nestMax ≤ ifCount s.cur.ctl) :
    pushIf s k = .refused .tooManyIfs := by
  simp only [pushIf, if_neg (Nat.not_lt.2 h)]

theorem popIf_none {s : State} {k : State → Out} (h : CtlEntry.ifE ∉ s.cur.ctl) : popIf s k = raise .badStructure s := by
  simp only [popIf, if_pos (ifCount_eq_zero.2 h)]

theorem popIf_innermost {s : State} {k : State → Out} {es : List CtlEntry} (h : s.cur.ctl = .ifE :: es) :
    popIf s k = k (s.withCtl es) := by
  have hc : ifCount s.cur.ctl ≠ 0 := fun h0 => ifCount_eq_zero.1 h0 (by simp [h])
  rw [popIf, if_neg hc, h]

theorem popIf_not_innermost {s : State} {k : State → Out} {e : CtlEntry} {es : List CtlEntry} (h : s.cur.ctl = e :: es)
    (he : e ≠ .ifE) (hm : CtlEntry.ifE ∈ es) : popIf s k = .refused .ifNotInnermost := by
  have hc : ifCount s.cur.ctl ≠ 0 := fun h0 => ifCount_eq_zero.1 h0 (by simp [h, hm])
  rw [popIf, if_neg hc, h]
  cases e with
  | ifE => exact absurd rfl he
  | callE _ => rfl
  | loopE _ => rfl

/-! ## The meanings -/

theorem exec_nop (s : State) : exec .nop s = .next s := rfl

theorem exec_ifMark (s : State) : exec .ifMark s =
    pop s fun x t => if x = 0 then .next (t.withMode (.scan .skIf [])) else pushIf t .next := rfl

theorem exec_elseMark (s : State) : exec .elseMark s = popIf s fun t => .next (t.withMode (.scan .skElse [])) := rfl

theorem exec_endIf (s : State) : exec .endIf s = popIf s .next := rfl

/-- IF on 0 scans for ELSE or ENDIF. -/
theorem exec_ifMark_zero {s : State} {rest : List W56} (h : s.cur.stack = 0 :: rest) :
    exec .ifMark s = .next (s.setCur { s.cur with stack := rest, mode := .scan .skIf [] }) := by
  simp [exec_ifMark, pop_cons h]

/-- IF on anything else opens an IF. -/
theorem exec_ifMark_ne_zero {s : State} {x : W56} {rest : List W56} (h : s.cur.stack = x :: rest) (hx : x ≠ 0) :
    exec .ifMark s = pushIf (s.setCur { s.cur with stack := rest }) .next := by
  rw [exec_ifMark, pop_cons h, if_neg hx, withStack_eq]

/-! ELSE and ENDIF met in scan mode (R132). -/

theorem scanCode_else (kind : ScanKind) (opened : List OpenKind) (s : State) :
    scanCode 0x7e kind opened s = scanElse kind opened s := rfl

theorem scanCode_endIf (kind : ScanKind) (opened : List OpenKind) (s : State) :
    scanCode 0x7d kind opened s = scanEndIf kind opened s := rfl

/-! ## The statements -/

/-- Settles O19: $7f is NOP's row of the opcode map, and NOP's meaning is the state itself. -/
theorem nopChangesNothing : Obligations.NopChangesNothing :=
  ⟨fun _ => decodeCode_of_fixedCode rfl, exec_nop⟩

/-- Settles O22, by what the pop, the test of the popped value and the push of an open IF each come to. -/
theorem ifOpensOrScans : Obligations.IfOpensOrScans := by
  refine ⟨fun _ => decodeCode_of_fixedCode rfl, ?_, fun s x rest hs => ⟨?_, ?_, ?_⟩⟩
  · intro s hs
    rw [exec_ifMark, pop_nil hs, raise]
  · rintro rfl
    exact exec_ifMark_zero hs
  · intro hx hroom
    rw [exec_ifMark_ne_zero hs hx, pushIf_room (by simpa using hroom)]
    simp
  · intro hx hfull
    rw [exec_ifMark_ne_zero hs hx, pushIf_full (by simpa using hfull)]

/-- Settles O23: both are a `popIf`, which has one outcome for each place an open IF can have on the control stack; the scan of an
ELSE meets both codes with nothing opened. -/
theorem elseAndEndifCloseTheirIf : Obligations.ElseAndEndifCloseTheirIf := by
  refine ⟨fun _ => ⟨decodeCode_of_fixedCode rfl, decodeCode_of_fixedCode rfl⟩, ?_, ?_, ?_, ?_, ?_⟩
  · intro s es hctl
    rw [exec_elseMark, exec_endIf, popIf_innermost hctl, popIf_innermost hctl]
    simp
  · intro s hnone
    rw [exec_elseMark, exec_endIf, popIf_none hnone, popIf_none hnone, raise]
    exact ⟨rfl, rfl⟩
  · intro s e es hctl he hm
    rw [exec_elseMark, exec_endIf, popIf_not_innermost hctl he hm, popIf_not_innermost hctl he hm]
    exact ⟨rfl, rfl⟩
  · intro s k w hscan
    rw [step_scansCode hscan, scanCode_else]
    simp [scanElse]
  · intro s k w hscan
    rw [step_scansCode hscan, scanCode_endIf]
    simp [scanEndIf]

end Sys2Proof.Machine

/-!
PROOF. DROP, DUP, ROT and `=!` (spec/42_stack.md R192, R193, R195, R198): two or three pops in a row, the
four meanings with enough elements on the stack, and from these the statements.
-/
namespace Sys2Proof.Machine

/-! ## Pops in a row (R6) -/

theorem pop_pop_cons {s : State} {x y : W56} {rest : List W56} {k : W56 → W56 → State → Out}
    (h : s.cur.stack = x :: y :: rest) :
    (pop s fun x t => pop t (k x)) = k x y (s.setCur { s.cur with stack := rest }) := by
  rw [pop_cons h, pop_cons (x := y) (xs := rest) (by simp)]
  simp

theorem pop_pop_pop_cons {s : State} {x y z : W56} {rest : List W56} {k : W56 → W56 → W56 → State → Out}
    (h : s.cur.stack = x :: y :: z :: rest) :
    (pop s fun x t => pop t fun y u => pop u (k x y)) = k x y z (s.setCur { s.cur with stack := rest }) := by
  rw [pop_cons h, pop_pop_cons (x := y) (y := z) (rest := rest) (by simp)]
  simp

theorem pop_pop_short {s : State} {k : W56 → W56 → State → Out} (h : s.cur.stack.length < 2) :
    (pop s fun x t => pop t (k x)) = .next (s.restart .stackUnderflow s.here.toNat) := by
  match hs : s.cur.stack with
  | [] => rw [pop_nil hs, raise]
  | [x] =>
    rw [pop_cons hs, pop_nil (by simp)]
    simp [State.here]
  | x :: y :: ys => simp [hs] at h

theorem pop_pop_pop_short {s : State} {k : W56 → W56 → W56 → State → Out} (h : s.cur.stack.length < 3) :
    (pop s fun x t => pop t fun y u => pop u (k x y)) = .next (s.restart .stackUnderflow s.here.toNat) := by
  match hs : s.cur.stack with
  | [] => rw [pop_nil hs, raise]
  | x :: xs =>
    rw [pop_cons hs, pop_pop_short (by simpa [hs, Nat.lt_succ_iff] using h)]
    simp [State.here]

/-! ## The meanings -/

theorem exec_drop (s : State) : exec .drop s = pop s fun _ t => .next t := rfl

theorem exec_dup (s : State) : exec .dup s = pop s fun v t => pushMany [v, v] t .next := rfl

theorem exec_rot (s : State) :
    exec .rot s = pop s fun a t => pop t fun b u => pop u fun c w => pushMany [b, a, c] w .next := rfl

theorem exec_writeVar (s : State) : exec .writeVar s = pop s fun x t => pop t fun v u =>
    if h : x.toNat < 8 then .next (u.setCur { u.cur with vars := u.cur.vars.set x.toNat v h }) else .refused .badVariable := rfl

/-- DROP with an element to remove. -/
theorem exec_drop_cons {s : State} {v : W56} {rest : List W56} (hs : s.cur.stack = v :: rest) :
    exec .drop s = .next (s.setCur { s.cur with stack := rest }) := by
  rw [exec_drop, pop_cons hs, withStack_eq]

/-- DUP with an element to copy: it is popped and pushed twice. -/
theorem exec_dup_cons {s : State} {v : W56} {rest : List W56} (hs : s.cur.stack = v :: rest) :
    exec .dup s = pushMany [v, v] (s.setCur { s.cur with stack := rest }) .next := by
  rw [exec_dup, pop_cons hs, withStack_eq]

/-- ROT with three elements: they are popped and pushed back in the new order. -/
theorem exec_rot_cons {s : State} {a b c : W56} {rest : List W56} (hs : s.cur.stack = a :: b :: c :: rest) :
    exec .rot s = pushMany [b, a, c] (s.setCur { s.cur with stack := rest }) .next := by
  rw [exec_rot, pop_pop_pop_cons hs]

/-- `=!` with a register number and a value: the two pops leave only the test of the number. -/
theorem exec_writeVar_cons {s : State} {x v : W56} {rest : List W56} (hs : s.cur.stack = x :: v :: rest) :
    exec .writeVar s =
      if h : x.toNat < 8 then .next (s.setCur { s.cur with stack := rest, vars := s.cur.vars.set x.toNat v h })
      else .refused .badVariable := by
  rw [exec_writeVar, pop_pop_cons hs]
  simp

/-! ## The statements -/

/-- Settles O35: a pop that finds nothing is $106; where the pops succeed, the result is a series of pushes, which has room or
meets the full stack. -/
theorem dropDupAndRot : Obligations.DropDupAndRot := by
  refine ⟨fun _ => ⟨decodeCode_of_fixedCode rfl, decodeCode_of_fixedCode rfl, decodeCode_of_fixedCode rfl⟩, ?_,
    fun s v rest hs => ⟨exec_drop_cons hs, ?_, ?_⟩, ?_, ?_⟩
  · intro s hs
    rw [exec_drop, exec_dup, pop_nil hs, pop_nil hs, raise]
    exact ⟨rfl, rfl⟩
  · intro hroom
    rw [hs, List.length_cons] at hroom
    rw [exec_dup_cons hs, pushMany_room _ (by simp; omega)]
    simp
  · intro hfull
    rw [hs, List.length_cons] at hfull
    rw [exec_dup_cons hs, pushMany_full _ (by simp) (by simp; omega)]
    simp [State.here]
  · intro s hshort
    rw [exec_rot, pop_pop_pop_short hshort]
  · intro s a b c rest hs hd
    rw [hs, List.length_cons, List.length_cons, List.length_cons] at hd
    rw [exec_rot_cons hs, pushMany_room _ (by simp; omega)]
    simp

/-- Settles O36: two pops, then the test of the register number, on which the write and the refusal turn. -/
theorem writeVariable : Obligations.WriteVariable := by
  refine ⟨fun _ => decodeCode_of_fixedCode rfl, ?_, fun s x v rest hs => ⟨?_, ?_⟩⟩
  · intro s hshort
    rw [exec_writeVar, pop_pop_short hshort]
  · intro h
    rw [exec_writeVar_cons hs, dif_pos h]
  · intro h
    rw [exec_writeVar_cons hs, dif_neg (Nat.not_lt.2 h)]

end Sys2Proof.Machine

/-!
PROOF. NOT, AND, OR and XOR (spec/43_logic.md R211 to R214): what the two operand forms come to with too few elements, the four
meanings as operand forms, and from these the statement.
-/
namespace Sys2Proof.Machine

/-! ## The operand forms with too few elements (R6, R130) -/

theorem unary_nil {f : W56 → W56} {s : State} (h : s.cur.stack = []) :
    unary f s = .next (s.restart .stackUnderflow s.here.toNat) := by
  rw [unary, pop_nil h, raise]

theorem binary_short {f : W56 → W56 → W56} {s : State} (h : s.cur.stack.length < 2) :
    binary f s = .next (s.restart .stackUnderflow s.here.toNat) :=
  pop_pop_short (k := fun y x t => push (f x y) t .next) h

/-! ## The meanings -/

theorem exec_not (s : State) : exec .not s = unary (fun x => ~~~x) s := rfl

theorem exec_and (s : State) : exec .and s = binary (fun x y => x &&& y) s := rfl

theorem exec_or (s : State) : exec .or s = binary (fun x y => x ||| y) s := rfl

theorem exec_xor (s : State) : exec .xor s = binary (fun x y => x ^^^ y) s := rfl

/-- The negation of a word as R211's number: the exclusive or with 2^56 - 1, all of whose 56 bits are set. -/
theorem xor_ofNat_eq_not (x : W56) : x ^^^ BitVec.ofNat 56 (2 ^ 56 - 1) = ~~~x :=
  BitVec.xor_allOnes

/-! ## The statement -/

/-- Settles O37: NOT is the operand form with one parameter and the other three are the form with two, each of which either meets
too short a stack or replaces its parameters. -/
theorem bitwiseResults : Obligations.BitwiseResults := by
  refine ⟨fun _ => ⟨decodeCode_of_fixedCode rfl, decodeCode_of_fixedCode rfl, decodeCode_of_fixedCode rfl,
    decodeCode_of_fixedCode rfl⟩, ?_, ?_, ?_, fun s x y rest hs hd => ⟨?_, ?_, ?_⟩⟩
  · intro s hs
    rw [exec_not, unary_nil hs]
  · intro s hshort i hi
    simp only [List.mem_cons, List.not_mem_nil, or_false] at hi
    obtain rfl | rfl | rfl := hi
    · rw [exec_and, binary_short hshort]
    · rw [exec_or, binary_short hshort]
    · rw [exec_xor, binary_short hshort]
  · intro s x rest hs hd
    rw [exec_not, unary_eq hs hd, xor_ofNat_eq_not]
  · rw [exec_and, binary_eq hs hd]
  · rw [exec_or, binary_eq hs hd]
  · rw [exec_xor, binary_eq hs hd]

end Sys2Proof.Machine

/-!
PROOF. `==`, `<>` and `/` (spec/44_arith.md R233, R234, R240): the truth values of a comparison of words, what a division answers in
each of its cases, the three meanings, and from these the statements.
-/
namespace Sys2Proof.Machine

/-! ## Truth values of comparisons (R247) -/

theorem truth_beq (x y : W56) : truth (x == y) = if x = y then 1 else 0 := by
  simp only [truth, beq_iff_eq]

theorem truth_bne (x y : W56) : truth (x != y) = if x ≠ y then 1 else 0 := by
  simp only [truth, bne_iff_ne]

/-! ## Division (R240, R241, R245) -/

/-- Bit 55 of a word is its sign, set from 2^55 on. -/
theorem msb_iff (x : W56) : x.msb = true ↔ 2 ^ 55 ≤ x.toNat := by
  rw [BitVec.msb_eq_decide, decide_eq_true_iff]

theorem divide_zero (x : W56) : divide x 0 = none := by
  simp only [divide, if_true]

/-- With bit 55 clear in both operands, the division is the one of natural numbers. -/
theorem divide_nonneg {x y : W56} (hy : y ≠ 0) (hx55 : x.toNat < 2 ^ 55) (hy55 : y.toNat < 2 ^ 55) :
    divide x y = some (x / y, x % y) := by
  have h : ¬(x.msb || y.msb) = true := by
    rw [Bool.or_eq_true, msb_iff, msb_iff]
    omega
  rw [divide, if_neg hy, if_neg h]

/-- With bit 55 set in an operand, the division is DIVMOD's. -/
theorem divide_bit55 {x y : W56} (hy : y ≠ 0) (h55 : 2 ^ 55 ≤ x.toNat ∨ 2 ^ 55 ≤ y.toNat) :
    divide x y = Config.divMod x y := by
  have h : (x.msb || y.msb) = true := by rwa [Bool.or_eq_true, msb_iff, msb_iff]
  rw [divide, if_neg hy, if_pos h]

/-! ## The meanings -/

theorem exec_eq (s : State) : exec .eq s = binary (fun x y => truth (x == y)) s := rfl

theorem exec_ne (s : State) : exec .ne s = binary (fun x y => truth (x != y)) s := rfl

theorem exec_div (s : State) : exec .div s = execDiv s := rfl

theorem exec_div_short {s : State} (h : s.cur.stack.length < 2) :
    exec .div s = .next (s.restart .stackUnderflow s.here.toNat) := by
  rw [exec_div, execDiv, pop_pop_short h]

/-- `/` where the division answers error. -/
theorem exec_div_none {s : State} {x y : W56} {rest : List W56} (hs : s.cur.stack = y :: x :: rest)
    (h : divide x y = none) : exec .div s = .next (s.restart .arithmetic s.here.toNat) := by
  rw [exec_div, execDiv, pop_pop_cons hs, h]
  simp [State.here]

/-- `/` where the division answers: the quotient takes the place of the operands, so the push has room. -/
theorem exec_div_some {s : State} {x y q r : W56} {rest : List W56} (hs : s.cur.stack = y :: x :: rest)
    (hd : s.cur.stack.length ≤ s.cfg.dstackSize) (h : divide x y = some (q, r)) :
    exec .div s = .next (s.setCur { s.cur with stack := q :: rest }) := by
  have hroom : rest.length < s.cfg.dstackSize := by
    rw [hs, List.length_cons, List.length_cons] at hd
    omega
  rw [exec_div, execDiv, pop_pop_cons hs, h]
  simp only
  rw [push_room (by simpa using hroom)]
  simp

/-! ## The statements -/

/-- Settles O39: both are the operand form with two parameters, which meets too short a stack or leaves the truth value of the
comparison. -/
theorem equalityResults : Obligations.EqualityResults := by
  refine ⟨fun _ => ⟨decodeCode_of_fixedCode rfl, decodeCode_of_fixedCode rfl⟩, fun s hshort => ⟨?_, ?_⟩,
    fun s x y rest hs hd => ⟨?_, ?_⟩⟩
  · rw [exec_eq, binary_short hshort]
  · rw [exec_ne, binary_short hshort]
  · rw [exec_eq, binary_eq hs hd, truth_beq]
  · rw [exec_ne, binary_eq hs hd, truth_bne]

/-- Settles O42: the outcome turns on what the division answers, an error on a zero divisor, the quotient of natural numbers where
bit 55 is clear in both operands, and otherwise what DIVMOD answers. -/
theorem quotientResults : Obligations.QuotientResults := by
  refine ⟨fun _ => decodeCode_of_fixedCode rfl, fun s => exec_div_short, fun s x y rest hs hd => ⟨?_, ?_, ?_⟩⟩
  · rintro rfl
    exact exec_div_none hs (divide_zero x)
  · intro hy hx55 hy55
    rw [exec_div_some hs hd (divide_nonneg hy hx55 hy55), BitVec.udiv_def]
  · intro hy h55
    have hdiv := divide_bit55 hy h55
    match hm : Config.divMod x y with
    | none => exact exec_div_none hs (hdiv.trans hm)
    | some (q, r) => exact exec_div_some hs hd (hdiv.trans hm)

end Sys2Proof.Machine

/-!
PROOF. The snapshot conditions of ENTER and LEAVE (spec/60_exceptions.md R322, R323): the two meanings, what each comes to where it
raises, and from these the statement.
-/
namespace Sys2Proof.Machine

/-! ## The meanings (R171, R172) -/

theorem exec_enter (s : State) : exec .enter s = execEnter s := rfl

theorem exec_leave (s : State) : exec .leave s = execLeave s := rfl

/-- ENTER in a thread that holds a snapshot. -/
theorem exec_enter_snap_some {s : State} {n : Nat} (h : s.cur.snap = some n) :
    exec .enter s = raise .doubleEnter s := by
  rw [exec_enter, execEnter, h]

/-- LEAVE in a thread that holds none. -/
theorem exec_leave_snap_none {s : State} (h : s.cur.snap = none) :
    exec .leave s = raise .leaveWithoutEnter s := by
  rw [exec_leave, execLeave, h]

/-! ## The statement -/

/-- Settles O33: each meaning turns on the snapshot the thread holds, and in these cases raises its condition; the codes are
the table's. -/
theorem snapshotConditions : Obligations.SnapshotConditions := by
  refine ⟨fun s n hsnap => ?_, fun s hsnap => ?_, rfl, rfl⟩
  · rw [exec_enter_snap_some hsnap, raise]
  · rw [exec_leave_snap_none hsnap, raise]

end Sys2Proof.Machine

/-!
PROOF. Program words and VLN constants (spec/30_encoding.md R90 to R101): what a word of two codes decodes to, what a word that decodes is
made of, which codes decode to nothing, and how many groups a value takes.
-/
namespace Sys2Proof.Machine

/-! ## Words of two instructions (R90 to R92) -/

/-- Some code stands for each well-formed instruction, and it decodes to that instruction. -/
theorem encodeCode_decodes {p : Params} {i : Instr} (hp : p.wf = true) (hi : i.wf p = true) :
    ∃ c, encodeCode p.sysfnOpcode i = some c ∧ decodeCode p.sysfnOpcode c = .ok i := by
  cases h : i.fixedCode with
  | some c => exact Laws.SlotRoundTrip.of_fixedCode h p hp hi
  | none =>
    obtain rfl := fixedCode_eq_none h
    exact Laws.SlotRoundTrip.sysfn p hp hi

theorem decodeWord_instrWord_zero {p : Params} (h : p.typeMap.wf = true) (c d : Code7) :
    decodeWord p false (instrWord p.typeMap c d) = decodeCode p.sysfnOpcode c := by
  simp only [decodeWord, instrWord, wordClass_typedWord h, payloadOf_typedWord, slotCode_zero]

theorem decodeWord_instrWord_one {p : Params} (h : p.typeMap.wf = true) (c d : Code7) :
    decodeWord p true (instrWord p.typeMap c d) = decodeCode p.sysfnOpcode d := by
  simp only [decodeWord, instrWord, wordClass_typedWord h, payloadOf_typedWord, slotCode_one]

/-- A slot that decodes stands in a word of class INSTR and holds the code of the instruction. -/
theorem decodeWord_eq_ok {p : Params} {odd : Bool} {w : Word16} {i : Instr} (h : decodeWord p odd w = .ok i) :
    wordClass p.typeMap w = .instr ∧ decodeCode p.sysfnOpcode (slotCode odd (payloadOf w)) = .ok i := by
  unfold decodeWord at h
  split at h
  · next hc => exact ⟨hc, h⟩
  · cases h

/-- Settles O2: the word's class and payload are the encoder's own, its slots are the two codes, and each code decodes to the
instruction it stands for. -/
theorem encodedWordsDecodeToTheirInstructions : Obligations.EncodedWordsDecodeToTheirInstructions := by
  intro p i j hp hi hj
  obtain ⟨c, hc, hdc⟩ := encodeCode_decodes hp hi
  obtain ⟨d, hd, hdd⟩ := encodeCode_decodes hp hj
  have hm := typeMap_wf hp
  refine ⟨instrWord p.typeMap c d, by simp only [encode, hc, hd], ?_, ?_⟩
  · rw [decodeWord_instrWord_zero hm, hdc]
  · rw [decodeWord_instrWord_one hm, hdd]

/-- Settles O3: a word whose slots decode is its class INSTR over its two slots, whose codes are those of the instructions. -/
theorem decodedWordsEncodeBack : Obligations.DecodedWordsEncodeBack := by
  intro p w i j hp hi hj
  obtain ⟨hc, hi⟩ := decodeWord_eq_ok hi
  obtain ⟨-, hj⟩ := decodeWord_eq_ok hj
  have hw : instrWord p.typeMap (slotCode false (payloadOf w)) (slotCode true (payloadOf w)) = w := by
    rw [instrWord, slots_append, ← hc, typedWord_of_parts (typeMap_wf hp)]
  simp only [encode, encodeCode_of_decodeCode hi, encodeCode_of_decodeCode hj, hw]

/-- Settles O1: each word under the placeholder map, evaluated. -/
theorem sampleProgramWordsDecode : Obligations.SampleProgramWordsDecode := by
  unfold Obligations.SampleProgramWordsDecode
  decide

/-! ## Codes without an instruction (R99, R100) -/

/-- A code outside R99's list is some instruction's own, and that instruction is not SYSFN. -/
theorem decodeCode_assigned {c : Code7} (h : c.toNat ∉ unassignedCodes) :
    ∃ i, i ≠ .sysfn ∧ ∀ o, decodeCode o c = .ok i := by
  cases hl : lookupRow c.toNat opcodeRows with
  | none => exact absurd ((lookupRow_spec c).1.1 hl) h
  | some i =>
    have hf := (lookupRow_spec c).2 i hl
    refine ⟨i, ?_, fun o => decodeCode_of_fixedCode hf⟩
    rintro rfl
    cases hf

/-- Settles O4: an assigned code is its instruction's under every setting; an unassigned one is what SYSFN_OPCODE makes of it. -/
theorem unassignedCodesDecodeToNothing : Obligations.UnassignedCodesDecodeToNothing := by
  intro o c ho
  by_cases hc : c.toNat ∈ unassignedCodes
  · rw [decodeCode_unassigned hc, decodeCode_unassigned hc]
    by_cases hoc : o = c
    · simp [hoc, hc]
    · simp [hoc, hc, Ne.symm hoc]
  · obtain ⟨i, hi, hd⟩ := decodeCode_assigned hc
    have hne : c ≠ o := by
      rintro rfl
      exact hc ho
    simp [hd, hc, hi, hne]

/-! ## Constants (R93, R95) -/

theorem vlnValue_lt (ws : List Word16) : vlnValue ws < 2 ^ (14 * ws.length) := by
  induction ws with
  | nil => simp [vlnValue]
  | cons w ws ih =>
    have hw := (payloadOf w).isLt
    rw [vlnValue, List.length_cons, show 14 * (ws.length + 1) = 14 + 14 * ws.length by ring, pow_add]
    omega

theorem vlnWords_length (m : TypeMap) (v : W56) : (vlnWords m v).length =
    if v.toNat < 2 ^ 14 then 1 else if v.toNat < 2 ^ 28 then 2 else if v.toNat < 2 ^ 42 then 3 else 4 := by
  unfold vlnWords
  split_ifs <;> rfl

/-- A value below 2^(14 n) takes at most n words. -/
theorem vlnWords_length_le {m : TypeMap} {v : W56} {n : Nat} (hn : n ≠ 0) (h : v.toNat < 2 ^ (14 * n)) :
    (vlnWords m v).length ≤ n := by
  rw [vlnWords_length]
  obtain rfl | rfl | rfl | h4 : n = 1 ∨ n = 2 ∨ n = 3 ∨ 4 ≤ n := by omega
  · rw [if_pos h]
  · split_ifs <;> omega
  · split_ifs <;> omega
  · split_ifs <;> omega

theorem vlnWords_isVln {m : TypeMap} (h : m.wf = true) (v : W56) : isVln m (vlnWords m v) = true := by
  unfold vlnWords
  split_ifs <;> simp [isVln, wordClass_typedWord h]

/-- The groups of a value's words make the value. -/
theorem vlnValue_vlnWords (m : TypeMap) (v : W56) : vlnValue (vlnWords m v) = v.toNat := by
  have hv := v.isLt
  unfold vlnWords
  split_ifs <;> simp only [vlnValue, payloadOf_typedWord, vlnGroup_toNat] <;> omega

theorem isVln_ne_nil {m : TypeMap} {ws : List Word16} (h : isVln m ws = true) : ws ≠ [] := by
  rintro rfl
  cases h

/-- Settles O5: n groups hold the values below 2^(14 n), and the encoder takes as few as hold the value. -/
theorem constantsEncodeTheirValue : Obligations.ConstantsEncodeTheirValue := by
  intro m v hm
  refine ⟨vlnWords_isVln hm v, vlnWords_length_le (by decide) v.isLt, vlnValue_vlnWords m v, fun ws hws hval => ?_⟩
  refine vlnWords_length_le (fun h0 => isVln_ne_nil hws (List.length_eq_zero_iff.1 h0)) ?_
  rw [← hval]
  exact vlnValue_lt ws

end Sys2Proof.Machine

/-!
PROOF. What holds of every step (spec/00_scope.md R3, spec/10_state.md R34 to R36, spec/60_exceptions.md R333): the parameters stay, nothing
faults while a thread lives, and the invariant is kept.
-/
namespace Sys2Proof.Machine

/-! ## Properties that no thread has a part in -/

/-- A property that looks at no thread, not at PXR and not at the count of draws is kept by every update but the stores to memory and
the moves of the platform. -/
theorem closed_of_threadless {R : State → Prop} {i : Instr}
    (threads : ∀ s thr pxr draws, R s → R { s with thr := thr, pxr := pxr, draws := draws })
    (stored : mayStore i = true → ∀ s a b, R s → s.cfg.valid a = true → R (s.storeByte a b))
    (reached : reachesPlatform i = true → ∀ s p, R s → R { s with platform := p }) : Closed R R i where
  done _ h := h
  restart _ _ h := threads _ _ _ _ h
  drawn _ _ h := threads _ _ _ _ h
  stack _ _ h _ := threads _ _ _ _ h
  jumped _ _ h := threads _ _ _ _ h
  closed _ _ _ h _ := threads _ _ _ _ h
  called _ _ h _ _ _ := threads _ _ _ _ h
  opened _ h _ := threads _ _ _ _ h
  ended _ _ h _ := threads _ _ _ _ h
  scanned _ _ _ h := threads _ _ _ _ h
  held _ _ _ h := threads _ _ _ _ h
  vars _ _ _ h := threads _ _ _ _ h
  prio _ _ _ h _ := threads _ _ _ _ h
  entered _ _ h := threads _ _ _ _ h
  left _ _ _ _ h _ _ := threads _ _ _ _ h
  begun _ s _ _ h _ := threads s _ _ _ h
  alone _ _ h := threads _ _ _ _ h
  stored := stored
  reached := reached

theorem cfg_stepClosed (p : Params) : StepClosed (fun s => s.cfg = p) (fun s => s.cfg = p) where
  exec _ := closed_of_threadless (fun _ _ _ _ h => h) (fun _ s a b h _ => (storeByte_cfg s a b).trans h) fun _ _ _ h => h
  restart _ _ _ h := h
  scan _ _ h _ := h
  slot _ _ _ h := h
  reached _ _ h := h

theorem true_stepClosed : StepClosed (fun _ => True) (fun _ => True) where
  exec _ := closed_of_threadless (fun _ _ _ _ h => h) (fun _ _ _ _ h _ => h) fun _ _ _ h => h
  restart _ _ _ h := h
  scan _ _ h _ := h
  slot _ _ _ h := h
  reached _ _ h := h

/-- Where no thread is live, there is no step. -/
theorem step_of_none {s : State} (h : s.chosen = none) : step s = .fault .noLiveThread := by
  simp only [step, machineStep, h]

/-- Settles O8: executing, fetching, scanning and releasing leave the parameters. -/
theorem stepKeepsParameters : Obligations.StepKeepsParameters := by
  intro s t e
  cases hk : s.chosen with
  | none => rw [step_of_none hk] at e; cases e
  | some k => exact always_of_next (closed_step (cfg_stepClosed s.cfg) hk (fun _ => rfl) fun _ => rfl) e

/-- Settles O9: a live thread is chosen, and no step of a chosen thread faults. -/
theorem stepNeverFaultsWithThreadZeroLive : Obligations.StepNeverFaultsWithThreadZeroLive := by
  intro s r h0
  obtain ⟨k, hk⟩ := chosen_of_live h0
  exact always_not_fault (closed_step true_stepClosed hk (fun _ => trivial) fun _ => trivial) r

/-! ## The bounds of a thread (R34 to R36, R170) -/

theorem thread_ok_iff {p : Params} {t : Thread} : t.ok p = true ↔
    t.stack.length ≤ p.dstackSize ∧ callCount t.ctl ≤ p.cstackSize ∧ ifCount t.ctl ≤ p.nestMax ∧
    (∀ e ∈ t.ctl, e.ok = true) ∧ t.mode.ok p.nestMax = true ∧ t.snap.getD 0 ≤ p.dstackSize ∧ 1 ≤ t.prio := by
  simp only [Thread.ok, Bool.and_eq_true, decide_eq_true_eq, List.all_eq_true, and_assoc]

theorem dstackSize_of_wf {p : Params} (h : p.wf = true) : 2 ≤ p.dstackSize := by
  simp only [Params.wf, Bool.and_eq_true] at h
  simpa [Params.dstackOk] using h.1.1.1.1.1.1.2

theorem maxThreads_of_wf {p : Params} (h : p.wf = true) : 1 ≤ p.maxThreads := by
  simp only [Params.wf, Bool.and_eq_true, Params.threadsOk, decide_eq_true_eq] at h
  exact h.1.1.1.1.1.1.1.1

/-- A thread that begins keeps the bounds, with no more elements than fit. -/
theorem begun_ok {p : Params} (n : Nat) (pc : A28) {xs : List W56} (h : xs.length ≤ p.dstackSize) :
    (Thread.begun n pc xs).ok p = true := by
  rw [thread_ok_iff]
  simp [Thread.begun, callCount, ifCount, Mode.ok, h]

theorem callCount_cons (e : CtlEntry) (es : List CtlEntry) :
    callCount (e :: es) = callCount es + if e.onCallStack = true then 1 else 0 := by
  rw [callCount, callCount, List.countP_cons]

theorem ifCount_cons (e : CtlEntry) (es : List CtlEntry) :
    ifCount (e :: es) = ifCount es + if e.onCallStack = true then 0 else 1 := by
  rw [ifCount, ifCount, List.countP_cons]
  cases e.onCallStack <;> rfl

/-! ## The invariant -/

/-- The invariant while a step of a live thread is under way. -/
structure Working (s : State) : Prop where
  inv : s.Inv
  live : s.cur.live = true

theorem Working.curOk {s : State} (h : Working s) : s.cur.ok s.cfg = true :=
  (h.inv.threads_ok s.pxr h.live).2

/-- Replacing the thread in use by a live one within the bounds. -/
theorem Working.setCur {s : State} (h : Working s) {t : Thread} (hl : t.live = true) (ht : t.ok s.cfg = true) :
    Working (s.setCur t) := by
  refine ⟨⟨h.inv.cfg_wf, h.inv.mem_wf, h.inv.mem_valid, ?_, fun k hk => ?_⟩, by rw [cur_setCur, hl]⟩
  · rw [thread_setCur]
    split
    · exact hl
    · exact h.inv.zero_live
  · rw [thread_setCur] at hk ⊢
    split at hk
    · next e => rw [if_pos e, e]; exact ⟨(h.inv.threads_ok s.pxr h.live).1, ht⟩
    · next e => rw [if_neg e]; exact h.inv.threads_ok k hk

/-- Replacing the thread in use by one that differs where the bounds do not look. -/
theorem Working.setCur_same {s : State} (h : Working s) {t : Thread} (hl : t.live = s.cur.live) (hs : t.stack = s.cur.stack)
    (hc : t.ctl = s.cur.ctl) (hm : t.mode = s.cur.mode) (hn : t.snap = s.cur.snap) (hp : t.prio = s.cur.prio) :
    Working (s.setCur t) := by
  refine h.setCur (hl.trans h.live) ?_
  have hok := h.curOk
  rw [thread_ok_iff] at hok ⊢
  rwa [hs, hc, hm, hn, hp]

theorem inv_restart {s : State} (h : s.Inv) (c : Condition) (a : Nat) : (s.restart c a).Inv := by
  refine ⟨h.cfg_wf, h.mem_wf, h.mem_valid, by rw [restart_thread_zero]; rfl, fun k hk => ?_⟩
  by_cases h0 : k = 0
  · subst h0
    rw [restart_thread_zero]
    exact ⟨maxThreads_of_wf h.cfg_wf, begun_ok _ _ (dstackSize_of_wf h.cfg_wf)⟩
  · rw [restart_thread_of_ne _ _ _ h0] at hk
    cases hk

theorem inv_endThread {s : State} (h : s.Inv) {j : BitVec 7} (hj : j ≠ 0) : (s.endThread j).Inv := by
  refine ⟨h.cfg_wf, h.mem_wf, h.mem_valid, ?_, fun k hk => ?_⟩
  · rw [State.endThread, thread_setThread_of_ne _ _ (Ne.symm hj)]
    exact h.zero_live
  · rw [State.endThread, thread_setThread] at hk ⊢
    split at hk
    · cases hk
    · next e => rw [if_neg e]; exact h.threads_ok k hk

theorem inv_endOthers {s : State} (h : s.Inv) : s.endOthers.Inv := by
  refine ⟨h.cfg_wf, h.mem_wf, h.mem_valid, by rw [endOthers_thread_zero]; exact h.zero_live, fun k hk => ?_⟩
  by_cases h0 : k = 0
  · subst h0
    rw [endOthers_thread_zero]
    exact h.threads_ok 0 h.zero_live
  · rw [endOthers_thread_of_ne _ h0] at hk
    cases hk

/-- A live thread stands at no free index. -/
theorem pxr_ne_of_live {s : State} {j : BitVec 7} (hl : s.cur.live = true) (hj : (s.thread j).live = false) : s.pxr ≠ j := by
  rintro rfl
  rw [State.cur, hj] at hl
  cases hl

theorem cur_setThread_of_ne (s : State) {j : BitVec 7} (t : Thread) (h : s.pxr ≠ j) : (s.setThread j t).cur = s.cur :=
  thread_setThread_of_ne s t h

/-- Starting a thread at a free index (R173). -/
theorem Working.begin {s : State} (h : Working s) {j : BitVec 7} (a : A28) (hj : j ∈ s.freeThreads) :
    Working ((s.setThread j (Thread.begun s.draws a [])).drawn 9) := by
  obtain ⟨hj0, hjm, hjl⟩ := mem_freeThreads.1 hj
  have hne := pxr_ne_of_live h.live hjl
  refine ⟨⟨h.inv.cfg_wf, h.inv.mem_wf, h.inv.mem_valid, ?_, fun k hk => ?_⟩, ?_⟩
  · rw [drawn_thread, thread_setThread_of_ne _ _ (Ne.symm hj0)]
    exact h.inv.zero_live
  · rw [drawn_thread, thread_setThread] at hk ⊢
    split at hk
    · next e => rw [if_pos e, e]; exact ⟨hjm, begun_ok _ _ (Nat.zero_le _)⟩
    · next e => rw [if_neg e]; exact h.inv.threads_ok k hk
  · rw [drawn_cur, cur_setThread_of_ne _ _ hne]
    exact h.live

/-- Storing a byte where memory exists. -/
theorem Working.store {s : State} (h : Working s) {a : Nat} (b : Byte) (hv : s.cfg.valid a = true) :
    Working (s.storeByte a b) := by
  refine ⟨⟨by rw [storeByte_cfg]; exact h.inv.cfg_wf, storeByte_wf a b h.inv.mem_wf, fun c hc => ?_, ?_, fun k hk => ?_⟩, ?_⟩
  · rw [storeByte_cfg]
    unfold State.storeByte at hc
    split at hc
    · exact h.inv.mem_valid c hc
    · rcases Memory.mem_write hc with e | hm
      · rw [e, hv]
      · exact h.inv.mem_valid c hm
  · simpa [State.thread] using h.inv.zero_live
  · simp only [State.thread, storeByte_thr] at hk
    simpa [State.thread] using h.inv.threads_ok k hk
  · simpa [State.cur, State.thread] using h.live

/-- The updates of every instruction keep the invariant. -/
theorem working_closed (i : Instr) : Closed Working State.Inv i where
  done _ h := h.inv
  restart _ _ h := inv_restart h.inv _ _
  drawn _ _ h := ⟨⟨h.inv.cfg_wf, h.inv.mem_wf, h.inv.mem_valid, h.inv.zero_live, h.inv.threads_ok⟩, h.live⟩
  stack s xs h hxs := by
    obtain ⟨hst, hcall, hif, hctl, hmode, hsnap, hprio⟩ := thread_ok_iff.1 h.curOk
    exact h.setCur h.live (thread_ok_iff.2 ⟨hxs.elim (fun hle => hle.trans hst) id, hcall, hif, hctl, hmode, hsnap, hprio⟩)
  jumped s a h := (h.setCur_same (t := { s.cur with pc := a }) rfl rfl rfl rfl rfl rfl).inv
  closed s e es h he := by
    obtain ⟨hst, hcall, hif, hctl, hmode, hsnap, hprio⟩ := thread_ok_iff.1 h.curOk
    rw [he, callCount_cons] at hcall
    rw [he, ifCount_cons] at hif
    exact h.setCur h.live (thread_ok_iff.2 ⟨hst, by dsimp only; omega, by dsimp only; omega,
      fun e' he' => hctl e' (by rw [he]; exact List.mem_cons_of_mem _ he'), hmode, hsnap, hprio⟩)
  called s e h he hc hroom := by
    obtain ⟨hst, hcall, hif, hctl, hmode, hsnap, hprio⟩ := thread_ok_iff.1 h.curOk
    exact h.setCur h.live (thread_ok_iff.2 ⟨hst, by rw [callCount_cons, if_pos hc]; exact hroom,
      by rw [ifCount_cons, if_pos hc]; exact hif, List.forall_mem_cons.2 ⟨he, hctl⟩, hmode, hsnap, hprio⟩)
  opened s h hroom := by
    obtain ⟨hst, hcall, hif, hctl, hmode, hsnap, hprio⟩ := thread_ok_iff.1 h.curOk
    exact h.setCur h.live (thread_ok_iff.2
      ⟨hst, hcall, by rw [ifCount_cons]; exact hroom, List.forall_mem_cons.2 ⟨rfl, hctl⟩, hmode, hsnap, hprio⟩)
  ended _ _ h h0 := inv_endThread h.inv h0
  scanned _ s _ h := by
    obtain ⟨hst, hcall, hif, hctl, -, hsnap, hprio⟩ := thread_ok_iff.1 h.curOk
    exact h.setCur h.live (thread_ok_iff.2 ⟨hst, hcall, hif, hctl, by simp [Mode.ok], hsnap, hprio⟩)
  held _ _ _ h := h.setCur_same rfl rfl rfl rfl rfl rfl
  vars _ _ _ h := h.setCur_same rfl rfl rfl rfl rfl rfl
  prio _ s n h hn := by
    obtain ⟨hst, hcall, hif, hctl, hmode, hsnap, -⟩ := thread_ok_iff.1 h.curOk
    exact h.setCur h.live (thread_ok_iff.2 ⟨hst, hcall, hif, hctl, hmode, hsnap, Nat.one_le_iff_ne_zero.2 hn⟩)
  entered _ s h := by
    obtain ⟨hst, hcall, hif, hctl, hmode, -, hprio⟩ := thread_ok_iff.1 h.curOk
    exact h.setCur h.live (thread_ok_iff.2 ⟨hst, hcall, hif, hctl, hmode, hst, hprio⟩)
  left _ s n xs h hn hxs := by
    obtain ⟨-, hcall, hif, hctl, hmode, hsnap, hprio⟩ := thread_ok_iff.1 h.curOk
    rw [hn] at hsnap
    exact h.setCur h.live (thread_ok_iff.2 ⟨hxs ▸ hsnap, hcall, hif, hctl, hmode, Nat.zero_le _, hprio⟩)
  begun _ _ _ a h hj := h.begin a hj
  alone _ _ h := inv_endOthers h.inv
  stored _ _ _ b h hv := h.store b hv
  reached _ _ _ h := ⟨⟨h.inv.cfg_wf, h.inv.mem_wf, h.inv.mem_valid, h.inv.zero_live, h.inv.threads_ok⟩, h.live⟩

theorem working_stepClosed : StepClosed Working State.Inv where
  exec := working_closed
  restart _ _ _ h := inv_restart h.inv _ _
  scan s m h hm := by
    obtain ⟨hst, hcall, hif, hctl, hmode, hsnap, hprio⟩ := thread_ok_iff.1 h.curOk
    exact h.setCur h.live (thread_ok_iff.2 ⟨hst, hcall, hif, hctl, hm hmode, hsnap, hprio⟩)
  slot _ _ _ h := h.setCur_same rfl rfl rfl rfl rfl rfl
  reached _ _ h := ⟨⟨h.inv.cfg_wf, h.inv.mem_wf, h.inv.mem_valid, h.inv.zero_live, h.inv.threads_ok⟩, h.live⟩

/-- A live thread that PXR selects works on under the invariant, whatever DLYC and the count of draws come to. -/
theorem working_of_live {s : State} (h : s.Inv) {k : BitVec 7} (hk : (s.thread k).live = true) (d : W56) (n : Nat) :
    Working { s with pxr := k, dlyc := d, draws := n } :=
  ⟨⟨h.cfg_wf, h.mem_wf, h.mem_valid, h.zero_live, h.threads_ok⟩, hk⟩

theorem working_select {s : State} (h : s.Inv) {k : BitVec 7} (hk : (s.thread k).live = true) : Working (s.select k) :=
  (working_of_live h hk _ _).setCur_same rfl rfl rfl rfl rfl rfl

theorem inv_release {s : State} (h : s.Inv) {k : BitVec 7} (hk : (s.thread k).live = true) : (s.release k).Inv := by
  have hw := ((working_of_live h hk (Config.freeWord s.draws) (s.draws + 1)).setCur_same
    (t := { s.thread k with held := false }) rfl rfl rfl rfl rfl rfl).inv
  exact ⟨hw.cfg_wf, hw.mem_wf, hw.mem_valid, hw.zero_live, hw.threads_ok⟩

/-- Settles O7: the invariant holds on while the chosen thread, which lives, executes, fetches or scans, and its release touches no bound. -/
theorem stepKeepsInvariant : Obligations.StepKeepsInvariant := by
  intro s t h e
  obtain ⟨k, hk⟩ := chosen_of_live h.zero_live
  have hl := chosen_live hk
  exact always_of_next (closed_step working_stepClosed hk (fun _ => inv_release h hl) fun _ => working_select h hl) e

/-! ## The cold start and the restart (R40, R312, R324, R325) -/

theorem reset_thread_zero : State.reset.thread 0 = Thread.coldStart := by
  simp [State.thread, State.reset]

theorem reset_thread_of_ne {k : BitVec 7} (h : k ≠ 0) : State.reset.thread k = Thread.ended := by
  have hne : (0 : Nat) ≠ k.toNat := fun e => h (BitVec.eq_of_toNat_eq (by simpa using e.symm))
  simp [State.thread, State.reset, hne]

/-- Settles O6: the standard parameters are legal, memory lists nothing, and thread 0 alone lives, within the bounds. -/
theorem resetMeetsInvariant : Obligations.ResetMeetsInvariant := by
  refine ⟨rfl, reset_mem_wf, fun c hc => (List.not_mem_nil hc).elim,
    by rw [reset_thread_zero]; rfl, fun k hk => ?_⟩
  by_cases h0 : k = 0
  · subst h0
    rw [reset_thread_zero]
    exact ⟨by decide, by decide⟩
  · rw [reset_thread_of_ne h0] at hk
    cases hk

/-- Settles O10: the record of thread 0 at a cold start, and the threads that do not exist. -/
theorem coldStartState : Obligations.ColdStartState := by
  refine ⟨rfl, rfl, fun k hk => by rw [reset_thread_of_ne hk]; rfl, ?_⟩
  rw [reset_thread_zero]
  exact ⟨rfl, rfl, rfl, rfl, rfl, rfl, rfl, rfl⟩

/-- Settles O11: thread 0 begins again with the code over the event address, which is what the rule of EVENT_ADDR makes of the slot. -/
theorem restartLeavesTheStartState : Obligations.RestartLeavesTheStartState := by
  intro s c
  refine ⟨s.restart c s.here.toNat, rfl, rfl, rfl, rfl, fun k hk => by rw [restart_thread_of_ne _ _ _ hk]; rfl, ?_⟩
  rw [restart_thread_zero]
  refine ⟨rfl, rfl, rfl, rfl, rfl, rfl, rfl, rfl, fun hr => ?_, fun hr => ?_⟩ <;> rw [State.eventAddress, hr]

end Sys2Proof.Machine

/-!
PROOF. What every instruction leaves alone (spec/10_state.md R20 to R36, spec/20_memory.md R78, spec/70_reset_and_hazards.md R358), and what
it does where its parameters are missing (spec/40_control.md R130).
-/
namespace Sys2Proof.Machine

/-! ## Memory and the platform (R78) -/

theorem mem_closed {i : Instr} (hi : mayStore i = false) (m : Memory) : Closed (fun s => s.mem = m) (fun s => s.mem = m) i :=
  closed_of_threadless (fun _ _ _ _ h => h) (fun h => absurd (hi.symm.trans h) (by decide)) fun _ _ _ h => h

theorem platform_closed {i : Instr} (hi : reachesPlatform i = false) (p : Nat) :
    Closed (fun s => s.platform = p) (fun s => s.platform = p) i :=
  closed_of_threadless (fun _ _ _ _ h => h) (fun _ s a b h _ => (storeByte_platform s a b).trans h)
    fun h => absurd (hi.symm.trans h) (by decide)

/-- Settles O58: the updates of an instruction that does not store keep memory, those of one that reaches no peripheral the platform. -/
theorem onlyStoringInstructionsChangeMemory : Obligations.OnlyStoringInstructionsChangeMemory := by
  intro i s t e
  refine ⟨fun hi => ?_, fun hi => ?_⟩
  · exact always_of_next (closed_exec (mem_closed hi s.mem) (by rintro rfl; cases hi) rfl) e
  · exact always_of_next (closed_exec (platform_closed hi s.platform) (by rintro rfl; cases hi) rfl) e

/-! ## The instruction under way -/

/-- A later state of the instruction that began in `s`: the same parameters, the same thread, the same address. -/
structure SameInstr (s u : State) : Prop where
  cfg : u.cfg = s.cfg
  pxr : u.pxr = s.pxr
  pc : u.cur.pc = s.cur.pc

theorem SameInstr.restarted {s u : State} (h : SameInstr s u) (c : Condition) : RestartedFrom s (u.restart c u.here.toNat) :=
  ⟨c, u, h.cfg, by rw [State.here, State.here, h.pc]⟩

theorem SameInstr.setCur {s u : State} (h : SameInstr s u) {t : Thread} (ht : t.pc = u.cur.pc) : SameInstr s (u.setCur t) :=
  ⟨h.cfg, h.pxr, by rw [cur_setCur, ht, h.pc]⟩

theorem SameInstr.store {s u : State} (h : SameInstr s u) (a : Nat) (b : Byte) : SameInstr s (u.storeByte a b) :=
  ⟨(storeByte_cfg u a b).trans h.cfg, (storeByte_pxr u a b).trans h.pxr, by simpa [State.cur, State.thread] using h.pc⟩

/-! ## The other threads (R21, R358) -/

/-- While an instruction that acts on no other thread executes. -/
structure OthersKept (s u : State) : Prop extends SameInstr s u where
  others : ∀ k, k ≠ s.pxr → u.thread k = s.thread k

theorem OthersKept.setCur {s u : State} (h : OthersKept s u) {t : Thread} (ht : t.pc = u.cur.pc) : OthersKept s (u.setCur t) :=
  ⟨h.toSameInstr.setCur ht, fun k hk => by rw [thread_setCur_of_ne _ _ (by rw [h.pxr]; exact hk), h.others k hk]⟩

/-- What such an instruction leaves. -/
def OthersLeft (s t : State) : Prop :=
  (∀ k, k ≠ s.pxr → t.thread k = s.thread k) ∨ RestartedFrom s t

theorem othersKept_closed {i : Instr} (hi : actsOnThreads i = false) (s : State) : Closed (OthersKept s) (OthersLeft s) i where
  done _ h := .inl h.others
  restart _ c h := .inr (h.restarted c)
  drawn _ _ h := ⟨⟨h.cfg, h.pxr, h.pc⟩, h.others⟩
  stack _ _ h _ := h.setCur rfl
  jumped u _ h := .inl fun k hk => by rw [thread_setCur_of_ne _ _ (by rw [h.pxr]; exact hk), h.others k hk]
  closed _ _ _ h _ := h.setCur rfl
  called _ _ h _ _ _ := h.setCur rfl
  opened _ h _ := h.setCur rfl
  ended _ u h _ := .inl fun k hk => by
    rw [State.endThread, thread_setThread_of_ne _ _ (by rw [h.pxr]; exact hk), h.others k hk]
  scanned _ _ _ h := h.setCur rfl
  held _ _ _ h := h.setCur rfl
  vars _ _ _ h := h.setCur rfl
  prio _ _ _ h _ := h.setCur rfl
  entered _ _ h := h.setCur rfl
  left _ _ _ _ h _ _ := h.setCur rfl
  begun h := absurd (hi.symm.trans h) (by decide)
  alone h := absurd (hi.symm.trans h) (by decide)
  stored _ u a b h _ := ⟨h.toSameInstr.store a b, fun k hk => by simpa [State.thread] using h.others k hk⟩
  reached _ _ _ h := ⟨⟨h.cfg, h.pxr, h.pc⟩, h.others⟩

/-- Settles O59: what an instruction updates is its own thread, memory and the platform, until it restarts. -/
theorem otherThreadsAreLeftAlone : Obligations.OtherThreadsAreLeftAlone := by
  intro i s t hi e
  exact always_of_next
    (closed_exec (othersKept_closed hi s) (by rintro rfl; cases hi) ⟨⟨rfl, rfl, rfl⟩, fun _ _ => rfl⟩) e

/-! ## The registers of the executing thread (R23, R24, R27, R28, R31 to R33, R36) -/

/-- What an instruction leaves of the record of the thread that executes it. -/
structure KeepsRegisters (i : Instr) (old t : Thread) : Prop where
  vars : i ≠ .writeVar → t.vars = old.vars
  prio : i ≠ .setpr → t.prio = old.prio
  snap : i ∉ [Instr.enter, .leave] → t.snap = old.snap
  held : i ≠ .delay → t.held = old.held ∧ t.dcr = old.dcr
  mode : i ∉ [Instr.skip, .ifMark, .elseMark, .repIf, .breakLoop] → t.mode = old.mode
  icr : t.icr = old.icr
  work : t.work = old.work

/-- While an instruction of a live thread executes. -/
structure RegistersKept (i : Instr) (s u : State) : Prop extends SameInstr s u where
  dlyc : u.dlyc = s.dlyc
  live : u.cur.live = true
  kept : KeepsRegisters i s.cur u.cur

/-- What it leaves. -/
def RegistersLeft (i : Instr) (s t : State) : Prop :=
  RestartedFrom s t ∨ (t.thread s.pxr).live = false ∨
    KeepsRegisters i s.cur (t.thread s.pxr) ∧ t.pxr = s.pxr ∧ t.dlyc = s.dlyc

theorem RegistersKept.setCur {i : Instr} {s u : State} (h : RegistersKept i s u) {t : Thread} (ht : t.pc = u.cur.pc)
    (hl : t.live = u.cur.live) (hk : KeepsRegisters i s.cur t) : RegistersKept i s (u.setCur t) :=
  ⟨h.toSameInstr.setCur ht, h.dlyc, by rw [cur_setCur, hl, h.live], by rw [cur_setCur]; exact hk⟩

theorem cur_of_pxr {s : State} {k : BitVec 7} (h : s.pxr = k) : s.cur = s.thread k := by
  rw [State.cur, h]

/-- Updates that change the stacks alone. -/
theorem RegistersKept.setStacks {i : Instr} {s u : State} (h : RegistersKept i s u) (xs : List W56) (es : List CtlEntry) :
    RegistersKept i s (u.setCur { u.cur with stack := xs, ctl := es }) :=
  h.setCur rfl rfl ⟨h.kept.vars, h.kept.prio, h.kept.snap, h.kept.held, h.kept.mode, h.kept.icr, h.kept.work⟩

theorem RegistersKept.left {i : Instr} {s t : State} (hk : KeepsRegisters i s.cur t.cur) (hp : t.pxr = s.pxr)
    (hd : t.dlyc = s.dlyc) : RegistersLeft i s t :=
  .inr (.inr ⟨by rw [← hp]; exact hk, hp, hd⟩)

theorem registersKept_closed (i : Instr) (s : State) : Closed (RegistersKept i s) (RegistersLeft i s) i where
  done _ h := RegistersKept.left h.kept h.pxr h.dlyc
  restart _ c h := .inl (h.restarted c)
  drawn _ _ h := ⟨⟨h.cfg, h.pxr, h.pc⟩, h.dlyc, h.live, h.kept⟩
  stack u xs h _ := h.setStacks xs u.cur.ctl
  jumped u a h := by
    refine RegistersKept.left ?_ h.pxr h.dlyc
    rw [cur_setCur]
    exact ⟨h.kept.vars, h.kept.prio, h.kept.snap, h.kept.held, h.kept.mode, h.kept.icr, h.kept.work⟩
  closed u _ es h _ := h.setStacks u.cur.stack es
  called u e h _ _ _ := h.setStacks u.cur.stack (e :: u.cur.ctl)
  opened u h _ := h.setStacks u.cur.stack (.ifE :: u.cur.ctl)
  ended _ u h _ := .inr (.inl (by rw [← h.pxr, State.endThread, thread_setThread_self]; rfl))
  scanned hi u k h := h.setCur (t := { u.cur with mode := .scan k [] }) rfl rfl
    ⟨h.kept.vars, h.kept.prio, h.kept.snap, h.kept.held, fun hn => absurd hi hn, h.kept.icr, h.kept.work⟩
  held hi u v h := h.setCur (t := { u.cur with held := true, dcr := v }) rfl rfl
    ⟨h.kept.vars, h.kept.prio, h.kept.snap, fun hn => absurd hi hn, h.kept.mode, h.kept.icr, h.kept.work⟩
  vars hi u v h := h.setCur (t := { u.cur with vars := v }) rfl rfl
    ⟨fun hn => absurd hi hn, h.kept.prio, h.kept.snap, h.kept.held, h.kept.mode, h.kept.icr, h.kept.work⟩
  prio hi u n h _ := h.setCur (t := { u.cur with prio := n }) rfl rfl
    ⟨h.kept.vars, fun hn => absurd hi hn, h.kept.snap, h.kept.held, h.kept.mode, h.kept.icr, h.kept.work⟩
  entered hi u h := h.setCur (t := { u.cur with snap := some u.cur.stack.length }) rfl rfl
    ⟨h.kept.vars, h.kept.prio, fun hn => absurd (by simp [hi]) hn, h.kept.held, h.kept.mode, h.kept.icr, h.kept.work⟩
  left hi u _ xs h _ _ := h.setCur (t := { u.cur with stack := xs, snap := none }) rfl rfl
    ⟨h.kept.vars, h.kept.prio, fun hn => absurd (by simp [hi]) hn, h.kept.held, h.kept.mode, h.kept.icr, h.kept.work⟩
  begun _ u j a h hj := by
    have hc : ((u.setThread j (Thread.begun u.draws a [])).drawn 9).cur = u.cur :=
      cur_setThread_of_ne u _ (pxr_ne_of_live h.live (mem_freeThreads.1 hj).2.2)
    exact ⟨⟨h.cfg, h.pxr, by rw [hc, h.pc]⟩, h.dlyc, by rw [hc, h.live], by rw [hc]; exact h.kept⟩
  alone _ u h := by
    by_cases h0 : u.pxr = 0
    · refine RegistersKept.left ?_ h.pxr h.dlyc
      rw [cur_of_pxr (s := u.endOthers) h0, endOthers_thread_zero, ← cur_of_pxr h0]
      exact h.kept
    · exact .inr (.inl (by rw [← h.pxr, endOthers_thread_of_ne _ h0]; rfl))
  stored _ u a b h _ := by
    have hc : (u.storeByte a b).cur = u.cur := by simp [State.cur, State.thread]
    exact ⟨h.toSameInstr.store a b, (storeByte_dlyc u a b).trans h.dlyc, by rw [hc, h.live], by rw [hc]; exact h.kept⟩
  reached _ _ _ h := ⟨⟨h.cfg, h.pxr, h.pc⟩, h.dlyc, h.live, h.kept⟩

/-- Settles O60: each update of a register is one that only its own instructions make. -/
theorem registersHaveTheirOwnWriters : Obligations.RegistersHaveTheirOwnWriters := by
  intro i s t hi hl e
  have h0 : RegistersKept i s s :=
    ⟨⟨rfl, rfl, rfl⟩, rfl, hl, ⟨fun _ => rfl, fun _ => rfl, fun _ => rfl, fun _ => ⟨rfl, rfl⟩, fun _ => rfl, rfl, rfl⟩⟩
  rcases always_of_next (closed_exec (registersKept_closed i s) hi h0) e with hr | hd | ⟨hk, hp, hdl⟩
  · exact .inl hr
  · exact .inr (.inl hd)
  · exact .inr (.inr ⟨hk.vars, hk.prio, hk.snap, hk.held, hk.mode, hk.icr, hk.work, hp, hdl⟩)

/-! ## Missing parameters (R130, R317) -/

/-- An instruction with one parameter pops it first. -/
theorem exec_pops_one {i : Instr} (h : paramCount i = 1) (s : State) : ∃ k, exec i s = pop s k := by
  cases i <;> cases h <;>
    dsimp only [exec, execCom, execNot, execInc, execDec, unary, execRd32, execRd16, execRd8, rawRead, execSysfn, sysfnTurns] <;>
    exact ⟨_, rfl⟩

/-- An instruction with two parameters pops them first. -/
theorem exec_pops_two {i : Instr} (h : paramCount i = 2) (s : State) :
    ∃ k : W56 → W56 → State → Out, exec i s = pop s fun x t => pop t (k x) := by
  cases i <;> cases h <;> dsimp only [exec] <;> exact ⟨_, rfl⟩

/-- An instruction with three parameters pops them first. -/
theorem exec_pops_three {i : Instr} (h : paramCount i = 3) (s : State) :
    ∃ k : W56 → W56 → W56 → State → Out, exec i s = pop s fun x t => pop t fun y u => pop u (k x y) := by
  cases i <;> cases h <;> dsimp only [exec] <;> exact ⟨_, rfl⟩

theorem paramCount_le (i : Instr) : paramCount i ≤ 3 := by
  cases i <;> decide

/-- Settles O56: an instruction begins with as many pops as it has parameters, and pops that run out of elements leave $106. -/
theorem missingParametersRestart : Obligations.MissingParametersRestart := by
  intro i s hs
  have hle := paramCount_le i
  obtain hn | hn | hn | hn : paramCount i = 0 ∨ paramCount i = 1 ∨ paramCount i = 2 ∨ paramCount i = 3 := by omega
  · omega
  · obtain ⟨k, hk⟩ := exec_pops_one hn s
    rw [hk, pop_nil (List.length_eq_zero_iff.1 (by omega)), raise]
  · obtain ⟨k, hk⟩ := exec_pops_two hn s
    rw [hk, pop_pop_short (by omega)]
  · obtain ⟨k, hk⟩ := exec_pops_three hn s
    rw [hk, pop_pop_pop_short (by omega)]

end Sys2Proof.Machine

/-!
PROOF. One step (spec/30_encoding.md R94 to R101, spec/40_control.md R132, R133, R135, spec/60_exceptions.md R314, R333, R334): what a fetched
word comes to in Run mode and in a scan, the release of a held thread, and the turn that a weakly fair run brings to every thread.
-/
namespace Sys2Proof.Machine

/-! ## A fetched word in Run mode (R96) -/

theorem wordAddress_even (a : Nat) : wordAddress a % 2 = 0 := by
  unfold wordAddress
  omega

theorem wordAddress_of_even {a : Nat} (h : a % 2 = 0) : wordAddress a = a := by
  rw [wordAddress, h, Nat.sub_zero]

theorem step_runs {s : State} {k : BitVec 7} {w : Word16} (h : s.Fetches k w) (hm : (s.thread k).mode = .run) :
    step s = runWord (s.thread k).pc.toNat w (s.wordRead k) := by
  rw [step_fetches h, hm]

theorem runWord_instr {s : State} {a : Nat} {w : Word16} (h : wordClass s.cfg.typeMap w = .instr) :
    runWord a w s = runSlot a w s := by
  simp only [runWord, h]

theorem runWord_vln_even {s : State} {a : Nat} {w : Word16}
    (h : wordClass s.cfg.typeMap w = .vlnLast ∨ wordClass s.cfg.typeMap w = .vlnMore) (ha : a % 2 = 0) :
    runWord a w s = pushConstant a s := by
  have ha1 : ¬a % 2 = 1 := by omega
  rcases h with h | h <;> simp only [runWord, h, if_neg ha1]

theorem runWord_vln_odd {s : State} {a : Nat} {w : Word16}
    (h : wordClass s.cfg.typeMap w = .vlnLast ∨ wordClass s.cfg.typeMap w = .vlnMore) (ha : a % 2 = 1) :
    runWord a w s = .refused .dataAtOddSlot := by
  rcases h with h | h <;> simp only [runWord, h, if_pos ha]

theorem runWord_reserved {s : State} {a : Nat} {w : Word16} (h : wordClass s.cfg.typeMap w = .reserved) :
    runWord a w s = .refused .reservedWord := by
  simp only [runWord, h]

/-- A step that meets an instruction's slot in Run mode, not the last one, does what its code says. -/
theorem step_runsCode {s : State} {k : BitVec 7} {w : Word16} (h : s.Fetches k w) (hm : (s.thread k).mode = .run)
    (hl : (s.thread k).pc.toNat ≠ 2 ^ 28 - 1) (hc : wordClass s.cfg.typeMap w = .instr) :
    step s = match decodeCode s.cfg.sysfnOpcode (slotCode (decide ((s.thread k).pc.toNat % 2 = 1)) (payloadOf w)) with
      | .ok i => exec i (s.fetched k w)
      | .error (.invalidOrSysfn _) => .refused .unassignedWhileUnset
      | .error _ => raise .invalidCode (s.fetched k w) := by
  rw [step_runs h hm, runWord_instr (by rw [wordRead_cfg]; exact hc), runSlot, if_neg hl, wordRead_cfg]
  rfl

/-- The word that stands in memory where no peripheral is (R63). -/
theorem wordAt_of_plain {s : State} {a : Nat} (h : s.touches .peripheral a 2 = false) :
    s.wordAt a = BitVec.ofNat 16 ((s.mem.read a).toNat + 2 ^ 8 * (s.mem.read (a + 1)).toNat) := by
  rw [State.wordAt, valueAt_of_plain fun i hi => by simpa using anyByte_eq_false.1 h i hi]
  simp [leValue]

/-- Settles O12: the step runs the code of its slot from the fetched state, whose fields the laws of the fetch give. -/
theorem stepRunsDecodedInstruction : Obligations.StepRunsDecodedInstruction := by
  intro s k w i hf hm hl hd
  obtain ⟨hc, hd⟩ := decodeWord_eq_ok hd
  refine ⟨by rw [step_runsCode hf hm hl hc, hd], fetched_pxr s k w, fetched_here s k w, by rw [fetched_cur],
    fetched_mem s k w, fetched_cfg s k w, fun j hj => fetched_thread_of_ne s w hj, fun hp => ⟨?_, ?_⟩⟩
  · rw [State.fetched, wordRead_of_plain hp]
    rfl
  · rw [← wordAt_of_plain hp, fetches_plain hf hp]

/-! ## Constants in the instruction stream (R96) -/

/-- Selecting a thread leaves the words that memory holds. -/
theorem holdsWords_select {s : State} {k : BitVec 7} {ws : List Word16} {a : Nat} (h : s.HoldsWords ws a) :
    (s.select k).HoldsWords ws a :=
  holdsWords_congr (s := s) (t := s.select k) rfl rfl ws a h

/-- A thread at an even pc where words of plain memory stand fetches the first of them, and moves no platform. -/
theorem fetches_of_holds {s : State} {k : BitVec 7} {w : Word16} {ws : List Word16} (hc : s.chosen = some k)
    (ha : (s.thread k).held = false) (he : (s.thread k).pc.toNat % 2 = 0) (hh : s.HoldsWords (w :: ws) (s.thread k).pc.toNat) :
    s.Fetches k w ∧ s.wordRead k = s.select k := by
  obtain ⟨hp, hr, hw, -⟩ := hh
  have hpl := plain_touches hp
  have hwa := wordAddress_of_even he
  refine ⟨⟨hc, ha, ?_, ?_⟩, ?_⟩
  · rw [hwa]; exact (wordRead_plain hp hr he).1
  · rw [hwa, ← hw]; exact wordAt_congr (s := s) (t := s.select k) rfl rfl hpl
  · exact wordRead_of_plain (by rw [hwa]; exact hpl)

/-- A step at an even pc where a group of a VLN stands reads a constant. -/
theorem step_readsConstant {s : State} {k : BitVec 7} {w : Word16} {ws : List Word16} (hc : s.chosen = some k)
    (ha : (s.thread k).held = false) (hm : (s.thread k).mode = .run) (he : (s.thread k).pc.toNat % 2 = 0)
    (hw : wordClass s.cfg.typeMap w = .vlnLast ∨ wordClass s.cfg.typeMap w = .vlnMore)
    (hh : s.HoldsWords (w :: ws) (s.thread k).pc.toNat) :
    step s = pushConstant (s.thread k).pc.toNat (s.select k) := by
  obtain ⟨hf, hr⟩ := fetches_of_holds hc ha he hh
  rw [step_runs hf hm, hr, runWord_vln_even (s := s.select k) hw he]

theorem isVln_head {m : TypeMap} {w : Word16} {ws : List Word16} (h : isVln m (w :: ws) = true) :
    wordClass m w = .vlnLast ∨ wordClass m w = .vlnMore := by
  cases ws with
  | nil => exact .inl (by simpa [isVln] using h)
  | cons v vs =>
    simp only [isVln, Bool.and_eq_true, decide_eq_true_eq] at h
    exact .inr h.1

/-- Reading a constant that stands whole in memory comes to its push. -/
theorem pushConstant_words {s : State} {a : Nat} {ws : List Word16} (hv : isVln s.cfg.typeMap ws = true) (hl : ws.length ≤ 4)
    (ha : a % 2 = 0) (hh : s.HoldsWords ws a) : pushConstant a s =
      if s.cur.stack.length < s.cfg.dstackSize then
        jump (s.withStack (BitVec.ofNat 56 (vlnValue ws) :: s.cur.stack)) (a + 2 * ws.length)
      else .next (s.restart .stackOverflow a) := by
  rw [pushConstant, readVln, readVlnFrom_words ws 4 0 0 a (isVln_ne_nil hv) hl ha hv hh]
  simp

/-- Settles O13: the step reads the constant's words one after another and pushes their value, or meets the full stack or the top of
memory where it goes on. -/
theorem stepPushesConstant : Obligations.StepPushesConstant := by
  intro s k ws hc ha hm he hv hl hh
  have hstep : step s = pushConstant (s.thread k).pc.toNat (s.select k) := by
    match ws, isVln_ne_nil hv with
    | w :: vs, _ => exact step_readsConstant hc ha hm he (isVln_head hv) hh
  have hst : (s.select k).cur.stack = (s.thread k).stack := by rw [select_cur]
  rw [hstep, pushConstant_words (s := s.select k) hv hl he (holdsWords_select hh), hst, select_cfg]
  refine ⟨fun hin hroom => ?_, fun htop hroom => ?_, fun hfull => ?_⟩
  · rw [if_pos hroom, jump_inside hin]
    simp
  · rw [if_pos hroom, jump_outside (by omega)]
  · rw [if_neg (Nat.not_lt.2 hfull)]

/-! ## What a fetch meets (R62, R96, R99 to R101, R314) -/

/-- A fetch from where a byte does not exist. -/
theorem step_fetch_missing {s : State} {k : BitVec 7} (hc : s.chosen = some k) (ha : (s.thread k).held = false)
    (h : ∃ i < 2, s.cfg.valid (wordAddress (s.thread k).pc.toNat + i) = false) :
    step s = .next ((s.select k).restart .badMemory (wordAddress (s.thread k).pc.toNat)) := by
  have hcheck : (s.select k).accessCheck (wordAddress (s.thread k).pc.toNat) 2 = some .badMemory :=
    accessCheck_missing (s := s.select k) (wordAddress_even _) (.inr h)
  have hpc : (s.select k).cur.pc = (s.thread k).pc := by rw [select_cur]
  rw [step_awake hc ha, runThread, hpc, hcheck]

/-- An unassigned code, by the setting of SYSFN_OPCODE. -/
theorem step_unassigned {s : State} {k : BitVec 7} {w : Word16} (hf : s.Fetches k w) (hm : (s.thread k).mode = .run)
    (hl : (s.thread k).pc.toNat ≠ 2 ^ 28 - 1) (hc : wordClass s.cfg.typeMap w = .instr)
    (hu : (slotCode (decide ((s.thread k).pc.toNat % 2 = 1)) (payloadOf w)).toNat ∈ unassignedCodes) :
    (s.cfg.sysfnOpcode = none → step s = .refused .unassignedWhileUnset) ∧
    (∀ o, s.cfg.sysfnOpcode = some o → o ≠ slotCode (decide ((s.thread k).pc.toNat % 2 = 1)) (payloadOf w) →
      step s = .next ((s.fetched k w).restart .invalidCode (s.thread k).pc.toNat)) := by
  rw [step_runsCode hf hm hl hc, decodeCode_unassigned hu]
  refine ⟨fun hn => by rw [hn], fun o ho hne => ?_⟩
  rw [ho]
  simp only [if_neg hne, raise, fetched_here]

/-- A constant of which a later word does not exist. -/
theorem pushConstant_missing {s : State} {a : Nat} {ws : List Word16} (ha : a % 2 = 0)
    (hv : ∀ v ∈ ws, wordClass s.cfg.typeMap v = .vlnMore) (hl : ws.length ≤ 3) (hh : s.HoldsWords ws a)
    (hm : 2 ^ 28 < a + 2 * ws.length + 2 ∨ ∃ i < 2, s.cfg.valid (a + 2 * ws.length + i) = false) :
    pushConstant a s = .next (s.restart .badMemory (a + 2 * ws.length)) := by
  rw [pushConstant, readVln, readVlnFrom_missing ha (by omega) hv hh hm]

/-- A constant that a word of another class ends, or that announces a fifth word. -/
theorem pushConstant_malformed {s : State} {a : Nat} {ws : List Word16} {w : Word16} (ha : a % 2 = 0)
    (hv : ∀ v ∈ ws, wordClass s.cfg.typeMap v = .vlnMore) (hh : s.HoldsWords (ws ++ [w]) a)
    (hw : ws.length < 4 ∧ (wordClass s.cfg.typeMap w = .instr ∨ wordClass s.cfg.typeMap w = .reserved) ∨
      ws.length + 1 = 4 ∧ wordClass s.cfg.typeMap w = .vlnMore) :
    pushConstant a s = .refused .malformedVln := by
  rw [pushConstant, readVln, readVlnFrom_malformed ha hv hh hw]

/-- Settles O14: the checks of the fetch, the classes of the word fetched, the decoding of its slot and the words of a constant after
the first, each in its own lemma. -/
theorem stepMeetsFetchConditions : Obligations.StepMeetsFetchConditions := by
  refine ⟨fun s k hc ha h => step_fetch_missing hc ha h, fun s k w hf hm hl hc hu => step_unassigned hf hm hl hc hu,
    fun s k w hf hm => ?_, fun s k ws hc ha hm he hv hne => ?_⟩
  · rw [step_runs hf hm]
    refine ⟨fun hw => runWord_reserved (by rw [wordRead_cfg]; exact hw),
      fun hw ho => runWord_vln_odd (by rw [wordRead_cfg]; exact hw) ho, fun hw hl => ?_⟩
    rw [runWord_instr (by rw [wordRead_cfg]; exact hw), runSlot, if_pos hl]
  · obtain ⟨v, vs, rfl⟩ := List.exists_cons_of_ne_nil hne
    have hclass : wordClass s.cfg.typeMap v = .vlnLast ∨ wordClass s.cfg.typeMap v = .vlnMore := .inr (hv v List.mem_cons_self)
    refine ⟨fun hl hh hmiss => ?_, fun w hh => ?_⟩
    · rw [step_readsConstant hc ha hm he hclass hh]
      exact pushConstant_missing (s := s.select k) he hv hl (holdsWords_select hh) hmiss
    · rw [step_readsConstant hc ha hm he hclass hh]
      have hh' : (s.select k).HoldsWords ((v :: vs) ++ [w]) (s.thread k).pc.toNat := holdsWords_select hh
      exact ⟨fun hl hw => pushConstant_malformed (s := s.select k) he hv hh' (.inl ⟨by omega, hw⟩),
        fun hl hw => pushConstant_malformed (s := s.select k) he hv hh' (.inr ⟨by omega, hw⟩)⟩

/-! ## Held threads and turns (R135, R334) -/

/-- What a step from `s` to `t` can be to a live thread whose turn it is: its own, its release, its end, or a restart of thread 0. -/
def Turn (k : BitVec 7) (old : Thread) (s t : State) : Prop :=
  old.held = false ∧ s.Takes k ∨ old.held = true ∧ t.thread k = { old with held := false } ∨ (t.thread k).live = false ∨
    k = 0 ∧ ∃ u c a, t = State.restart u c a

theorem release_thread_self (s : State) (k : BitVec 7) : (s.release k).thread k = { s.thread k with held := false } :=
  thread_setThread_self _ _ _

theorem release_thread_of_ne (s : State) {k j : BitVec 7} (h : j ≠ k) : (s.release k).thread j = s.thread j :=
  thread_setThread_of_ne _ _ h

/-- A step is a live thread's turn or leaves its record alone. -/
theorem step_turn {s t : State} {k : BitVec 7} (hl : (s.thread k).live = true) (e : step s = .next t) :
    Turn k (s.thread k) s t ∨ t.thread k = s.thread k := by
  obtain ⟨j, hj⟩ := chosen_of_live hl
  by_cases hkj : k = j
  · subst hkj
    cases hh : (s.thread k).held with
    | false => exact .inl (.inl ⟨hh, hj, hh⟩)
    | true =>
      rw [step_held hj hh] at e
      cases e
      exact .inl (.inr (.inl ⟨hh, release_thread_self s k⟩))
  · rcases step_leftAlone hj hkj hl e with hs | hd | hr
    · exact .inr hs
    · exact .inl (.inr (.inr (.inl hd)))
    · exact .inl (.inr (.inr (.inr hr)))

/-- The record of a thread is the same from one state of a run to another. -/
def SameRecord (run : Nat → State) (k : BitVec 7) (n m : Nat) : Prop :=
  ∀ j, n ≤ j → j ≤ m → (run j).thread k = (run n).thread k

/-- In a run a live thread's turn comes within `d` steps, or its record is the same after them. -/
theorem turn_or_same {run : Nat → State} (hr : IsRun run) {n : Nat} {k : BitVec 7} (hl : ((run n).thread k).live = true) :
    ∀ d, (∃ m, n ≤ m ∧ SameRecord run k n m ∧ Turn k ((run n).thread k) (run m) (run (m + 1))) ∨ SameRecord run k n (n + d)
  | 0 => .inr fun j h1 h2 => by rw [show j = n by omega]
  | d + 1 => by
    rcases turn_or_same hr hl d with h | hsame
    · exact .inl h
    · have hnow := hsame (n + d) (by omega) (by omega)
      rcases step_turn (by rw [hnow, hl]) (hr (n + d)) with ht | hs
      · exact .inl ⟨n + d, by omega, hsame, by rwa [hnow] at ht⟩
      · refine .inr fun j h1 h2 => ?_
        rcases Nat.lt_or_ge j (n + d + 1) with hj | hj
        · exact hsame j h1 (by omega)
        · rw [show j = n + d + 1 by omega, hs, hnow]

/-- In a weakly fair run a live thread's turn comes. -/
theorem turn_comes {run : Nat → State} (hr : IsRun run) (hf : WeaklyFair run) {n : Nat} {k : BitVec 7}
    (hl : ((run n).thread k).live = true) :
    ∃ m, n ≤ m ∧ SameRecord run k n m ∧ Turn k ((run n).thread k) (run m) (run (m + 1)) := by
  cases hh : ((run n).thread k).held with
  | false =>
    obtain ⟨m, hm, h⟩ := hf.1 n k hl hh
    rcases turn_or_same hr hl (m - n) with ht | hsame
    · exact ht
    · rw [Nat.add_sub_cancel' hm] at hsame
      rcases h with ht | hd
      · exact ⟨m, hm, hsame, .inl ⟨hh, ht⟩⟩
      · rw [hsame m hm le_rfl, hl] at hd
        cases hd
  | true =>
    obtain ⟨m, hm, h⟩ := hf.2 n k hl hh
    rcases turn_or_same hr hl (m - n) with ht | hsame
    · exact ht
    · rw [Nat.add_sub_cancel' hm] at hsame
      have hnow := hsame m hm le_rfl
      rcases h with ⟨hc, hheld⟩ | hd | ha
      · have e := hr m
        rw [step_held hc hheld] at e
        injection e with e
        exact ⟨m, hm, hsame, .inr (.inl ⟨hh, by rw [← e, release_thread_self, hnow]⟩)⟩
      · rw [hnow, hl] at hd
        cases hd
      · rw [hnow, hh] at ha
        cases ha

/-- Settles O15: the step of a held thread is its release; in a fair run the record stays until the step that is the thread's turn. -/
theorem stepReleasesHeldThread : Obligations.StepReleasesHeldThread := by
  refine ⟨fun s k hc hh => ?_, fun run hr hf n k hl => turn_comes hr hf hl⟩
  exact ⟨s.release k, step_held hc hh, release_thread_self s k, fun j hj => release_thread_of_ne s hj, rfl, rfl, rfl⟩

/-! ## Scans (R132, R133) -/

theorem step_scans {s : State} {k : BitVec 7} {w : Word16} {kind : ScanKind} {opened : List OpenKind} (h : s.Fetches k w)
    (hm : (s.thread k).mode = .scan kind opened) : step s = scanWord kind opened (s.thread k).pc.toNat w (s.wordRead k) := by
  rw [step_fetches h, hm]

/-- A row of the opcode map is found under its instruction's own code alone. -/
theorem code_of_lookupRow {c d : Code7} {i : Instr} (h : lookupRow c.toNat opcodeRows = some i) (hd : i.fixedCode = some d) :
    c = d :=
  Option.some.inj (((lookupRow_spec c).2 i h).symm.trans hd)

/-- A code that marks no structure changes nothing in a scan. -/
theorem scanCode_of_no_mark {c : Code7} (h : c ∉ ([0x7c, 0x7e, 0x7d, 0x78, 0x7b, 0x79, 0x7a, 0x70] : List Code7))
    (kind : ScanKind) (opened : List OpenKind) (s : State) : scanCode c kind opened s = .next s := by
  unfold scanCode
  split
  case h_9 => rfl
  all_goals
    next hl =>
    rw [code_of_lookupRow hl rfl] at h
    exact absurd (by decide) h

theorem scanCode_if (kind : ScanKind) (opened : List OpenKind) (s : State) :
    scanCode 0x7c kind opened s = scanOpen .ifOpen kind opened s := rfl

theorem scanCode_loop {c : Code7} (h : c = 0x78 ∨ c = 0x7b) (kind : ScanKind) (opened : List OpenKind) (s : State) :
    scanCode c kind opened s = scanOpen .loopOpen kind opened s := by
  rcases h with rfl | rfl <;> rfl

theorem scanCode_close {c : Code7} (h : c = 0x79 ∨ c = 0x7a) (kind : ScanKind) (opened : List OpenKind) (s : State) :
    scanCode c kind opened s = scanClose kind opened s := by
  rcases h with rfl | rfl <;> rfl

theorem scanCode_do (kind : ScanKind) (opened : List OpenKind) (s : State) :
    scanCode 0x70 kind opened s = scanDo kind opened s := rfl

theorem scanOpen_room {o : OpenKind} {kind : ScanKind} {opened : List OpenKind} {s : State} (h : opened.length < s.cfg.nestMax) :
    scanOpen o kind opened s = .next (s.withMode (.scan kind (o :: opened))) := by
  rw [scanOpen, if_pos h]

theorem scanOpen_full {o : OpenKind} {kind : ScanKind} {opened : List OpenKind} {s : State} (h : s.cfg.nestMax ≤ opened.length) :
    scanOpen o kind opened s = .refused .scanTooDeep := by
  rw [scanOpen, if_neg (Nat.not_lt.2 h)]

/-- Settles O16: a scan looks at the class of the word, then at the slot, then at the code, which is a mark's or no mark's. -/
theorem scanPassesOverEverythingElse : Obligations.ScanPassesOverEverythingElse := by
  refine ⟨fun s k w kind opened hf hm hw he hin => ?_, fun s k w kind opened hf hm => ⟨fun hw ho => ?_, fun hw hl => ?_, fun hw hl => ?_⟩,
    fun s k w c kind opened h hc => ?_⟩
  · rw [step_scans hf hm, scanWord, wordRead_cfg, if_neg hw, if_neg (by omega), if_neg (by omega), withPc_eq]
  · rw [step_scans hf hm, scanWord, wordRead_cfg, if_neg hw, if_pos ho]
  · rw [step_scans hf hm, scanWord, wordRead_cfg, if_neg hw, if_neg (by omega), if_pos (by omega)]
  · rw [step_scans hf hm, scanWord, wordRead_cfg, if_pos hw, if_pos hl]
  · rw [step_scansCode h, scanCode_of_no_mark hc]

/-- Settles O17: at level 0 each closing mark compares itself with the kind of the scan. -/
theorem scanEndsAtItsMark : Obligations.ScanEndsAtItsMark := by
  intro s k w c kind h
  have hctl : (s.fetched k w).cur.ctl = (s.thread k).ctl := by rw [fetched_cur]
  rw [step_scansCode h]
  refine ⟨?_, ?_, ?_, ?_, ?_⟩
  · rintro rfl rfl
    rw [scanCode_do, scanDo, if_pos ⟨rfl, rfl⟩, withMode_eq]
  · rintro rfl rfl hroom
    rw [scanCode_else]
    simp only [scanElse, if_true]
    rw [pushIf_room (by rw [hctl, fetched_cfg]; exact hroom), hctl]
    simp
  · rintro rfl rfl hfull
    rw [scanCode_else]
    simp only [scanElse, if_true]
    rw [pushIf_full (by rw [hctl, fetched_cfg]; exact hfull)]
  · rintro hkind rfl
    rw [scanCode_endIf]
    simp only [scanEndIf, if_pos hkind, withMode_eq]
  · rintro rfl hc
    rw [scanCode_close hc]
    simp only [scanClose, if_true, withMode_eq]

/-- Settles O18: openers count up to NEST_MAX; a closer looks at the structure opened last, or at the kind of the scan where none is. -/
theorem scanCountsStructures : Obligations.ScanCountsStructures := by
  intro s k w c kind opened h
  rw [step_scansCode h]
  refine ⟨?_, ?_, ?_, ?_, ?_, ?_, ?_, ?_, ?_, ?_, ?_, ?_, ?_⟩
  · rintro rfl hroom
    rw [scanCode_if, scanOpen_room (by rw [fetched_cfg]; exact hroom), withMode_eq]
  · intro hc hroom
    rw [scanCode_loop hc, scanOpen_room (by rw [fetched_cfg]; exact hroom), withMode_eq]
  · rintro rest rfl rfl
    rw [scanCode_endIf, scanEndIf, withMode_eq]
  · rintro rest hc rfl
    rw [scanCode_close hc, scanClose, withMode_eq]
  · rintro rest rfl rfl
    rw [scanCode_else, scanElse]
  · rintro rfl hne
    rw [scanCode_do, scanDo, if_neg]
    rintro ⟨ho, hk⟩
    exact hne.elim (· ho) (· hk)
  · rintro rest (rfl | rfl) rfl
    · rw [scanCode_endIf, scanEndIf]
    · rw [scanCode_else, scanElse]
  · rintro rest hc rfl
    rw [scanCode_close hc, scanClose]
  · rintro rfl rfl (rfl | rfl | hc)
    · rw [scanCode_endIf]; rfl
    · rw [scanCode_else]; rfl
    · rw [scanCode_close hc]; rfl
  · rintro rfl rfl rfl
    rw [scanCode_else]; rfl
  · rintro rfl rfl (rfl | rfl)
    · rw [scanCode_endIf]; rfl
    · rw [scanCode_else]; rfl
  · rintro rfl hk hc
    rw [scanCode_close hc, scanClose, if_neg (by rcases hk with rfl | rfl <;> decide)]
  · rintro (rfl | hc) hfull
    · rw [scanCode_if, scanOpen_full (by rw [fetched_cfg]; exact hfull)]
    · rw [scanCode_loop hc, scanOpen_full (by rw [fetched_cfg]; exact hfull)]

end Sys2Proof.Machine

/-!
PROOF. Execution control, calls and threads (spec/40_control.md R135 to R146, spec/41_calls_threads.md R160 to R174): what jumps, loops,
calls, returns and the creation of a thread each come to, and from these the statements.
-/
namespace Sys2Proof.Machine

/-! ## DO, DELAY and SKIP (R135 to R137) -/

theorem exec_delay (s : State) : exec .delay s = execDelay s := rfl

theorem exec_skip (s : State) : exec .skip s = execSkip s := rfl

/-- Settles O20: DO's meaning is the state itself, DELAY's a pop and one update. -/
theorem doAndDelayComplete : Obligations.DoAndDelayComplete := by
  refine ⟨fun s => rfl, fun s x rest hs => ?_⟩
  rw [exec_delay, execDelay, pop_cons hs]
  simp

/-- SKIP with a parameter: the pop leaves the tests of the slot, the distance and the target. -/
theorem exec_skip_cons {s : State} {x : W56} {rest : List W56} (hs : s.cur.stack = x :: rest) :
    exec .skip s =
      if s.here.toNat % 2 = 1 then .refused .skipAtOddAddress
      else if x.toNat % 2 = 1 then .next (s.restart .alignment s.here.toNat)
      else if 2 ^ 28 ≤ nextWord s.here.toNat + x.toNat then .refused .targetOutsideMemory
      else .next (s.setCur
        { s.cur with
          stack := rest, pc := BitVec.ofNat 28 (nextWord s.here.toNat + x.toNat), mode := .scan .skSkip [] }) := by
  rw [exec_skip, execSkip, pop_cons hs]
  simp [State.here]

/-- Settles O21: each outcome is a branch of the tests after the pop. -/
theorem skipJumpsAndScans : Obligations.SkipJumpsAndScans := by
  intro s x rest hs
  rw [exec_skip_cons hs]
  refine ⟨fun hslot hx hin => ?_, fun hslot hx => ?_, fun hslot hx hout => ?_, fun hslot => ?_⟩
  · rw [if_neg (by omega), if_neg (by omega), if_neg (Nat.not_le.2 hin)]
  · rw [if_neg (by omega), if_pos hx]
  · rw [if_neg (by omega), if_neg (by omega), if_pos hout]
  · rw [if_pos hslot]

/-! ## Loops (R141 to R146) -/

theorem exec_repeatMark (s : State) : exec .repeatMark s = execRepeat s := rfl

theorem exec_repIf (s : State) : exec .repIf s = execRepIf s := rfl

theorem exec_untilMark (s : State) : exec .untilMark s = execUntil s := rfl

theorem exec_whileMark (s : State) : exec .whileMark s = execWhile s := rfl

theorem exec_breakLoop (s : State) : exec .breakLoop s = execBreak s := rfl

theorem exec_again (s : State) : exec .again s = execAgain s := rfl

theorem partnerIsNop_iff (s : State) :
    s.partnerIsNop = true ↔ slotCode (decide (s.here.toNat % 2 = 0)) s.cur.icr = 0x7f := by
  rw [State.partnerIsNop, beq_iff_eq]

/-- Whether the partner is NOP does not depend on the data stack. -/
theorem partnerIsNop_setStack (s : State) (xs : List W56) :
    (s.setCur { s.cur with stack := xs }).partnerIsNop = s.partnerIsNop := by
  simp [State.partnerIsNop, State.here]

theorem openLoop_room {s : State} (h : callCount s.cur.ctl < s.cfg.cstackSize) :
    openLoop s = .next (s.setCur { s.cur with ctl := .loopE (nextWord s.here.toNat) :: s.cur.ctl }) := by
  rw [openLoop, pushCall_room h, withCtl_eq]

theorem openLoop_full {s : State} (h : s.cfg.cstackSize ≤ callCount s.cur.ctl) :
    openLoop s = .next (s.restart .callOverflow s.here.toNat) := by
  rw [openLoop, pushCall_full h, raise]

/-- REPIF with a parameter. -/
theorem exec_repIf_cons {s : State} {x : W56} {rest : List W56} (hs : s.cur.stack = x :: rest) :
    exec .repIf s =
      if !s.partnerIsNop then .refused .partnerNotNop
      else if x = 0 then .next (s.setCur { s.cur with stack := rest, mode := .scan .skLoop [] })
      else openLoop (s.setCur { s.cur with stack := rest }) := by
  rw [exec_repIf, execRepIf, pop_cons hs]
  simp [partnerIsNop_setStack]

/-- Settles O24: the partner decides first, then REPIF's parameter, then the room on the call stack. -/
theorem repeatAndRepifOpenLoops : Obligations.RepeatAndRepifOpenLoops := by
  refine ⟨fun s hp => ?_, fun s hp => ?_⟩
  · rw [← partnerIsNop_iff] at hp
    rw [exec_repeatMark, execRepeat, if_pos hp]
    refine ⟨openLoop_room, openLoop_full, fun x rest hs => ?_⟩
    rw [exec_repIf_cons hs, hp]
    refine ⟨fun hx => ?_, fun hx hroom => ?_, fun hx hfull => ?_⟩
    · simp [hx]
    · rw [if_neg (by decide), if_neg hx, openLoop_room (by simpa using hroom)]
      simp [State.here]
    · rw [if_neg (by decide), if_neg hx, openLoop_full (by simpa using hfull)]
      simp [State.here]
  · have hn : ¬s.partnerIsNop = true := fun h => hp ((partnerIsNop_iff s).1 h)
    rw [exec_repeatMark, execRepeat, if_neg hn]
    refine ⟨rfl, fun hne => ?_⟩
    obtain ⟨x, rest, hs⟩ := List.exists_cons_of_ne_nil hne
    rw [exec_repIf_cons hs, if_pos (by simpa using hn)]

theorem exec_untilMark_cons {s : State} {x : W56} {rest : List W56} (hs : s.cur.stack = x :: rest) :
    exec .untilMark s = closeLoop (x == 0) (s.setCur { s.cur with stack := rest }) := by
  rw [exec_untilMark, execUntil, pop_cons hs, withStack_eq]

theorem exec_whileMark_cons {s : State} {x : W56} {rest : List W56} (hs : s.cur.stack = x :: rest) :
    exec .whileMark s = closeLoop (x != 0) (s.setCur { s.cur with stack := rest }) := by
  rw [exec_whileMark, execWhile, pop_cons hs, withStack_eq]

/-- Back to the body of the innermost loop. -/
theorem closeLoop_back {s : State} {b : Nat} {es : List CtlEntry} (h : s.cur.ctl = .loopE b :: es) :
    closeLoop true s = jump s b := by
  rw [closeLoop, h]
  rfl

/-- Out of the innermost loop. -/
theorem closeLoop_out {s : State} {b : Nat} {es : List CtlEntry} (h : s.cur.ctl = .loopE b :: es) :
    closeLoop false s = .next (s.withCtl es) := by
  rw [closeLoop, h]
  rfl

/-- A control stack whose first entry is no loop: $10a where it holds neither a loop nor a call, else refused. -/
theorem closeLoop_no_loop {s : State} (h : ∀ b es, s.cur.ctl ≠ .loopE b :: es) (back : Bool) :
    closeLoop back s = if callCount s.cur.ctl = 0 then raise .badStructure s else .refused .closerNotInLoop := by
  unfold closeLoop
  split
  · next b es e => exact absurd e (h b es)
  · rfl

/-- An entry of the call stack counts. -/
theorem callCount_cons_ne_zero {e : CtlEntry} {es : List CtlEntry} (h : e.onCallStack = true) : callCount (e :: es) ≠ 0 := by
  rw [callCount_cons, if_pos h]
  omega

theorem ctl_ne_of_callCount_eq_zero {s : State} (h : callCount s.cur.ctl = 0) {e : CtlEntry} (he : e.onCallStack = true)
    (es : List CtlEntry) : s.cur.ctl ≠ e :: es :=
  fun hc => callCount_cons_ne_zero he (hc ▸ h)

/-- Settles O25: both pop and close the innermost loop, one on the test of 0, the other on its opposite. -/
theorem untilAndWhileCloseLoops : Obligations.UntilAndWhileCloseLoops := by
  intro s x rest hs
  rw [exec_untilMark_cons hs, exec_whileMark_cons hs]
  refine ⟨fun b es hctl => ?_, fun h0 => ?_, fun e es hctl he hne => ?_⟩
  · have hc : (s.setCur { s.cur with stack := rest }).cur.ctl = .loopE b :: es := by rw [cur_setCur]; exact hctl
    refine ⟨fun hx hb => ?_, fun hx => ?_, fun hx hb => ?_, fun hx => ?_, fun hx hb => ?_, fun hx hb => ?_⟩
    · rw [beq_iff_eq.2 hx, closeLoop_back hc, jump_inside hb]
      simp
    · rw [beq_eq_false_iff_ne.2 hx, closeLoop_out hc]
      simp
    · rw [bne_iff_ne.2 hx, closeLoop_back hc, jump_inside hb]
      simp
    · rw [bne_eq_false_iff_eq.2 hx, closeLoop_out hc]
      simp
    · rw [beq_iff_eq.2 hx, closeLoop_back hc, jump_outside hb]
    · rw [bne_iff_ne.2 hx, closeLoop_back hc, jump_outside hb]
  · have hn : ∀ b es, (s.setCur { s.cur with stack := rest }).cur.ctl ≠ .loopE b :: es := fun b es => by
      rw [cur_setCur]; exact ctl_ne_of_callCount_eq_zero h0 rfl es
    rw [closeLoop_no_loop hn, closeLoop_no_loop hn, if_pos (by simpa using h0)]
    simp [State.here]
  · have hn : ∀ b ds, (s.setCur { s.cur with stack := rest }).cur.ctl ≠ .loopE b :: ds := fun b ds hd => by
      rw [cur_setCur, hctl] at hd
      exact he b (List.cons.inj hd).1
    rw [closeLoop_no_loop hn, closeLoop_no_loop hn, if_neg (by simpa using hne)]
    exact ⟨rfl, rfl⟩

/-- BREAK with a parameter. -/
theorem exec_breakLoop_cons {s : State} {x : W56} {rest : List W56} (hs : s.cur.stack = x :: rest) :
    exec .breakLoop s =
      if x = 0 then .next (s.setCur { s.cur with stack := rest })
      else match s.cur.ctl with
        | .loopE _ :: es => .next (s.setCur { s.cur with stack := rest, ctl := es, mode := .scan .skLoop [] })
        | _ => .refused .noInnermostLoop := by
  rw [exec_breakLoop, execBreak, pop_cons hs]
  simp only [withStack_eq, withCtl_eq, withMode_eq, cur_setCur, setCur_setCur] <;> rfl

/-- AGAIN with a parameter. -/
theorem exec_again_cons {s : State} {x : W56} {rest : List W56} (hs : s.cur.stack = x :: rest) :
    exec .again s =
      if x = 0 then .next (s.setCur { s.cur with stack := rest })
      else match s.cur.ctl with
        | .loopE b :: _ => jump (s.setCur { s.cur with stack := rest }) b
        | _ => .refused .noInnermostLoop := by
  rw [exec_again, execAgain, pop_cons hs]
  simp only [withStack_eq, cur_setCur] <;> rfl

/-- Settles O26: the popped value decides, then the innermost entry. -/
theorem breakAndAgainLeaveOrRepeat : Obligations.BreakAndAgainLeaveOrRepeat := by
  intro s x rest hs
  rw [exec_breakLoop_cons hs, exec_again_cons hs]
  refine ⟨fun hx => ?_, fun b es hx hctl => ?_, fun hx hn => ?_⟩
  · rw [if_pos hx, if_pos hx]
    exact ⟨rfl, rfl⟩
  · rw [if_neg hx, if_neg hx, hctl]
    refine ⟨rfl, fun hb => ?_, fun hb => jump_outside hb⟩
    simp only [jump_inside hb, withPc_eq, cur_setCur, setCur_setCur, hctl]
  · rw [if_neg hx, if_neg hx]
    constructor
    · split
      · next b es e => exact absurd e (hn _ es)
      · rfl
    · split
      · next b es e => exact absurd e (hn b _)
      · rfl

/-! ## Calls and returns (R160 to R165, R169, R170) -/

theorem exec_call (s : State) : exec .call s = execCall s := rfl

theorem exec_acall (s : State) : exec .acall s = execAcall s := rfl

theorem exec_ntcall (s : State) : exec .ntcall s = execNtcall s := rfl

theorem exec_ntacall (s : State) : exec .ntacall s = execNtacall s := rfl

theorem backTarget_even {s : State} {x : W56} {k : Nat → Out} (hle : x.toNat ≤ nextWord s.here.toNat)
    (hin : nextWord s.here.toNat - x.toNat < 2 ^ 28) (he : (nextWord s.here.toNat - x.toNat) % 2 = 0) :
    backTarget s x k = k (nextWord s.here.toNat - x.toNat) := by
  rw [backTarget, if_neg (by omega), if_neg (by omega)]

theorem backTarget_odd {s : State} {x : W56} {k : Nat → Out} (hle : x.toNat ≤ nextWord s.here.toNat)
    (hin : nextWord s.here.toNat - x.toNat < 2 ^ 28) (ho : (nextWord s.here.toNat - x.toNat) % 2 = 1) :
    backTarget s x k = raise .alignment s := by
  rw [backTarget, if_neg (by omega), if_pos ho]

theorem backTarget_outside {s : State} {x : W56} {k : Nat → Out}
    (h : nextWord s.here.toNat < x.toNat ∨ 2 ^ 28 ≤ nextWord s.here.toNat - x.toNat) :
    backTarget s x k = .refused .targetOutsideMemory := by
  rw [backTarget, if_pos h]

theorem absTarget_even {s : State} {x : W56} {k : Nat → Out} (hin : x.toNat < 2 ^ 28) (he : x.toNat % 2 = 0) :
    absTarget s x k = k x.toNat := by
  rw [absTarget, if_neg (Nat.not_le.2 hin), if_neg (by omega)]

theorem absTarget_odd {s : State} {x : W56} {k : Nat → Out} (hin : x.toNat < 2 ^ 28) (ho : x.toNat % 2 = 1) :
    absTarget s x k = raise .alignment s := by
  rw [absTarget, if_neg (Nat.not_le.2 hin), if_pos ho]

theorem absTarget_outside {s : State} {x : W56} {k : Nat → Out} (h : 2 ^ 28 ≤ x.toNat) :
    absTarget s x k = .refused .targetOutsideMemory := by
  rw [absTarget, if_pos h]

/-- A call with its parameter popped, to a target it may go to: with room on the call stack the return address is pushed. -/
theorem callTo_popped {s : State} {rest : List W56} (a : Nat) :
    (callCount s.cur.ctl < s.cfg.cstackSize → callTo (s.setCur { s.cur with stack := rest }) a = .next (s.setCur
      { s.cur with stack := rest, pc := BitVec.ofNat 28 a, ctl := .callE (nextWord s.here.toNat) :: s.cur.ctl })) ∧
    (s.cfg.cstackSize ≤ callCount s.cur.ctl →
      callTo (s.setCur { s.cur with stack := rest }) a = .next (s.restart .callOverflow s.here.toNat)) := by
  constructor
  · intro hroom
    rw [callTo, pushCall_room (by simpa using hroom)]
    simp [State.here]
  · intro hfull
    rw [callTo, pushCall_full (by simpa using hfull)]
    simp [State.here]

/-- The executing instruction's address does not depend on the data stack. -/
theorem here_setStack (s : State) (xs : List W56) : (s.setCur { s.cur with stack := xs }).here = s.here := by
  rw [here_setCur, State.here]

theorem raise_setStack (s : State) (xs : List W56) (c : Condition) :
    raise c (s.setCur { s.cur with stack := xs }) = .next (s.restart c s.here.toNat) := by
  rw [raise_setCur, State.here]

/-- Settles O27: CALL and ACALL differ in the target alone, which is inside and even, inside and odd, or outside. -/
theorem callsPushTheReturnAddress : Obligations.CallsPushTheReturnAddress := by
  intro s x rest hs
  have heven := nextWord_even s.here.toNat
  have hh := here_setStack s rest
  rw [exec_call, execCall, exec_acall, execAcall, pop_cons hs, pop_cons hs, withStack_eq]
  refine ⟨fun hle hin => ⟨fun he => ?_, fun ho => ?_, fun he => ?_⟩, fun hin => ⟨fun he => ?_, fun ho => ?_, fun he => ?_⟩,
    fun hout => ?_, fun hout => ?_⟩
  · rw [backTarget_even (by rwa [hh]) (by rwa [hh]) (by rw [hh]; omega), hh]
    exact (callTo_popped _).1
  · rw [backTarget_odd (by rwa [hh]) (by rwa [hh]) (by rw [hh]; omega), raise_setStack]
  · rw [backTarget_even (by rwa [hh]) (by rwa [hh]) (by rw [hh]; omega), hh]
    exact (callTo_popped _).2
  · rw [absTarget_even hin he]
    exact (callTo_popped _).1
  · rw [absTarget_odd hin ho, raise_setStack]
  · rw [absTarget_even hin he]
    exact (callTo_popped _).2
  · rw [backTarget_outside (by rwa [hh])]
  · rw [absTarget_outside hout]

theorem exec_setpr (s : State) : exec .setpr s = execSetpr s := rfl

theorem exec_setpr_zero {s : State} {rest : List W56} (hs : s.cur.stack = 0 :: rest) :
    exec .setpr s = endOp (s.setCur { s.cur with stack := rest }) := by
  rw [exec_setpr, execSetpr, pop_cons hs, if_pos rfl, withStack_eq]

theorem endOp_zero {s : State} (h : s.pxr = 0) : endOp s = returnOp s := by
  rw [endOp, if_pos h]

theorem endOp_of_ne {s : State} (h : s.pxr ≠ 0) : endOp s = .next (s.endThread s.pxr) := by
  rw [endOp, if_neg h]

/-- `0 SETPR` in thread 0. -/
theorem exec_setpr_zero_main {s : State} {rest : List W56} (hs : s.cur.stack = 0 :: rest) (hp : s.pxr = 0) :
    exec .setpr s = returnOp (s.setCur { s.cur with stack := rest }) := by
  rw [exec_setpr_zero hs, endOp_zero (by rwa [setCur_pxr])]

theorem returnOp_call {s : State} {r : Nat} {es : List CtlEntry} (h : s.cur.ctl = .callE r :: es) :
    returnOp s = jump (s.withCtl es) r := by
  rw [returnOp, if_neg (by rw [h]; exact callCount_cons_ne_zero rfl), h]

theorem returnOp_empty {s : State} (h : callCount s.cur.ctl = 0) :
    returnOp s = .next (s.restart .callUnderflow s.here.toNat) := by
  rw [returnOp, if_pos h, raise]

theorem returnOp_inside {s : State} {e : CtlEntry} {es : List CtlEntry} (h : s.cur.ctl = e :: es) (he : ∀ r, e ≠ .callE r)
    (hc : callCount s.cur.ctl ≠ 0) : returnOp s = .refused .returnInsideStructure := by
  rw [returnOp, if_neg hc, h]
  cases e with
  | callE r => exact absurd rfl (he r)
  | loopE b => rfl
  | ifE => rfl

/-- Settles O29: in thread 0 all three are the one operation of RETURN, on the stack SETPR's pop leaves. -/
theorem returnGoesBackToTheCaller : Obligations.ReturnGoesBackToTheCaller := by
  refine ⟨fun s r es hctl hr => ?_, fun s h0 => ?_, fun s e es hctl he hne => ?_, fun s r es hctl hr => ?_⟩
  · have hret : returnOp s = .next (s.setCur { s.cur with ctl := es, pc := BitVec.ofNat 28 r }) := by
      rw [returnOp_call hctl, jump_inside hr]
      simp
    refine ⟨hret, fun hp => (endOp_zero hp).trans hret, fun rest hp hs => ?_⟩
    rw [exec_setpr_zero_main hs hp, returnOp_call (by rw [cur_setCur]; exact hctl), jump_inside hr]
    simp
  · refine ⟨returnOp_empty h0, fun hp => (endOp_zero hp).trans (returnOp_empty h0), fun rest hp hs => ?_⟩
    rw [exec_setpr_zero_main hs hp, returnOp_empty (by rw [cur_setCur]; exact h0), here_setStack, restart_setCur]
  · have hret := returnOp_inside hctl he hne
    refine ⟨hret, fun hp => ⟨(endOp_zero hp).trans hret, fun rest hs => ?_⟩⟩
    rw [exec_setpr_zero_main hs hp,
      returnOp_inside (by rw [cur_setCur]; exact hctl) he (by rw [cur_setCur]; exact hne)]
  · have hret : returnOp s = .refused .topOfMemory := by rw [returnOp_call hctl, jump_outside hr]
    refine ⟨hret, fun hp => ⟨(endOp_zero hp).trans hret, fun rest hs => ?_⟩⟩
    rw [exec_setpr_zero_main hs hp, returnOp_call (by rw [cur_setCur]; exact hctl), jump_outside hr]

/-! ## Threads (R163, R164, R166 to R170, R173, R174) -/

/-- Settles O30: the end of a thread replaces its record alone, ENDALL's update keeps thread 0's alone. -/
theorem endingThreads : Obligations.EndingThreads := by
  refine ⟨fun s hp => ?_, fun s rest hp hs => ?_, fun s => ?_⟩
  · refine ⟨s.endThread s.pxr, endOp_of_ne hp, ?_, fun k hk => thread_setThread_of_ne _ _ hk, rfl, rfl, rfl⟩
    rw [State.endThread, thread_setThread_self]
    rfl
  · refine ⟨(s.setCur { s.cur with stack := rest }).endThread s.pxr,
      by rw [exec_setpr_zero hs, endOp_of_ne (by rwa [setCur_pxr]), setCur_pxr], ?_, fun k hk => ?_, rfl, rfl, rfl⟩
    · rw [State.endThread, thread_setThread_self]
      rfl
    · rw [State.endThread, thread_setThread_of_ne _ _ hk, thread_setCur_of_ne _ _ hk]
  · refine ⟨s.endOthers, rfl, endOthers_thread_zero s, fun k hk => ?_, rfl, rfl, rfl⟩
    rw [endOthers_thread_of_ne _ hk]
    rfl

theorem exec_maxthds (s : State) : exec .maxthds s = push (BitVec.ofNat 56 s.cfg.maxThreads) s .next := rfl

theorem exec_threads (s : State) : exec .threads s = push (BitVec.ofNat 56 s.liveThreads.length) s .next := rfl

/-- A push that ends an instruction, with room. -/
theorem push_next {v : W56} {s : State} (h : s.cur.stack.length < s.cfg.dstackSize) :
    push v s .next = .next (s.setCur { s.cur with stack := v :: s.cur.stack }) := by
  rw [push_room h, withStack_eq]

/-- The list of live threads has each of them once. -/
theorem liveThreads_length (s : State) :
    s.liveThreads.length = (Finset.univ.filter fun k : BitVec 7 => (s.thread k).live = true).card := by
  rw [State.liveThreads, ← List.toFinset_card_of_nodup (threadIndices_nodup.filter _)]
  congr 1
  ext k
  simp [mem_threadIndices]

theorem liveThreads_length_le (s : State) : s.liveThreads.length ≤ 128 :=
  (List.length_filter_le _ _).trans (by simp [threadIndices])

/-- Settles O31: two pushes, the second of the number of the live threads, and SETPR's one update. -/
theorem threadNumbersAndPriority : Obligations.ThreadNumbersAndPriority := by
  refine ⟨fun s hroom => ⟨by rw [exec_maxthds, push_next hroom], ?_⟩, fun s x rest hs hx => ?_⟩
  · refine ⟨BitVec.ofNat 56 s.liveThreads.length, ?_, by rw [exec_threads, push_next hroom]⟩
    have hle := liveThreads_length_le s
    rw [← liveThreads_length, BitVec.toNat_ofNat, Nat.mod_eq_of_lt (by omega)]
  · rw [exec_setpr, execSetpr, pop_cons hs, if_neg hx]
    simp

/-- Creating a thread where none is free. -/
theorem newThread_full {s : State} {a : A28} {k : State → Out} (h : s.freeThreads = []) :
    newThread s a k = .refused .noFreeThread := by
  rw [newThread, h]
  rfl

/-- Creating a thread where one is free takes a free index. -/
theorem newThread_free {s : State} {a : A28} {k : State → Out} (h : s.freeThreads ≠ []) :
    ∃ j ∈ s.freeThreads, newThread s a k = k ((s.setThread j (Thread.begun s.draws a [])).drawn 9) := by
  obtain ⟨j, hj⟩ := pickIndex_of_ne_nil (Config.freeIndex s.draws) h
  exact ⟨j, mem_of_pickIndex hj, by rw [newThread, hj]⟩

/-- The two instructions that create a thread, to a target inside the address space. -/
theorem exec_newThread {s : State} {x : W56} {rest : List W56} {i : Instr} {target : Nat} (hs : s.cur.stack = x :: rest)
    (hi : i = .ntcall ∧ x.toNat ≤ nextWord s.here.toNat ∧ target = nextWord s.here.toNat - x.toNat ∨
      i = .ntacall ∧ target = x.toNat) (hin : target < 2 ^ 28) :
    (target % 2 = 0 →
      exec i s = newThread (s.setCur { s.cur with stack := rest }) (BitVec.ofNat 28 target) .next) ∧
    (target % 2 = 1 → exec i s = .next (s.restart .alignment s.here.toNat)) := by
  have hh := here_setStack s rest
  rcases hi with ⟨rfl, hle, rfl⟩ | ⟨rfl, rfl⟩
  · rw [exec_ntcall, execNtcall, pop_cons hs, withStack_eq]
    refine ⟨fun he => ?_, fun ho => ?_⟩
    · rw [backTarget_even (by rwa [hh]) (by rwa [hh]) (by rwa [hh]), hh]
    · rw [backTarget_odd (by rwa [hh]) (by rwa [hh]) (by rwa [hh]), raise_setStack]
  · rw [exec_ntacall, execNtacall, pop_cons hs, withStack_eq]
    refine ⟨fun he => ?_, fun ho => ?_⟩
    · rw [absTarget_even hin he]
    · rw [absTarget_odd hin ho, raise_setStack]

/-- Replacing the data stack leaves the free indices. -/
theorem mem_freeThreads_setStack {s : State} {xs : List W56} {j : BitVec 7} :
    j ∈ (s.setCur { s.cur with stack := xs }).freeThreads ↔ j ∈ s.freeThreads := by
  rw [mem_freeThreads, mem_freeThreads, setCur_cfg, thread_setCur]
  split
  · next e => rw [e]; exact Iff.rfl
  · exact Iff.rfl

/-- Settles O28: the target decides first, then whether an index is free; the new record is the one `Thread.begun` gives. -/
theorem newThreadsBegin : Obligations.NewThreadsBegin := by
  refine ⟨fun s x rest hs => ⟨fun hout => ?_, fun hout => ?_⟩, fun s x rest i target hs hl hi hin => ?_⟩
  · rw [exec_ntcall, execNtcall, pop_cons hs, withStack_eq, backTarget_outside (by rwa [here_setStack])]
  · rw [exec_ntacall, execNtacall, pop_cons hs, absTarget_outside hout]
  obtain ⟨heven, hodd⟩ := exec_newThread hs hi hin
  refine ⟨fun he hfree => ?_, hodd, fun he hnone => ?_⟩
  · have hne : (s.setCur { s.cur with stack := rest }).freeThreads ≠ [] := by
      obtain ⟨j, hj⟩ := hfree
      exact List.ne_nil_of_mem (mem_freeThreads_setStack.2 (mem_freeThreads.2 hj))
    obtain ⟨j, hj, hnew⟩ := newThread_free (a := BitVec.ofNat 28 target) (k := .next) hne
    obtain ⟨hj0, hjm, hjl⟩ := mem_freeThreads.1 (mem_freeThreads_setStack.1 hj)
    have hjp := pxr_ne_of_live hl hjl
    refine ⟨_, j, (heven he).trans hnew, hj0, hjm, hjl, ?_⟩
    rw [drawn_thread, thread_setThread_self]
    refine ⟨rfl, rfl, rfl, rfl, rfl, rfl, rfl, rfl, ?_, fun k hkj hkp => ?_, rfl, rfl, rfl⟩
    · exact (cur_setThread_of_ne (s.setCur { s.cur with stack := rest }) _ hjp).trans (cur_setCur _ _)
    · rw [drawn_thread, thread_setThread_of_ne _ _ hkj, thread_setCur_of_ne _ _ hkp]
  · rw [heven he, newThread_full]
    refine List.eq_nil_iff_forall_not_mem.2 fun j hj => ?_
    obtain ⟨hj0, hjm, hjl⟩ := mem_freeThreads.1 (mem_freeThreads_setStack.1 hj)
    rw [hnone j hj0 hjm] at hjl
    cases hjl

/-! ## ENTER and LEAVE (R171, R172) -/

theorem exec_leave_cut {s : State} {n : Nat} (hn : s.cur.snap = some n) (hle : n ≤ s.cur.stack.length) :
    exec .leave s =
      .next (s.setCur { s.cur with stack := s.cur.stack.drop (s.cur.stack.length - n), snap := none }) := by
  rw [exec_leave, execLeave, hn]
  simp only [if_pos hle]

theorem exec_leave_shallow {s : State} {n : Nat} (hn : s.cur.snap = some n) (hlt : s.cur.stack.length < n) :
    exec .leave s = .next ((s.setCur
      { s.cur with stack := freeWords s.draws (n - s.cur.stack.length) ++ s.cur.stack, snap := none }).drawn
        (n - s.cur.stack.length)) := by
  rw [exec_leave, execLeave, hn]
  simp only [if_neg (Nat.not_le.2 hlt)]

/-- Settles O32: LEAVE drops what stands above the snapshot's depth, or puts free words there where the stack is shallower. -/
theorem enterAndLeave : Obligations.EnterAndLeave := by
  refine ⟨fun s hn => ?_, fun s n hn => ⟨fun top kept hst hlen => ?_, fun hlt => ?_⟩⟩
  · rw [exec_enter, execEnter, hn]
  · rw [exec_leave_cut hn (by rw [hst, List.length_append]; omega)]
    have hdrop : s.cur.stack.drop (s.cur.stack.length - n) = kept := by
      rw [hst, List.length_append, ← hlen, Nat.add_sub_cancel, List.drop_left]
    rw [hdrop]
  · refine ⟨_, freeWords s.draws (n - s.cur.stack.length), exec_leave_shallow hn hlt,
      by rw [freeWords_length]; omega, ?_, fun k hk => ?_, rfl, rfl⟩
    · rw [drawn_cur, cur_setCur]
    · rw [drawn_thread, thread_setCur_of_ne _ _ hk]

end Sys2Proof.Machine

/-!
PROOF. The data stack, logic and arithmetic (spec/42_stack.md R190 to R199, spec/43_logic.md R210 to R216, spec/44_arith.md R230 to R247): the
meanings on the operands they pop, and from these the statements.
-/
namespace Sys2Proof.Machine

/-! ## The data stack (R190, R191, R194, R196, R197) -/

theorem exec_empty (s : State) : exec .empty s = .next (s.withStack []) := rfl

theorem exec_depth (s : State) : exec .depth s = push (BitVec.ofNat 56 (s.cur.stack.length + 1)) s .next := rfl

theorem exec_swap (s : State) : exec .swap s = execSwap s := rfl

theorem exec_overNth (s : State) : exec .overNth s = execOver s := rfl

theorem exec_readVar (s : State) : exec .readVar s = execReadVar s := rfl

/-- A push of the one result over what the pops have left, with room. -/
theorem push_rest {s : State} {v : W56} {rest : List W56} (h : rest.length < s.cfg.dstackSize) :
    push v (s.setCur { s.cur with stack := rest }) .next = .next (s.setCur { s.cur with stack := v :: rest }) := by
  rw [push_next (by simpa using h)]
  simp

/-- After a pop there is room for a push. -/
theorem push_popped {s : State} {x v : W56} {rest : List W56} (hs : s.cur.stack = x :: rest)
    (hd : s.cur.stack.length ≤ s.cfg.dstackSize) :
    push v (s.setCur { s.cur with stack := rest }) .next = .next (s.setCur { s.cur with stack := v :: rest }) := by
  rw [hs, List.length_cons] at hd
  exact push_rest hd

theorem exchange_zero {x : W56} (xs : List W56) : exchange (x :: xs) 0 = x :: xs := by
  simp [exchange]

/-- The exchange of the top with an element below it. -/
theorem exchange_below (top v : W56) (mid below : List W56) :
    exchange (top :: (mid ++ v :: below)) (mid.length + 1) = v :: (mid ++ top :: below) := by
  simp [exchange]

/-- SWAP with its index on the stack. -/
theorem exec_swap_cons {s : State} {x : W56} {rest : List W56} (hs : s.cur.stack = x :: rest) :
    exec .swap s = if x.toNat < rest.length then .next (s.setCur { s.cur with stack := exchange rest x.toNat })
      else .next (s.restart .badIndex s.here.toNat) := by
  rw [exec_swap, execSwap, pop_cons hs]
  simp [State.here]

/-- OVER of an element that is there. -/
theorem exec_overNth_some {s : State} {x v : W56} {rest : List W56} (hs : s.cur.stack = x :: rest)
    (hd : s.cur.stack.length ≤ s.cfg.dstackSize) (hv : rest[x.toNat]? = some v) :
    exec .overNth s = .next (s.setCur { s.cur with stack := v :: rest }) := by
  have hlt : x.toNat < rest.length := (List.getElem?_eq_some_iff.1 hv).1
  rw [exec_overNth, execOver, pop_cons hs, withStack_eq]
  simp only [cur_setCur, if_pos hlt, hv]
  exact push_popped hs hd

/-- OVER of an element that is not. -/
theorem exec_overNth_none {s : State} {x : W56} {rest : List W56} (hs : s.cur.stack = x :: rest) (hx : rest.length ≤ x.toNat) :
    exec .overNth s = .next (s.restart .badIndex s.here.toNat) := by
  rw [exec_overNth, execOver, pop_cons hs, withStack_eq]
  simp only [cur_setCur, if_neg (Nat.not_lt.2 hx)]
  rw [raise_setStack]

/-- Settles O34: after the pop of the index the instruction looks at the stack, or at the registers, at that index. -/
theorem stackInstructionsComplete : Obligations.StackInstructionsComplete := by
  refine ⟨fun s => ⟨exec_empty s, fun hroom => by rw [exec_depth, push_next hroom]⟩, fun s x rest hs hd =>
    ⟨fun hx hne => ?_, fun top mid v below hrest hx => ?_, fun above v below hrest hx => ?_, fun hx => ⟨?_, ?_⟩,
      fun n hn hx => ?_, fun hx => ?_⟩⟩
  · obtain ⟨top, below, rfl⟩ := List.exists_cons_of_ne_nil hne
    rw [exec_swap_cons hs, hx, if_pos (by simp), show (0 : W56).toNat = 0 from rfl, exchange_zero]
  · rw [exec_swap_cons hs, hx, if_pos (by rw [hrest]; simp), hrest, exchange_below]
  · exact exec_overNth_some hs hd (by rw [hrest, hx]; simp)
  · rw [exec_swap_cons hs, if_neg (Nat.not_lt.2 hx)]
  · exact exec_overNth_none hs hx
  · subst hx
    rw [exec_readVar, execReadVar, pop_cons hs, dif_pos hn, withStack_eq, push_popped hs hd, cur_setCur]
  · rw [exec_readVar, execReadVar, pop_cons hs, dif_neg (Nat.not_lt.2 hx)]

/-! ## Complement and shifts (R210, R215, R216) -/

theorem exec_com (s : State) : exec .com s = unary (fun x => ~~~x + 1) s := rfl

theorem exec_shl (s : State) : exec .shl s = binary (fun x y => if y.toNat < 56 then x <<< y.toNat else 0) s := rfl

theorem exec_shr (s : State) : exec .shr s = binary (fun x y => if y.toNat < 56 then x >>> y.toNat else 0) s := rfl

/-- The two's complement of a word is its negative modulo 2^56. -/
theorem not_add_one_toNat (x : W56) : (~~~x + 1).toNat = (2 ^ 56 - x.toNat) % 2 ^ 56 := by
  have h : -x = ~~~x + 1 := BitVec.neg_eq_not_add x
  rw [← h, BitVec.toNat_neg]

/-- Settles O38: the operand forms, with the shift's number for a count below 56 and 0 from there on. -/
theorem complementAndShiftResults : Obligations.ComplementAndShiftResults := by
  refine ⟨fun s x rest hs hd => ⟨~~~x + 1, not_add_one_toNat x, by rw [exec_com, unary_eq hs hd]⟩, fun s x y rest hs hd =>
    ⟨if y.toNat < 56 then x <<< y.toNat else 0, if y.toNat < 56 then x >>> y.toNat else 0, fun hy => ?_, fun hy => ?_,
      by rw [exec_shl, binary_eq hs hd], by rw [exec_shr, binary_eq hs hd]⟩⟩
  · rw [if_pos hy, if_pos hy, BitVec.toNat_shiftLeft, BitVec.toNat_ushiftRight, Nat.shiftLeft_eq, Nat.shiftRight_eq_div_pow]
    exact ⟨rfl, rfl⟩
  · rw [if_neg (Nat.not_lt.2 hy), if_neg (Nat.not_lt.2 hy)]
    exact ⟨rfl, rfl⟩

/-! ## Comparisons (R230 to R232, R235, R236) -/

theorem exec_lt (s : State) : exec .lt s =
    binary (fun x y => truth (decide (numberOf s.cfg.signedArith x < numberOf s.cfg.signedArith y))) s := rfl

theorem exec_le (s : State) : exec .le s =
    binary (fun x y => truth (decide (numberOf s.cfg.signedArith x ≤ numberOf s.cfg.signedArith y))) s := rfl

theorem exec_ge (s : State) : exec .ge s =
    binary (fun x y => truth (decide (numberOf s.cfg.signedArith y ≤ numberOf s.cfg.signedArith x))) s := rfl

theorem exec_gt (s : State) : exec .gt s =
    binary (fun x y => truth (decide (numberOf s.cfg.signedArith y < numberOf s.cfg.signedArith x))) s := rfl

theorem truth_decide (p : Prop) [Decidable p] : truth (decide p) = if p then 1 else 0 := by
  simp only [truth, decide_eq_true_eq]

/-- Settles O40: whichever way SIGNED_ARITH reads the operands, the four compare the numbers read. -/
theorem orderComparisonResults : Obligations.OrderComparisonResults := by
  intro s x y rest a b hs hd hu hsg
  obtain ⟨rfl, rfl⟩ : a = numberOf s.cfg.signedArith x ∧ b = numberOf s.cfg.signedArith y := by
    cases hf : s.cfg.signedArith with
    | false => exact hu hf
    | true => exact hsg hf
  rw [exec_lt, exec_le, exec_ge, exec_gt, binary_eq hs hd, binary_eq hs hd, binary_eq hs hd, binary_eq hs hd]
  simp only [truth_decide, ge_iff_le, gt_iff_lt, and_self]

/-! ## Sums, products and remainders (R237 to R239, R241 to R243) -/

theorem exec_add (s : State) : exec .add s = binary (fun x y => x + y) s := rfl

theorem exec_sub (s : State) : exec .sub s = binary (fun x y => x - y) s := rfl

theorem exec_mul (s : State) : exec .mul s = binary (fun x y => x * y) s := rfl

theorem exec_inc (s : State) : exec .inc s = unary (fun x => x + 1) s := rfl

theorem exec_dec (s : State) : exec .dec s = unary (fun x => x - 1) s := rfl

theorem exec_modulo (s : State) : exec .modulo s = execMod s := rfl

theorem exec_random (s : State) : exec .random s = push (Config.freeWord s.draws) (s.drawn 1) .next := rfl

theorem ofInt_toNat (x : W56) : BitVec.ofInt 56 (x.toNat : Int) = x := by
  rw [BitVec.ofInt_natCast, BitVec.ofNat_toNat, BitVec.setWidth_eq]

/-- Settles O41: the operand forms, with the words read as numbers modulo 2^56. -/
theorem sumsAndProductsWrap : Obligations.SumsAndProductsWrap := by
  refine ⟨fun s x y rest hs hd => ?_, fun s x rest hs hd => ?_⟩
  · rw [exec_add, exec_sub, exec_mul, binary_eq hs hd, binary_eq hs hd, binary_eq hs hd]
    rw [BitVec.ofInt_add, BitVec.ofInt_mul, Int.sub_eq_add_neg, BitVec.ofInt_add, BitVec.ofInt_neg, ofInt_toNat, ofInt_toNat,
      ← BitVec.sub_eq_add_neg]
    exact ⟨rfl, rfl, rfl⟩
  · rw [exec_inc, exec_dec, unary_eq hs hd, unary_eq hs hd]
    rw [BitVec.ofInt_add, Int.sub_eq_add_neg, BitVec.ofInt_add, BitVec.ofInt_neg, ofInt_toNat, ← BitVec.sub_eq_add_neg]
    exact ⟨rfl, rfl⟩

/-- `//` where the division answers error. -/
theorem exec_modulo_none {s : State} {x y : W56} {rest : List W56} (hs : s.cur.stack = y :: x :: rest)
    (h : divide x y = none) : exec .modulo s = .next (s.restart .arithmetic s.here.toNat) := by
  rw [exec_modulo, execMod, pop_pop_cons hs, h]
  exact raise_setStack s rest _

/-- `//` where the division answers: the remainder takes the place of the operands. -/
theorem exec_modulo_some {s : State} {x y q r : W56} {rest : List W56} (hs : s.cur.stack = y :: x :: rest)
    (hd : s.cur.stack.length ≤ s.cfg.dstackSize) (h : divide x y = some (q, r)) :
    exec .modulo s = .next (s.setCur { s.cur with stack := r :: rest }) := by
  have hroom : rest.length < s.cfg.dstackSize := by
    rw [hs, List.length_cons, List.length_cons] at hd
    omega
  rw [exec_modulo, execMod, pop_pop_cons hs, h]
  exact push_rest hroom

/-- A remainder as R241 writes it. -/
theorem umod_eq_sub (x y : W56) : x % y = BitVec.ofNat 56 (x.toNat - y.toNat * (x.toNat / y.toNat)) := by
  rw [← Nat.mod_eq_sub_mul_div, ← BitVec.toNat_umod, BitVec.ofNat_toNat, BitVec.setWidth_eq]

/-- Settles O43: the cases of the division, of which `//` leaves the second part. -/
theorem remainderResults : Obligations.RemainderResults := by
  intro s x y rest hs hd
  refine ⟨?_, fun hy hx55 hy55 => ?_, fun hy h55 => ?_⟩
  · rintro rfl
    exact exec_modulo_none hs (divide_zero x)
  · rw [exec_modulo_some hs hd (divide_nonneg hy hx55 hy55), umod_eq_sub]
  · have hdiv := divide_bit55 hy h55
    match hm : Config.divMod x y with
    | none => exact exec_modulo_none hs (hdiv.trans hm)
    | some (q, r) => exact exec_modulo_some hs hd (hdiv.trans hm)

/-- Settles O44: the draw counts, the push does the rest. -/
theorem randomPushesAFreeValue : Obligations.RandomPushesAFreeValue := by
  intro s hroom
  refine ⟨(s.setCur { s.cur with stack := Config.freeWord s.draws :: s.cur.stack }).drawn 1, ?_, cur_setCur _ _, rfl,
    fun k hk => thread_setCur_of_ne _ _ hk, rfl, rfl⟩
  rw [exec_random, push_next (by rwa [drawn_cur, drawn_cfg]), drawn_cur, drawn_setCur]

end Sys2Proof.Machine

/-!
PROOF. Blocks and strings (spec/45_memory_ops.md R260 to R267): what the writes of a range come to in each case, the searches, and from these
the statements.
-/
namespace Sys2Proof.Machine

/-! ## Ranges -/

theorem ram_setCur {s : State} {a n : Nat} (h : s.Ram a n) (t : Thread) : (s.setCur t).Ram a n := h

theorem plain_setCur {s : State} {a n : Nat} (h : s.Plain a n) (t : Thread) : (s.setCur t).Plain a n := h

theorem touches_clipped_eq_false {s : State} {a c : Nat} (h : ∀ i < c, s.cfg.kindAt (a + i) ≠ some .peripheral) :
    s.touches .peripheral a (clipped a c) = false :=
  anyByte_eq_false.2 fun i hi => by simpa using h i (hi.trans_le (clipped_le a c))

theorem touches_of_exists {s : State} {k : RegionKind} {a c : Nat} (h : ∃ i < c, s.cfg.kindAt (a + i) = some k) :
    s.touches k a c = true := by
  obtain ⟨i, hi, hk⟩ := h
  exact anyByte_eq_true.2 ⟨i, hi, by simp [hk]⟩

theorem extract_low_byte (v : W56) : v.extractLsb' 0 8 = BitVec.ofNat 8 v.toNat := by
  apply BitVec.eq_of_toNat_eq
  simp [BitVec.extractLsb'_toNat]

/-- What storing to RAM leaves, of a state whose data stack has been popped: memory alone changes, by the bytes stored. -/
theorem storeBytes_result {s : State} {t : Thread} {a : Nat} {bs : List Byte} (hw : s.mem.wf = true) (hp : s.Ram a bs.length) :
    (s.setCur t).storeBytes a bs = { s.setCur t with mem := ((s.setCur t).storeBytes a bs).mem } ∧
    (∀ i (h : i < bs.length), ((s.setCur t).storeBytes a bs).mem.read (a + i) = bs[i]) ∧
    ∀ b, b < a ∨ a + bs.length ≤ b → ((s.setCur t).storeBytes a bs).mem.read b = s.mem.read b := by
  refine ⟨storeBytes_eq _ _ _, fun i h => ?_, fun b h => storeBytes_read_outside _ _ h⟩
  exact storeBytes_read_inside (s := s.setCur t) hw (fun j hj => by simp [hp j hj]) h

/-- What a `$103` inside a block instruction leaves, where each byte meant for the destination is `f`'s: it is what a restart leaves,
with old or intended bytes in the destination and old ones elsewhere (R260 item 5). -/
theorem raiseInBlock_result {s : State} {xs : List W56} {a c : Nat} {bs : List (Option Byte)} (f : Nat → Byte)
    (hw : s.mem.wf = true) (hl : bs.length ≤ c) (hb : ∀ i (h : i < bs.length), bs[i] = none ∨ bs[i] = some (f i)) :
    ∃ t, raiseInBlock (s.setCur { s.cur with stack := xs }) a bs = .next t ∧ RestartedFrom s t ∧
      (t.thread 0).stack.head? = some 0x103 ∧
      (∀ i < c, t.mem.read (a + i) = s.mem.read (a + i) ∨ t.mem.read (a + i) = f i) ∧
      ∀ b, b < a ∨ a + c ≤ b → t.mem.read b = s.mem.read b := by
  have heq : raiseInBlock (s.setCur { s.cur with stack := xs }) a bs =
      .next (((s.storeSome a bs).drawn 1).restart .badMemory s.here.toNat) := by
    rw [raiseInBlock, storeSome_setCur, ← drawn_setCur, raise_setCur]
    rfl
  refine ⟨_, heq, ⟨.badMemory, (s.storeSome a bs).drawn 1, storeSome_cfg s a bs, rfl⟩,
    by rw [restart_thread_zero]; rfl, fun i _ => ?_, fun b h => storeSome_read_outside s bs (by omega)⟩
  rw [restart_mem, drawn_mem]
  rcases Nat.lt_or_ge i bs.length with hi | hi
  · rcases storeSome_read_inside (a := a) hw hi with h | h
    · exact .inl h
    · rcases hb i hi with hn | hs
      · rw [hn] at h; cases h
      · rw [hs] at h; exact .inr (Option.some.inj h)
  · exact .inl (storeSome_read_outside s bs (by omega))

/-! ## FILL (R261) -/

/-- FILL with its parameters. -/
theorem exec_fill_cons {s : State} {v c a : W56} {rest : List W56} (hs : s.cur.stack = v :: c :: a :: rest) :
    exec .fill s = if c.toNat = 0 then .next (s.setCur { s.cur with stack := rest })
      else fillBlock (s.setCur { s.cur with stack := rest }) a.toNat c.toNat (v.extractLsb' 0 8) := by
  rw [show exec .fill s = execFill s from rfl, execFill, pop_pop_pop_cons hs]

theorem toNat_ne_zero {c : W56} (h : c ≠ 0) : c.toNat ≠ 0 :=
  fun e => h (BitVec.eq_of_toNat_eq e)

theorem exec_fill_zero {s : State} {v a : W56} {rest : List W56} (hs : s.cur.stack = v :: 0 :: a :: rest) :
    exec .fill s = .next (s.setCur { s.cur with stack := rest }) := by
  simp [exec_fill_cons hs]

theorem exec_fill_ne_zero {s : State} {v c a : W56} {rest : List W56} (hs : s.cur.stack = v :: c :: a :: rest)
    (hc : c.toNat ≠ 0) :
    exec .fill s = fillBlock (s.setCur { s.cur with stack := rest }) a.toNat c.toNat (v.extractLsb' 0 8) := by
  rw [exec_fill_cons hs, if_neg hc]

section
variable {s : State} {a c : Nat} {b : Byte}

theorem fillBlock_peripheral {i : Nat} (hi : i < c) (hr : a + i < 2 ^ 28) (hk : s.cfg.kindAt (a + i) = some .peripheral) :
    fillBlock s a c b = .refused .blockOverPeripheral := by
  rw [fillBlock, if_pos (touches_clipped hi hr hk)]

theorem fillBlock_missing (h : 2 ^ 28 < a + c ∨ ∃ i < c, s.cfg.valid (a + i) = false)
    (hp : ∀ i < c, s.cfg.kindAt (a + i) ≠ some .peripheral) :
    fillBlock s a c b = raiseInBlock s a (List.replicate (clipped a c) (some b)) := by
  simp only [fillBlock, touches_clipped_eq_false hp, rangeOk_eq_false h, Bool.false_eq_true, if_false, Bool.not_false, if_true]

theorem fillBlock_rom (hp : s.Plain a c) (hr : a + c ≤ 2 ^ 28) (h : ∃ i < c, s.cfg.kindAt (a + i) = some .rom) :
    fillBlock s a c b = .refused .readOnlyLocation := by
  simp [fillBlock, clipped_of_le hr, plain_touches hp, plain_rangeOk hp hr, touches_of_exists h]

theorem fillBlock_own (hp : s.Ram a c) (hr : a + c ≤ 2 ^ 28) (ho : s.hitsOwnWord a c = true) :
    fillBlock s a c b = .refused .storeIntoOwnWord := by
  simp [fillBlock, clipped_of_le hr, plain_touches (ram_plain hp), plain_rangeOk (ram_plain hp) hr, ram_touches hp, ho]

end

/-! ## The copy of `=` and `=$` (R263, R267) -/

theorem exec_copy_cons {s : State} {c n a : W56} {rest : List W56} (hs : s.cur.stack = c :: n :: a :: rest) :
    exec .copy s = if c.toNat = 0 then .next (s.setCur { s.cur with stack := rest })
      else copyBlock (s.setCur { s.cur with stack := rest }) a.toNat n.toNat c.toNat := by
  rw [show exec .copy s = execCopy s from rfl, execCopy, pop_pop_pop_cons hs]

theorem exec_copy_zero {s : State} {n a : W56} {rest : List W56} (hs : s.cur.stack = 0 :: n :: a :: rest) :
    exec .copy s = .next (s.setCur { s.cur with stack := rest }) := by
  simp [exec_copy_cons hs]

theorem exec_copy_ne_zero {s : State} {c n a : W56} {rest : List W56} (hs : s.cur.stack = c :: n :: a :: rest)
    (hc : c.toNat ≠ 0) :
    exec .copy s = copyBlock (s.setCur { s.cur with stack := rest }) a.toNat n.toNat c.toNat := by
  rw [exec_copy_cons hs, if_neg hc]

section
variable {s : State} {a n c : Nat}

theorem copyBlock_peripheral {i : Nat} (hi : i < c) (h : a + i < 2 ^ 28 ∧ s.cfg.kindAt (a + i) = some .peripheral ∨
    n + i < 2 ^ 28 ∧ s.cfg.kindAt (n + i) = some .peripheral) : copyBlock s a n c = .refused .blockOverPeripheral := by
  rw [copyBlock, if_pos]
  rw [Bool.or_eq_true]
  exact h.imp (fun h => touches_clipped hi h.1 h.2) fun h => touches_clipped hi h.1 h.2

theorem copyBlock_missing
    (h : (2 ^ 28 < a + c ∨ ∃ i < c, s.cfg.valid (a + i) = false) ∨ 2 ^ 28 < n + c ∨ ∃ i < c, s.cfg.valid (n + i) = false)
    (hpa : ∀ i < c, s.cfg.kindAt (a + i) ≠ some .peripheral) (hpn : ∀ i < c, s.cfg.kindAt (n + i) ≠ some .peripheral) :
    copyBlock s a n c = raiseInBlock s n (s.sourceBytes a (clipped n c)) := by
  have hr : (s.rangeOk a c && s.rangeOk n c) = false := by
    rcases h with h | h
    · rw [rangeOk_eq_false h, Bool.false_and]
    · rw [rangeOk_eq_false h, Bool.and_false]
  simp only [copyBlock, touches_clipped_eq_false hpa, touches_clipped_eq_false hpn, hr, Bool.or_false, Bool.false_eq_true,
    if_false, Bool.not_false, if_true]

theorem copyBlock_rom (hp : s.Plain a c) (hr : a + c ≤ 2 ^ 28) (hp' : s.Plain n c) (hr' : n + c ≤ 2 ^ 28)
    (h : ∃ i < c, s.cfg.kindAt (n + i) = some .rom) : copyBlock s a n c = .refused .readOnlyLocation := by
  simp [copyBlock, clipped_of_le hr, clipped_of_le hr', plain_touches hp, plain_touches hp', plain_rangeOk hp hr,
    plain_rangeOk hp' hr', touches_of_exists h]

theorem copyBlock_own (hp : s.Plain a c) (hr : a + c ≤ 2 ^ 28) (hp' : s.Ram n c) (hr' : n + c ≤ 2 ^ 28)
    (ho : s.hitsOwnWord n c = true) : copyBlock s a n c = .refused .storeIntoOwnWord := by
  simp [copyBlock, clipped_of_le hr, clipped_of_le hr', plain_touches hp, plain_touches (ram_plain hp'), plain_rangeOk hp hr,
    plain_rangeOk (ram_plain hp') hr', ram_touches hp', ho]

end

/-- A copy to RAM outside the executing word, with the parameters popped: every byte is the one the source held (R263, R267). -/
theorem copyBlock_result {s : State} {rest : List W56} {a n c : Nat} (hp : s.Plain a c) (hr : a + c ≤ 2 ^ 28) (hp' : s.Ram n c)
    (hr' : n + c ≤ 2 ^ 28) (ho : s.hitsOwnWord n c = false) (hw : s.mem.wf = true) :
    ∃ t, copyBlock (s.setCur { s.cur with stack := rest }) a n c = .next t ∧
      t = { s.setCur { s.cur with stack := rest } with mem := t.mem } ∧
      (∀ i < c, t.mem.read (n + i) = s.mem.read (a + i)) ∧ ∀ b, b < n ∨ n + c ≤ b → t.mem.read b = s.mem.read b := by
  obtain ⟨heq, hin, hout⟩ := storeBytes_result (t := { s.cur with stack := rest }) (a := n) (bs := s.bytesAt a c) hw
    (by rwa [bytesAt_length])
  have hcopy := copyBlock_ram (plain_setCur hp { s.cur with stack := rest }) hr (ram_setCur hp' _) hr'
    (by rwa [hitsOwnWord_setStack])
  rw [bytesAt_setCur] at hcopy
  refine ⟨_, hcopy, heq, fun i hi => ?_, fun b hb => hout b (by rwa [bytesAt_length])⟩
  rw [hin i (by rwa [bytesAt_length]), bytesAt_getElem]

/-- A copy over memory that does not exist, with the parameters popped (R260 item 5). -/
theorem copyBlock_missing_result {s : State} {rest : List W56} {a n c : Nat}
    (h : (2 ^ 28 < a + c ∨ ∃ i < c, s.cfg.valid (a + i) = false) ∨ 2 ^ 28 < n + c ∨ ∃ i < c, s.cfg.valid (n + i) = false)
    (hpa : ∀ i < c, s.cfg.kindAt (a + i) ≠ some .peripheral) (hpn : ∀ i < c, s.cfg.kindAt (n + i) ≠ some .peripheral)
    (hw : s.mem.wf = true) :
    ∃ t, copyBlock (s.setCur { s.cur with stack := rest }) a n c = .next t ∧ RestartedFrom s t ∧
      (t.thread 0).stack.head? = some 0x103 ∧
      (∀ i < c, t.mem.read (n + i) = s.mem.read (n + i) ∨ t.mem.read (n + i) = s.mem.read (a + i)) ∧
      ∀ b, b < n ∨ n + c ≤ b → t.mem.read b = s.mem.read b := by
  rw [copyBlock_missing (s := s.setCur _) h hpa hpn, sourceBytes_setCur]
  exact raiseInBlock_result (fun i => s.mem.read (a + i)) hw (by rw [sourceBytes_length]; exact clipped_le n c)
    fun i hi => sourceBytes_getElem s a _ i hi

/-! ## The statements on FILL and `=` -/

/-- Settles O45: the block's checks in their order, then the stores, of which the laws of memory say what each byte holds. -/
theorem fillAndCopyWriteTheirRange : Obligations.FillAndCopyWriteTheirRange := by
  refine ⟨fun s v c a rest hs => ⟨?_, ?_, ?_, ?_, ?_⟩, fun s c n a rest hs => ⟨?_, ?_, ?_, ?_, ?_⟩⟩
  · rintro rfl
    exact exec_fill_zero hs
  · intro hc hp hr ho hw
    rw [exec_fill_ne_zero hs (toNat_ne_zero hc), fillBlock_ram (ram_setCur hp _) hr (by rwa [hitsOwnWord_setStack]),
      extract_low_byte]
    obtain ⟨heq, hin, hout⟩ := storeBytes_result (t := { s.cur with stack := rest }) (a := a.toNat)
      (bs := List.replicate c.toNat (BitVec.ofNat 8 v.toNat)) hw (by rwa [List.length_replicate])
    refine ⟨_, rfl, heq, fun i hi => ?_, fun b hb => hout b (by rwa [List.length_replicate])⟩
    rw [hin i (by rwa [List.length_replicate]), List.getElem_replicate]
  · intro hc hp hr ho
    rw [exec_fill_ne_zero hs (toNat_ne_zero hc), fillBlock_own (ram_setCur hp _) hr (by rwa [hitsOwnWord_setStack])]
  · intro hp hr hrom
    have hc : c.toNat ≠ 0 := by obtain ⟨i, hi, -⟩ := hrom; omega
    rw [exec_fill_ne_zero hs hc, fillBlock_rom (plain_setCur hp _) hr hrom]
  · intro i hi hr hk
    rw [exec_fill_ne_zero hs (by omega), fillBlock_peripheral (s := s.setCur _) hi hr hk]
  · rintro rfl
    exact exec_copy_zero hs
  · intro hc hp hr hp' hr' ho hw
    rw [exec_copy_ne_zero hs (toNat_ne_zero hc)]
    exact copyBlock_result hp hr hp' hr' ho hw
  · intro hc hp hr hp' hr' ho
    rw [exec_copy_ne_zero hs (toNat_ne_zero hc),
      copyBlock_own (plain_setCur hp _) hr (ram_setCur hp' _) hr' (by rwa [hitsOwnWord_setStack])]
  · intro hp hr hp' hr' hrom
    have hc : c.toNat ≠ 0 := by obtain ⟨i, hi, -⟩ := hrom; omega
    rw [exec_copy_ne_zero hs hc, copyBlock_rom (plain_setCur hp _) hr (plain_setCur hp' _) hr' hrom]
  · intro i hi hk
    rw [exec_copy_ne_zero hs (by omega), copyBlock_peripheral (s := s.setCur _) hi hk]

/-- Settles O46: without a peripheral in the ranges the missing byte is what the block's checks come to first. -/
theorem blockFaultLeavesOldOrNewBytes : Obligations.BlockFaultLeavesOldOrNewBytes := by
  refine ⟨fun s v c a rest hs hc hw hm hp => ?_, fun s c n a rest hs hc hw hm hp => ?_⟩
  · rw [exec_fill_ne_zero hs (toNat_ne_zero hc), fillBlock_missing (s := s.setCur _) hm hp, extract_low_byte]
    exact raiseInBlock_result (fun _ => BitVec.ofNat 8 v.toNat) hw (by rw [List.length_replicate]; exact clipped_le _ _)
      fun i hi => .inr (List.getElem_replicate hi)
  · rw [exec_copy_ne_zero hs (toNat_ne_zero hc)]
    refine copyBlock_missing_result ?_ (fun i hi => (hp i hi).1) (fun i hi => (hp i hi).2) hw
    rcases hm with h | h | ⟨i, hi, h | h⟩
    · exact .inl (.inl h)
    · exact .inr (.inl h)
    · exact .inl (.inr ⟨i, hi, h⟩)
    · exact .inr (.inr ⟨i, hi, h⟩)

/-! ## DIFF (R262) -/

/-- DIFF with its parameters. -/
theorem exec_diff_cons {s : State} {c y x : W56} {rest : List W56} (hs : s.cur.stack = c :: y :: x :: rest) :
    exec .diff s =
      if c.toNat = 0 then push 0 (s.setCur { s.cur with stack := rest }) .next
      else if s.touches .peripheral x.toNat (clipped x.toNat c.toNat) || s.touches .peripheral y.toNat (clipped y.toNat c.toNat)
      then .refused .blockOverPeripheral
      else if !(s.rangeOk x.toNat c.toNat && s.rangeOk y.toNat c.toNat) then .next (s.restart .badMemory s.here.toNat)
      else match firstDifference (s.bytesAt x.toNat c.toNat) (s.bytesAt y.toNat c.toNat) with
        | none => push 0 (s.setCur { s.cur with stack := rest }) .next
        | some i => push (BitVec.ofNat 56 (c.toNat - i)) (s.setCur { s.cur with stack := rest }) .next := by
  rw [show exec .diff s = execDiff s from rfl, execDiff, pop_pop_pop_cons hs]
  simp only [touches_setCur, rangeOk_setCur, bytesAt_setCur, raise_setStack] <;> rfl

/-- DIFF over plain ranges of some length comes to the search. -/
theorem exec_diff_plain {s : State} {c y x : W56} {rest : List W56} (hs : s.cur.stack = c :: y :: x :: rest) (hc : c.toNat ≠ 0)
    (hx : s.Plain x.toNat c.toNat) (hrx : x.toNat + c.toNat ≤ 2 ^ 28) (hy : s.Plain y.toNat c.toNat)
    (hry : y.toNat + c.toNat ≤ 2 ^ 28) :
    exec .diff s = match firstDifference (s.bytesAt x.toNat c.toNat) (s.bytesAt y.toNat c.toNat) with
      | none => push 0 (s.setCur { s.cur with stack := rest }) .next
      | some i => push (BitVec.ofNat 56 (c.toNat - i)) (s.setCur { s.cur with stack := rest }) .next := by
  rw [exec_diff_cons hs, if_neg hc, clipped_of_le hrx, clipped_of_le hry, plain_touches hx, plain_touches hy,
    plain_rangeOk hx hrx, plain_rangeOk hy hry]
  rfl

/-- Settles O47: after the checks DIFF is the search for the first difference. -/
theorem diffCountsWhatRemains : Obligations.DiffCountsWhatRemains := by
  intro s c y x rest hs hd
  have hroom : rest.length < s.cfg.dstackSize := by
    rw [hs] at hd
    simp only [List.length_cons] at hd
    omega
  have hzero : c.toNat = 0 → exec .diff s = .next (s.setCur { s.cur with stack := 0 :: rest }) := fun hc => by
    rw [exec_diff_cons hs, if_pos hc, push_rest hroom]
  refine ⟨fun hc => hzero (by rw [hc]; rfl), fun hx hrx hy hry => ⟨fun heq => ?_, fun i hi heq hne => ?_⟩,
    fun hc hm hp => ?_, fun i hi hk => ?_⟩
  · by_cases hc : c.toNat = 0
    · exact hzero hc
    · rw [exec_diff_plain hs hc hx hrx hy hry, firstDifference_eq_none _ heq]
      exact push_rest hroom
  · rw [exec_diff_plain hs (by omega) hx hrx hy hry, firstDifference_eq_some _ hi heq hne]
    exact push_rest hroom
  · have hr : (s.rangeOk x.toNat c.toNat && s.rangeOk y.toNat c.toNat) = false := by
      rcases hm with h | h | ⟨i, hi, h | h⟩
      · rw [rangeOk_eq_false (.inl h), Bool.false_and]
      · rw [rangeOk_eq_false (a := y.toNat) (.inl h), Bool.and_false]
      · rw [rangeOk_eq_false (.inr ⟨i, hi, h⟩), Bool.false_and]
      · rw [rangeOk_eq_false (a := y.toNat) (.inr ⟨i, hi, h⟩), Bool.and_false]
    rw [exec_diff_cons hs, if_neg (toNat_ne_zero hc), touches_clipped_eq_false fun i hi => (hp i hi).1,
      touches_clipped_eq_false fun i hi => (hp i hi).2, hr]
    rfl
  · have ht : (s.touches .peripheral x.toNat (clipped x.toNat c.toNat) ||
        s.touches .peripheral y.toNat (clipped y.toNat c.toNat)) = true := by
      rw [Bool.or_eq_true]
      exact hk.imp (fun h => touches_clipped hi h.1 h.2) fun h => touches_clipped hi h.1 h.2
    rw [exec_diff_cons hs, if_neg (by omega), if_pos ht]

/-! ## LEN$ and SCAN$ (R264, R265) -/

/-- The search finds the first place where a string occurs. -/
theorem findString_eq_some {s : State} {y ly : Nat} : ∀ (p lx x : Nat), p + ly ≤ lx →
    (∀ j < ly, s.mem.read (x + p + j) = s.mem.read (y + j)) →
    (∀ q < p, ∃ j < ly, s.mem.read (x + q + j) ≠ s.mem.read (y + j)) →
    findString (s.bytesAt y ly) (s.bytesAt x lx) = some p
  | 0, 0, x, hl, _, _ => by
    obtain rfl : ly = 0 := by omega
    rfl
  | 0, lx + 1, x, hl, hm, _ => by
    have hpre : (s.bytesAt y ly).isPrefixOf (s.bytesAt x (lx + 1)) = true := isPrefixOf_bytesAt.2 ⟨by omega, hm⟩
    rw [State.bytesAt] at hpre ⊢
    rw [findString, if_pos hpre]
  | p + 1, 0, x, hl, _, _ => by omega
  | p + 1, lx + 1, x, hl, hm, hn => by
    have hpre : ¬(s.bytesAt y ly).isPrefixOf (s.bytesAt x (lx + 1)) = true := fun h => by
      obtain ⟨j, hj, hne⟩ := hn 0 (by omega)
      exact hne ((isPrefixOf_bytesAt.1 h).2 j hj)
    rw [State.bytesAt] at hpre ⊢
    rw [findString, if_neg hpre, findString_eq_some p lx (x + 1) (by omega)
      (fun j hj => by rw [show x + 1 + p + j = x + (p + 1) + j by omega]; exact hm j hj)
      (fun q hq => by
        obtain ⟨j, hj, hne⟩ := hn (q + 1) (by omega)
        exact ⟨j, hj, by rwa [show x + 1 + q + j = x + (q + 1) + j by omega]⟩)]
    rfl

/-- The search finds nothing where a string does not occur. -/
theorem findString_eq_none {s : State} {y ly : Nat} : ∀ (lx x : Nat),
    (∀ p, p + ly ≤ lx → ∃ j < ly, s.mem.read (x + p + j) ≠ s.mem.read (y + j)) →
    findString (s.bytesAt y ly) (s.bytesAt x lx) = none
  | 0, x, hn => by
    match ly with
    | 0 =>
      obtain ⟨j, hj, -⟩ := hn 0 (by omega)
      omega
    | ly + 1 => rfl
  | lx + 1, x, hn => by
    have hpre : ¬(s.bytesAt y ly).isPrefixOf (s.bytesAt x (lx + 1)) = true := fun h => by
      obtain ⟨hl, heq⟩ := isPrefixOf_bytesAt.1 h
      obtain ⟨j, hj, hne⟩ := hn 0 (by omega)
      exact hne (heq j hj)
    rw [State.bytesAt] at hpre ⊢
    rw [findString, if_neg hpre, findString_eq_none lx (x + 1) fun p hp => by
      obtain ⟨j, hj, hne⟩ := hn (p + 1) (by omega)
      exact ⟨j, hj, by rwa [show x + 1 + p + j = x + (p + 1) + j by omega]⟩]
    rfl

/-- LEN$ with its parameter. -/
theorem exec_lenStr_cons {s : State} {a : W56} {rest : List W56} (hs : s.cur.stack = a :: rest) :
    exec .lenStr s = strLen (s.setCur { s.cur with stack := rest }) a.toNat fun len =>
      push (BitVec.ofNat 56 len) (s.setCur { s.cur with stack := rest }) .next := by
  rw [show exec .lenStr s = execLenStr s from rfl, execLenStr, pop_cons hs, withStack_eq]

/-- SCAN$ with its parameters. -/
theorem exec_scanStr_cons {s : State} {y x : W56} {rest : List W56} (hs : s.cur.stack = y :: x :: rest) :
    exec .scanStr s = strLen (s.setCur { s.cur with stack := rest }) x.toNat fun lx =>
      strLen (s.setCur { s.cur with stack := rest }) y.toNat fun ly =>
        match findString (s.bytesAt y.toNat ly) (s.bytesAt x.toNat lx) with
        | some p => push (BitVec.ofNat 56 (x.toNat + p)) (s.setCur { s.cur with stack := rest }) .next
        | none => push 0 (s.setCur { s.cur with stack := rest }) .next := by
  rw [show exec .scanStr s = execScanStr s from rfl, execScanStr, pop_pop_cons hs]
  simp only [bytesAt_setCur] <;> rfl

/-- Settles O48: the search for each string's end comes first, X's before Y's; then LEN$ pushes the length, SCAN$ what the search for
Y in X finds. -/
theorem stringLengthAndSearch : Obligations.StringLengthAndSearch := by
  refine ⟨fun s a rest hs hd => ⟨fun len h => ?_, fun h => ?_, fun h => ?_⟩,
    fun s y x rest hs => ⟨fun h => ?_, fun h => ?_, fun lx hx => ⟨fun h => ?_, fun h => ?_⟩⟩,
    fun s y x rest lx ly hs hd hx hy => ⟨fun p hp hm hn => ?_, fun hn => ?_⟩⟩
  · rw [exec_lenStr_cons hs, strLen_holds h, push_popped hs hd]
  · rw [exec_lenStr_cons hs, strLen_leaves h]
  · rw [exec_lenStr_cons hs, strLen_meets h]
  · rw [exec_scanStr_cons hs, strLen_leaves h]
  · rw [exec_scanStr_cons hs, strLen_meets h]
  · rw [exec_scanStr_cons hs, strLen_holds hx, strLen_leaves h]
  · rw [exec_scanStr_cons hs, strLen_holds hx, strLen_meets h]
  all_goals
    have hroom : rest.length < s.cfg.dstackSize := by
      rw [hs] at hd
      simp only [List.length_cons] at hd
      omega
    rw [exec_scanStr_cons hs, strLen_holds hx, strLen_holds hy]
  · rw [findString_eq_some p lx _ hp hm hn]
    exact push_rest hroom
  · rw [findString_eq_none lx _ hn]
    exact push_rest hroom

/-! ## DIFF$ (R266) -/

/-- DIFF$ with its parameters. -/
theorem exec_diffStr_cons {s : State} {y x : W56} {rest : List W56} (hs : s.cur.stack = y :: x :: rest) :
    exec .diffStr s = match s.strCmp (2 ^ 28 - max x.toNat y.toNat) 0 x.toNat y.toNat with
      | .equal => push 0 (s.setCur { s.cur with stack := rest }) .next
      | .differAt i => push (BitVec.ofNat 56 i) (s.setCur { s.cur with stack := rest }) .next
      | .invalid => .next (s.restart .badMemory s.here.toNat)
      | .peripheral => .refused .blockOverPeripheral := by
  rw [show exec .diffStr s = execDiffStr s from rfl, execDiffStr, pop_pop_cons hs]
  simp only [strCmp_setCur, raise_setStack] <;> rfl

theorem strCmp_peripheral {s : State} {x y : Nat} (h : s.cfg.kindAt x = some .peripheral ∨ s.cfg.kindAt y = some .peripheral)
    (left seen : Nat) : s.strCmp left seen x y = .peripheral := by
  cases left <;> rw [State.strCmp, if_pos h]

theorem strCmp_invalid {s : State} {left x y : Nat} (hx : s.cfg.kindAt x ≠ some .peripheral)
    (hy : s.cfg.kindAt y ≠ some .peripheral) (h : left = 0 ∨ s.cfg.kindAt x = none ∨ s.cfg.kindAt y = none) (seen : Nat) :
    s.strCmp left seen x y = .invalid := by
  have hp : ¬(s.cfg.kindAt x = some .peripheral ∨ s.cfg.kindAt y = some .peripheral) := fun h => h.elim hx hy
  cases left with
  | zero => rw [State.strCmp, if_neg hp]
  | succ left => rw [State.strCmp, if_neg hp, if_pos (h.resolve_left (by omega))]

/-- Two characters of plain memory are compared. -/
theorem strCmp_plain {s : State} {x y : Nat} (hx : s.Plain x 1) (hy : s.Plain y 1) (left seen : Nat) :
    s.strCmp (left + 1) seen x y = if s.mem.read x = s.mem.read y then
      (if s.mem.read x = 0 then .equal else s.strCmp left (seen + 1) (x + 1) (y + 1)) else .differAt seen := by
  have hpx := plain_ne hx (i := 0) (by omega)
  have hpy := plain_ne hy (i := 0) (by omega)
  have hvx := plain_valid hx 0 (by omega)
  have hvy := plain_valid hy 0 (by omega)
  simp only [Nat.add_zero, Params.valid, Option.isSome_iff_ne_none] at hpx hpy hvx hvy
  rw [State.strCmp, if_neg (fun h => h.elim hpx hpy), if_neg (fun h => h.elim hvx hvy)]

/-- Settles O49: after the equal characters the comparison is decided by what stands at the next index. -/
theorem stringComparison : Obligations.StringComparison := by
  intro s y x rest i hs hd hpx hpy hr heq
  have hroom : rest.length < s.cfg.dstackSize := by
    rw [hs] at hd
    simp only [List.length_cons] at hd
    omega
  have hle : i ≤ 2 ^ 28 - max x.toNat y.toNat := by omega
  rw [exec_diffStr_cons hs, strCmp_skip i _ 0 _ _ hle hpx hpy heq, Nat.zero_add]
  refine ⟨fun hx hy hix hiy => ?_, fun hm hx hy => ?_, fun h => ?_⟩
  · obtain ⟨l, hl⟩ : ∃ l, 2 ^ 28 - max x.toNat y.toNat - i = l + 1 := ⟨2 ^ 28 - max x.toNat y.toNat - i - 1, by omega⟩
    rw [hl, strCmp_plain hx hy]
    refine ⟨fun hne => ?_, fun h0x h0y => ?_⟩
    · rw [if_neg hne]
      exact push_rest hroom
    · rw [if_pos (h0x.trans h0y.symm), if_pos h0x]
      exact push_rest hroom
  · rw [strCmp_invalid hx hy]
    rcases hm with h | h | h | h
    · exact .inl (by omega)
    · exact .inl (by omega)
    · exact .inr (.inl (by simpa [Params.valid] using h))
    · exact .inr (.inr (by simpa [Params.valid] using h))
  · rw [strCmp_peripheral h]

/-! ## `=$` (R267) -/

theorem exec_copyStr_cons {s : State} {n a : W56} {rest : List W56} (hs : s.cur.stack = n :: a :: rest) :
    exec .copyStr s = strLen (s.setCur { s.cur with stack := rest }) a.toNat fun len =>
      copyBlock (s.setCur { s.cur with stack := rest }) a.toNat n.toNat (len + 1) := by
  rw [show exec .copyStr s = execCopyStr s from rfl, execCopyStr, pop_pop_cons hs]

/-- Settles O50: once the string's end is found, `=$` is the copy of the string with its terminator. -/
theorem stringCopy : Obligations.StringCopy := by
  intro s n a rest hs
  refine ⟨fun h => by rw [exec_copyStr_cons hs, strLen_leaves h], fun h => by rw [exec_copyStr_cons hs, strLen_meets h],
    fun len h => ?_⟩
  have hin : a.toNat + (len + 1) ≤ 2 ^ 28 := h.inside
  rw [exec_copyStr_cons hs, strLen_holds h]
  refine ⟨fun hp hr ho hw => ?_, fun i hi hr hk => ?_, fun hp hw hm => ?_, fun hp hr hrom => ?_, fun hp hr ho => ?_⟩
  · obtain ⟨t, ht, heq, hread, hout⟩ := copyBlock_result (rest := rest) h.plain hin hp hr ho hw
    exact ⟨t, ht, heq, fun i hi => hread i (by omega), fun b hb => hout b (by omega)⟩
  · exact copyBlock_peripheral (s := s.setCur _) (i := i) (by omega) (.inr ⟨hr, hk⟩)
  · obtain ⟨t, ht, hres, hcode, hread, hout⟩ := copyBlock_missing_result (rest := rest) (s := s) (a := a.toNat) (n := n.toNat)
      (c := len + 1) (.inr (hm.imp (fun h => by omega) fun ⟨i, hi, hv⟩ => ⟨i, by omega, hv⟩))
      (fun i hi => plain_ne h.plain hi) (fun i hi => hp i (by omega)) hw
    exact ⟨t, ht, hres, hcode, fun i hi => hread i (by omega), fun b hb => hout b (by omega)⟩
  · obtain ⟨i, hi, hk⟩ := hrom
    exact copyBlock_rom (plain_setCur h.plain _) hin (plain_setCur hp _) hr ⟨i, by omega, hk⟩
  · exact copyBlock_own (plain_setCur h.plain _) hin (ram_setCur hp _) hr (by rwa [hitsOwnWord_setStack])

end Sys2Proof.Machine

/-!
PROOF. Raw reads and writes and constants in memory (spec/20_memory.md R62 to R76, spec/45_memory_ops.md R268 to R275): the checks of an access,
what its transfers leave, and from these the statements.
-/
namespace Sys2Proof.Machine

/-! ## The checks of an access (R64 to R66) -/

theorem accessCheck_range {s : State} {a n : Nat} (h : 2 ^ 28 < a + n) : s.accessCheck a n = some .badMemory := by
  rw [State.accessCheck, if_pos h]

theorem accessCheck_odd {s : State} {a n : Nat} (hr : a + n ≤ 2 ^ 28) (hn : 1 < n) (ha : a % 2 = 1) :
    s.accessCheck a n = some .alignment := by
  rw [State.accessCheck, if_neg (Nat.not_lt.2 hr), if_pos ⟨hn, ha⟩]

theorem accessCheck_absent {s : State} {a n : Nat} (hr : a + n ≤ 2 ^ 28) (ha : n = 1 ∨ a % 2 = 0)
    (h : ∃ j < n, s.cfg.valid (a + j) = false) : s.accessCheck a n = some .badMemory := by
  obtain ⟨j, hj, hv⟩ := h
  have hm : anyByte (fun b => !s.cfg.valid b) a n = true := anyByte_eq_true.2 ⟨j, hj, by simp [hv]⟩
  rw [State.accessCheck, if_neg (Nat.not_lt.2 hr), if_neg (by omega), if_pos hm]

theorem accessCheck_ok {s : State} {a n : Nat} (hr : a + n ≤ 2 ^ 28) (ha : n = 1 ∨ a % 2 = 0)
    (h : ∀ j < n, s.cfg.valid (a + j) = true) : s.accessCheck a n = none :=
  accessCheck_none.2 ⟨hr, by omega, h⟩

theorem memRead_fails {s : State} {a n : Nat} {c : Condition} {k : Nat → State → Out} (h : s.accessCheck a n = some c) :
    memRead s a n k = raise c s := by
  rw [memRead, h]

theorem memWrite_fails {s : State} {a : Nat} {bs : List Byte} {c : Condition} {k : State → Out}
    (h : s.accessCheck a bs.length = some c) : memWrite s a bs k = raise c s := by
  rw [memWrite, h]

/-- A read that passes its checks is one transfer, but for 32 bits. -/
theorem memRead_checked {s : State} {a n : Nat} {k : Nat → State → Out} (h : s.accessCheck a n = none) (hn : n ≠ 4) :
    memRead s a n k = k (s.valueAt a n) (s.afterRead a n) := by
  simp only [memRead, h, if_neg hn]

/-- A 32-bit read that passes its checks is two transfers, the low word first (R75). -/
theorem memRead_four {s : State} {a : Nat} {k : Nat → State → Out} (h : s.accessCheck a 4 = none) :
    memRead s a 4 k =
      k (s.valueAt a 2 + 2 ^ 16 * (s.afterRead a 2).valueAt (a + 2) 2) ((s.afterRead a 2).afterRead (a + 2) 2) := by
  simp only [memRead, h, if_true]

theorem memWrite_rom {s : State} {a : Nat} {bs : List Byte} {k : State → Out} (h : s.accessCheck a bs.length = none)
    (hr : s.touches .rom a bs.length = true) : memWrite s a bs k = .refused .readOnlyLocation := by
  simp only [memWrite, h, hr, if_true]

theorem memWrite_byte_peripheral {s : State} {a : Nat} {bs : List Byte} {k : State → Out}
    (h : s.accessCheck a bs.length = none) (hl : bs.length = 1) (hp : s.cfg.kindAt a = some .peripheral) :
    memWrite s a bs k = .refused .byteWriteToPeripheral := by
  have hr : s.touches .rom a bs.length = false := anyByte_eq_false.2 fun i hi => by
    obtain rfl : i = 0 := by omega
    simp [hp]
  have ht : s.touches .peripheral a 1 = true := touches_of_exists ⟨0, by omega, hp⟩
  rw [hl] at h hr
  simp only [memWrite, h, hr, Bool.false_eq_true, if_false, hl, ht, and_self, if_true]

theorem memWrite_own {s : State} {a : Nat} {bs : List Byte} {k : State → Out} (hp : s.Ram a bs.length)
    (hr : a + bs.length ≤ 2 ^ 28) (ha : bs.length = 1 ∨ a % 2 = 0) (ho : s.hitsOwnWord a bs.length = true) :
    memWrite s a bs k = .refused .storeIntoOwnWord := by
  have hpp : ¬(bs.length = 1 ∧ s.touches .peripheral a 1 = true) := fun ⟨hl, ht⟩ => by
    have hf := plain_touches (ram_plain hp)
    rw [hl, ht] at hf
    cases hf
  simp only [memWrite, accessCheck_ok hr ha (plain_valid (ram_plain hp)), ram_touches hp, Bool.false_eq_true, if_false,
    if_neg hpp, ho, if_true]

/-! ## The meanings -/

/-- Which instruction is a raw read, of how many bytes (R269 to R271). -/
theorem exec_rawRead {i : Instr} {n : Nat} (h : i = .rd8 ∧ n = 1 ∨ i = .rd16 ∧ n = 2 ∨ i = .rd32 ∧ n = 4) (s : State) :
    exec i s = rawRead n s := by
  rcases h with ⟨rfl, rfl⟩ | ⟨rfl, rfl⟩ | ⟨rfl, rfl⟩ <;> rfl

/-- Which instruction is a raw write, of how many bytes (R273 to R275). -/
theorem exec_rawWrite {i : Instr} {n : Nat} (h : i = .wr8 ∧ n = 1 ∨ i = .wr16 ∧ n = 2 ∨ i = .wr32 ∧ n = 4) (s : State) :
    exec i s = rawWrite n s := by
  rcases h with ⟨rfl, rfl⟩ | ⟨rfl, rfl⟩ | ⟨rfl, rfl⟩ <;> rfl

theorem rawRead_cons {s : State} {a : W56} {rest : List W56} (hs : s.cur.stack = a :: rest) (n : Nat) :
    rawRead n s = memRead (s.setCur { s.cur with stack := rest }) a.toNat n fun v t => push (BitVec.ofNat 56 v) t .next := by
  rw [rawRead, pop_cons hs, withStack_eq]

theorem rawWrite_cons {s : State} {a x : W56} {rest : List W56} (hs : s.cur.stack = a :: x :: rest) (n : Nat) :
    rawWrite n s = memWrite (s.setCur { s.cur with stack := rest }) a.toNat (leBytes x.toNat n) .next := by
  rw [rawWrite, pop_pop_cons hs]

/-- RDVLN with its parameter: the read of a constant, then two pushes. -/
theorem exec_rdvln_cons {s : State} {a : W56} {rest : List W56} (hs : s.cur.stack = a :: rest) :
    exec .rdvln s = readVlnFrom (fun c _ t => raise c t) (fun v next t => pushMany [BitVec.ofNat 56 next, v] t .next)
      4 0 0 a.toNat (s.setCur { s.cur with stack := rest }) := by
  rw [show exec .rdvln s = execRdvln s from rfl, execRdvln, pop_cons hs, withStack_eq]
  rfl

/-- WRVLN with its parameters: the words of the value, one after another, then a push. -/
theorem exec_wrvln_cons {s : State} {a x : W56} {rest : List W56} (hs : s.cur.stack = a :: x :: rest) :
    exec .wrvln s = writeWords (fun next t => push (BitVec.ofNat 56 next) t .next) (vlnWords s.cfg.typeMap x) a.toNat
      (s.setCur { s.cur with stack := rest }) := by
  rw [show exec .wrvln s = execWrvln s from rfl, execWrvln, pop_pop_cons hs]
  rfl

/-- A push that ends an instruction, over a record of which no more is known than its room. -/
theorem push_setCur {s : State} {t : Thread} {v : W56} (h : t.stack.length < s.cfg.dstackSize) :
    push v (s.setCur t) .next = .next (s.setCur { t with stack := v :: t.stack }) := by
  rw [push_next (by simpa using h)]
  simp

/-! ## Raw reads (R269 to R271) -/

/-- A raw read of RAM or ROM replaces the address by the value of the bytes there. -/
theorem rawRead_plain {s : State} {a : W56} {rest : List W56} {n : Nat} (hs : s.cur.stack = a :: rest)
    (hd : s.cur.stack.length ≤ s.cfg.dstackSize) (hp : s.Plain a.toNat n) (hr : a.toNat + n ≤ 2 ^ 28)
    (ha : n ≤ 1 ∨ a.toNat % 2 = 0) :
    rawRead n s = .next (s.setCur { s.cur with stack := BitVec.ofNat 56 (leValue s.mem.read a.toNat n) :: rest }) := by
  rw [rawRead_cons hs, memRead_plain (plain_setCur hp _) hr ha, push_popped hs hd, valueAt_setCur,
    valueAt_of_plain fun i hi => plain_ne hp hi]

/-- A raw read of 8 or 16 bits that passes its checks, a peripheral among the bytes or not. -/
theorem rawRead_checked {s : State} {a : W56} {rest : List W56} {n : Nat} (hs : s.cur.stack = a :: rest)
    (hd : s.cur.stack.length ≤ s.cfg.dstackSize) (hc : s.accessCheck a.toNat n = none) (hn : n ≠ 4) :
    rawRead n s = .next ((s.afterRead a.toNat n).setCur
      { s.cur with stack := BitVec.ofNat 56 (s.valueAt a.toNat n) :: rest }) := by
  rw [hs, List.length_cons] at hd
  rw [rawRead_cons hs, memRead_checked (by rwa [accessCheck_setCur]) hn, afterRead_setCur, valueAt_setCur,
    push_setCur (by rwa [afterRead_cfg])]

/-- RD32 that passes its checks. -/
theorem rawRead_four {s : State} {a : W56} {rest : List W56} (hs : s.cur.stack = a :: rest)
    (hd : s.cur.stack.length ≤ s.cfg.dstackSize) (hc : s.accessCheck a.toNat 4 = none) :
    rawRead 4 s = .next (((s.afterRead a.toNat 2).afterRead (a.toNat + 2) 2).setCur
      { s.cur with
        stack := BitVec.ofNat 56 (s.valueAt a.toNat 2 + 2 ^ 16 * (s.afterRead a.toNat 2).valueAt (a.toNat + 2) 2) :: rest }) := by
  rw [hs, List.length_cons] at hd
  rw [rawRead_cons hs, memRead_four (by rwa [accessCheck_setCur]), afterRead_setCur, afterRead_setCur, valueAt_setCur,
    valueAt_setCur, push_setCur (by rwa [afterRead_cfg, afterRead_cfg])]

theorem valueAt_lt (s : State) (a n : Nat) : s.valueAt a n < 2 ^ (8 * n) :=
  leValue_lt _ _ _

theorem wordAt_toNat (s : State) (a : Nat) : (s.wordAt a).toNat = s.valueAt a 2 := by
  rw [State.wordAt, BitVec.toNat_ofNat, Nat.mod_eq_of_lt (valueAt_lt s a 2)]

/-- The bytes of a transfer, each the platform's where a peripheral stands and memory's elsewhere (R69). -/
theorem valueAt_digit (s : State) {a n j : Nat} (hj : j < n) : s.valueAt a n / 2 ^ (8 * j) % 2 ^ 8 =
    if s.cfg.kindAt (a + j) = some .peripheral then (Config.peripheralByte s.platform s.draws n (a + j)).toNat
    else (s.mem.read (a + j)).toNat := by
  rw [State.valueAt, leValue_digit _ hj, State.byteAt]
  split <;> rfl

/-- Settles O51: a raw read is one transfer or two, of which plain memory brings its bytes and a peripheral the platform's. -/
theorem rawReadsAreLittleEndian : Obligations.RawReadsAreLittleEndian := by
  intro s a rest hs hd
  refine ⟨fun hp hr => ?_, fun hp hr ha => ?_, fun hp hr ha => ?_, fun i n hi hr ha hv hk => ?_, fun hr ha hv => ?_⟩
  · rw [exec_rawRead (.inl ⟨rfl, rfl⟩), rawRead_plain hs hd hp hr (by omega)]
    simp [leValue]
  · rw [exec_rawRead (.inr (.inl ⟨rfl, rfl⟩)), rawRead_plain hs hd hp hr (.inr ha)]
    simp [leValue]
  · rw [exec_rawRead (.inr (.inr ⟨rfl, rfl⟩)), rawRead_plain hs hd hp hr (.inr ha)]
    have hv : leValue s.mem.read a.toNat 4 = (s.mem.read a.toNat).toNat + 2 ^ 8 * (s.mem.read (a.toNat + 1)).toNat +
        2 ^ 16 * (s.mem.read (a.toNat + 2)).toNat + 2 ^ 24 * (s.mem.read (a.toNat + 3)).toNat := by
      simp only [leValue, Nat.add_assoc, Nat.reduceAdd]
      omega
    rw [hv]
  · have hn : n ≤ 2 := by omega
    have hraw := exec_rawRead (i := i) (n := n) (hi.elim .inl fun h => .inr (.inl h)) s
    have hper : s.touches .peripheral a.toNat n = true := touches_of_exists hk
    have hlt : s.valueAt a.toNat n < 2 ^ (8 * n) := valueAt_lt s _ _
    have hle : 2 ^ (8 * n) ≤ 2 ^ 56 := Nat.pow_le_pow_right (by decide) (by omega)
    have hval : (BitVec.ofNat 56 (s.valueAt a.toNat n)).toNat = s.valueAt a.toNat n := by
      rw [BitVec.toNat_ofNat, Nat.mod_eq_of_lt (by omega)]
    refine ⟨BitVec.ofNat 56 (s.valueAt a.toNat n), _,
      hraw.trans (rawRead_checked hs hd (accessCheck_ok hr ha hv) (by omega)), by rwa [hval],
      fun j hj => by rw [hval, valueAt_digit s hj], ?_⟩
    rw [afterRead_of_peripheral hper]
    rfl
  · have h1 := valueAt_lt s a.toNat 2
    have h2 := valueAt_lt (s.afterRead a.toNat 2) (a.toNat + 2) 2
    refine ⟨_, _, _, rfl, (exec_rawRead (.inr (.inr ⟨rfl, rfl⟩)) s).trans
      (rawRead_four hs hd (accessCheck_ok hr (.inr ha) hv)), ?_, rfl⟩
    rw [wordAt_toNat, wordAt_toNat, BitVec.toNat_ofNat, Nat.mod_eq_of_lt (by omega)]

/-! ## Raw writes (R273 to R275) -/

theorem leBytes_two (v : Nat) : leBytes v 2 = [BitVec.ofNat 8 v, BitVec.ofNat 8 (v / 2 ^ 8)] := rfl

theorem leBytes_four (v : Nat) : leBytes v 4 =
    [BitVec.ofNat 8 v, BitVec.ofNat 8 (v / 2 ^ 8), BitVec.ofNat 8 (v / 2 ^ 16), BitVec.ofNat 8 (v / 2 ^ 24)] := by
  simp only [leBytes, Nat.div_div_eq_div_mul]
  rfl

/-- What memory holds after a write among RAM and peripheral locations: the bytes written in RAM, what it held elsewhere. -/
theorem storeBytes_mixed {s t : State} {th : Thread} {a : Nat} {bs : List Byte} (hw : s.mem.wf = true)
    (ht : t.mem = ((s.setCur th).storeBytes a bs).mem) :
    (∀ j (h : j < bs.length), t.mem.read (a + j) =
      if s.cfg.kindAt (a + j) = some .peripheral then s.mem.read (a + j) else bs[j]) ∧
    (∀ b, b < a ∨ a + bs.length ≤ b → t.mem.read b = s.mem.read b) ∧
    ((∀ j < bs.length, s.cfg.kindAt (a + j) = some .peripheral) → t.mem = s.mem) := by
  rw [ht]
  exact ⟨fun j h => storeBytes_read (s := s.setCur th) hw h, fun b hb => storeBytes_read_outside (s.setCur th) bs hb,
    fun hp => storeBytes_mem_of_peripheral (s := s.setCur th) hp⟩

/-- A state that differs from another in memory and the platform alone. -/
def MovesOnly (s t : State) : Prop :=
  t = { s with mem := t.mem, platform := t.platform }

theorem movesOnly_storeBytes (s : State) (a : Nat) (bs : List Byte) : MovesOnly s (s.storeBytes a bs) :=
  (storeBytes_eq s a bs).trans (by rw [storeBytes_platform])

theorem MovesOnly.afterWrite {s t : State} (h : MovesOnly s t) (a : Nat) (bs : List Byte) :
    MovesOnly s (t.afterWrite a bs) := by
  unfold State.afterWrite
  split
  · exact congrArg (fun u : State => { u with platform := Config.platformWrite t.platform t.draws a bs }) h
  · exact h

/-- WR16 among RAM and peripheral locations is one transfer of its two bytes. -/
theorem rawWrite_two {s : State} {a x : W56} {rest : List W56} (hs : s.cur.stack = a :: x :: rest)
    (hc : s.accessCheck a.toNat 2 = none) (hr : s.touches .rom a.toNat 2 = false) (ho : s.hitsOwnWord a.toNat 2 = false) :
    ∃ t, rawWrite 2 s = .next t ∧
      t = { s.setCur { s.cur with stack := rest } with mem := t.mem, platform := t.platform } ∧
      t.mem = ((s.setCur { s.cur with stack := rest }).storeBytes a.toNat (leBytes x.toNat 2)).mem ∧
      t.platform = (s.afterWrite a.toNat [BitVec.ofNat 8 x.toNat, BitVec.ofNat 8 (x.toNat / 2 ^ 8)]).platform := by
  refine ⟨_, by rw [rawWrite_cons hs, memWrite_checked (by rwa [leBytes_length]) (by rwa [leBytes_length]) (by simp)
    (by rwa [leBytes_length, hitsOwnWord_setStack]), if_neg (by simp)], (movesOnly_storeBytes _ _ _).afterWrite _ _,
    afterWrite_mem _ _ _, ?_⟩
  rw [leBytes_two]
  exact afterWrite_platform_congr (by simp) (by simp) (by simp) _ _

/-- WR32 among RAM and peripheral locations is two transfers, the low word first. -/
theorem rawWrite_four {s : State} {a x : W56} {rest : List W56} (hs : s.cur.stack = a :: x :: rest)
    (hc : s.accessCheck a.toNat 4 = none) (hr : s.touches .rom a.toNat 4 = false) (ho : s.hitsOwnWord a.toNat 4 = false) :
    ∃ t, rawWrite 4 s = .next t ∧
      t = { s.setCur { s.cur with stack := rest } with mem := t.mem, platform := t.platform } ∧
      t.mem = ((s.setCur { s.cur with stack := rest }).storeBytes a.toNat (leBytes x.toNat 4)).mem ∧
      t.platform =
        ((s.afterWrite a.toNat [BitVec.ofNat 8 x.toNat, BitVec.ofNat 8 (x.toNat / 2 ^ 8)]).afterWrite (a.toNat + 2)
          [BitVec.ofNat 8 (x.toNat / 2 ^ 16), BitVec.ofNat 8 (x.toNat / 2 ^ 24)]).platform := by
  refine ⟨_, by rw [rawWrite_cons hs, memWrite_checked (by rwa [leBytes_length]) (by rwa [leBytes_length]) (by simp)
    (by rwa [leBytes_length, hitsOwnWord_setStack]), if_pos (by simp)],
    ((movesOnly_storeBytes _ _ _).afterWrite _ _).afterWrite _ _, by rw [afterWrite_mem, afterWrite_mem], ?_⟩
  rw [leBytes_four]
  exact afterWrite_platform_congr (by simp) (afterWrite_platform_congr (by simp) (by simp) (by simp) _ _) (by simp) _ _

/-- Settles O52: a raw write is one transfer or two, of which memory keeps what goes to RAM. -/
theorem rawWritesAreLittleEndian : Obligations.RawWritesAreLittleEndian := by
  intro s a x rest i n hs hi hr ha ho hw
  rw [exec_rawWrite hi]
  have hdigit (j : Nat) (hj : j < (leBytes x.toNat n).length) :
      (leBytes x.toNat n)[j] = BitVec.ofNat 8 (x.toNat / 2 ^ (8 * j)) := leBytes_getElem _ _ _ hj
  refine ⟨fun hp => ?_, fun h8 hk => ?_⟩
  · have hlen := leBytes_length x.toNat n
    obtain ⟨heq, hin, hout⟩ := storeBytes_result (t := { s.cur with stack := rest }) (a := a.toNat) (bs := leBytes x.toNat n) hw
      (by rwa [hlen])
    rw [rawWrite_cons hs, memWrite_ram (ram_setCur (by rwa [hlen]) _) (by rwa [hlen]) (by rw [hlen]; omega)
      (by rwa [hlen, hitsOwnWord_setStack])]
    exact ⟨_, rfl, heq, fun j hj => by rw [hin j (by rwa [hlen]), hdigit], fun b hb => hout b (by rwa [hlen])⟩
  · have hc : s.accessCheck a.toNat n = none :=
      accessCheck_ok hr ha fun j hj => by rcases hk j hj with h | h <;> simp [Params.valid, h]
    have hrom : s.touches .rom a.toNat n = false :=
      anyByte_eq_false.2 fun j hj => by rcases hk j hj with h | h <;> simp [h]
    rcases hi with ⟨rfl, -⟩ | ⟨-, rfl⟩ | ⟨-, rfl⟩
    · exact absurd rfl h8
    · obtain ⟨t, ht, heq, hmem, hplat⟩ := rawWrite_two hs hc hrom ho
      obtain ⟨hin, hout, hall⟩ := storeBytes_mixed hw hmem
      refine ⟨t, ht, heq, fun j hj => by rw [hin j (by rwa [leBytes_length]), hdigit], hout, hall, fun _ hper => ?_, fun h => by omega⟩
      rw [hplat, afterWrite_of_peripheral (bs := [_, _]) (touches_of_exists hper)]
    · obtain ⟨t, ht, heq, hmem, hplat⟩ := rawWrite_four hs hc hrom ho
      obtain ⟨hin, hout, hall⟩ := storeBytes_mixed hw hmem
      exact ⟨t, ht, heq, fun j hj => by rw [hin j (by rwa [leBytes_length]), hdigit], hout, hall, fun h => by omega, fun _ => hplat⟩

/-! ## What an access meets (R64 to R66) -/

theorem vlnWords_ne_nil (m : TypeMap) (v : W56) : vlnWords m v ≠ [] := by
  intro h
  have hl := vlnWords_length m v
  rw [h] at hl
  split_ifs at hl

/-- An instruction that stores by raw accesses begins with a write of so many bytes at its first parameter. -/
theorem exec_storing {s : State} {a x : W56} {rest : List W56} {i : Instr} {n : Nat} (hs : s.cur.stack = a :: x :: rest)
    (hi : i = .wr8 ∧ n = 1 ∨ i = .wr16 ∧ n = 2 ∨ i = .wr32 ∧ n = 4 ∨ i = .wrvln ∧ n = 2) :
    ∃ bs k, bs.length = n ∧ exec i s = memWrite (s.setCur { s.cur with stack := rest }) a.toNat bs k := by
  by_cases hv : i = .wrvln
  · obtain ⟨w, ws, hw⟩ := List.exists_cons_of_ne_nil (vlnWords_ne_nil s.cfg.typeMap x)
    have hn : n = 2 := by
      subst hv
      simpa using hi
    subst hv
    exact ⟨wordBytes w, _, hn.symm, by rw [exec_wrvln_cons hs, hw, writeWords]⟩
  · have hraw : i = .wr8 ∧ n = 1 ∨ i = .wr16 ∧ n = 2 ∨ i = .wr32 ∧ n = 4 := by
      rcases hi with h | h | h | h
      · exact .inl h
      · exact .inr (.inl h)
      · exact .inr (.inr h)
      · exact absurd h.1 hv
    exact ⟨leBytes x.toNat n, _, leBytes_length _ _, by rw [exec_rawWrite hraw, rawWrite_cons hs]⟩

/-- The first access of a raw read or of RDVLN fails its checks. -/
theorem exec_reading_fails {s : State} {a : W56} {rest : List W56} {i : Instr} {n : Nat} {c : Condition}
    (hs : s.cur.stack = a :: rest)
    (hi : i = .rd8 ∧ n = 1 ∨ i = .rd16 ∧ n = 2 ∨ i = .rd32 ∧ n = 4 ∨ i = .rdvln ∧ n = 2)
    (hc : s.accessCheck a.toNat n = some c) : exec i s = .next (s.restart c s.here.toNat) := by
  by_cases hv : i = .rdvln
  · obtain rfl : n = 2 := by
      subst hv
      simpa using hi
    have hc' : (s.setCur { s.cur with stack := rest }).accessCheck a.toNat 2 = some c := hc
    rw [hv, exec_rdvln_cons hs, readVlnFrom, hc']
    exact raise_setStack _ _ _
  · have hraw : i = .rd8 ∧ n = 1 ∨ i = .rd16 ∧ n = 2 ∨ i = .rd32 ∧ n = 4 := by
      rcases hi with h | h | h | h
      · exact .inl h
      · exact .inr (.inl h)
      · exact .inr (.inr h)
      · exact absurd h.1 hv
    rw [exec_rawRead hraw, rawRead_cons hs, memRead_fails (by rwa [accessCheck_setCur]), raise_setStack]

/-- The instructions of raw accesses are those that read and those that store. -/
theorem accessing_cases {i : Instr} {n : Nat}
    (h : i ∈ [Instr.rd8, .wr8] ∧ n = 1 ∨ i ∈ [Instr.rd16, .wr16, .rdvln, .wrvln] ∧ n = 2 ∨ i ∈ [Instr.rd32, .wr32] ∧ n = 4) :
    mayStore i = false ∧ (i = .rd8 ∧ n = 1 ∨ i = .rd16 ∧ n = 2 ∨ i = .rd32 ∧ n = 4 ∨ i = .rdvln ∧ n = 2) ∨
    mayStore i = true ∧ (i = .wr8 ∧ n = 1 ∨ i = .wr16 ∧ n = 2 ∨ i = .wr32 ∧ n = 4 ∨ i = .wrvln ∧ n = 2) := by
  simp only [List.mem_cons, List.not_mem_nil, or_false] at h
  rcases h with ⟨rfl | rfl, rfl⟩ | ⟨rfl | rfl | rfl | rfl, rfl⟩ | ⟨rfl | rfl, rfl⟩ <;> simp [mayStore]

/-- A first access that fails its checks restarts. -/
theorem exec_access_fails {s : State} {a : W56} {rest : List W56} {i : Instr} {n : Nat} {c : Condition}
    (hs : s.cur.stack = a :: rest) (hne : mayStore i = true → rest ≠ [])
    (hi : i ∈ [Instr.rd8, .wr8] ∧ n = 1 ∨ i ∈ [Instr.rd16, .wr16, .rdvln, .wrvln] ∧ n = 2 ∨ i ∈ [Instr.rd32, .wr32] ∧ n = 4)
    (hc : s.accessCheck a.toNat n = some c) : exec i s = .next (s.restart c s.here.toNat) := by
  rcases accessing_cases hi with ⟨-, hi⟩ | ⟨hm, hi⟩
  · exact exec_reading_fails hs hi hc
  · obtain ⟨x, rest, rfl⟩ := List.exists_cons_of_ne_nil (hne hm)
    obtain ⟨bs, k, hl, he⟩ := exec_storing hs hi
    rw [he, memWrite_fails (by rwa [hl, accessCheck_setCur]), raise_setStack]

/-- Settles O53: the checks of the first access in their order, then the stores that are refused. -/
theorem rawAccessConditions : Obligations.RawAccessConditions := by
  intro s a rest i n hs hne hi
  have hstore (hm : mayStore i = true) : ∃ xs bs k, bs.length = n ∧
      exec i s = memWrite (s.setCur { s.cur with stack := xs }) a.toNat bs k := by
    obtain ⟨x, rest, rfl⟩ := List.exists_cons_of_ne_nil (hne hm)
    obtain ⟨h, -⟩ | ⟨-, hi⟩ := accessing_cases hi
    · rw [hm] at h; cases h
    · exact ⟨rest, exec_storing hs hi⟩
  refine ⟨fun hr => ?_, fun hr hn ha => ?_, fun hr ha hv => ?_, fun hm hp hr ha h0 h1 h2 => ?_, fun hm hr ha hv hk => ?_,
    fun h8 hr hk => ?_⟩
  · exact exec_access_fails hs hne hi (accessCheck_range hr)
  · exact exec_access_fails hs hne hi (accessCheck_odd hr (by omega) ha)
  · exact exec_access_fails hs hne hi (accessCheck_absent hr ha hv)
  · obtain ⟨xs, bs, k, rfl, he⟩ := hstore hm
    rw [he, memWrite_own (ram_setCur hp _) hr ha]
    rw [hitsOwnWord_setStack]
    simp [State.hitsOwnWord, h0, h1, h2]
  · obtain ⟨xs, bs, k, rfl, he⟩ := hstore hm
    rw [he, memWrite_rom (by rw [accessCheck_setCur]; exact accessCheck_ok hr ha hv)]
    exact touches_of_exists hk
  · subst h8
    obtain ⟨xs, bs, k, rfl, he⟩ := hstore rfl
    have hl : bs.length = 1 := by simpa using hi
    rw [he, memWrite_byte_peripheral (s := s.setCur _) ?_ hl hk]
    rw [hl, accessCheck_setCur]
    exact accessCheck_ok hr (.inl rfl) fun j hj => by
      obtain rfl : j = 0 := by omega
      simp [Params.valid, hk]

/-! ## RDVLN and WRVLN (R268, R272) -/

/-- RDVLN of a constant in memory, with room for both results. -/
theorem exec_rdvln_words {s : State} {a : W56} {rest : List W56} {ws : List Word16} (hs : s.cur.stack = a :: rest)
    (ha : a.toNat % 2 = 0) (hv : isVln s.cfg.typeMap ws = true) (hl : ws.length ≤ 4) (hh : s.HoldsWords ws a.toNat) :
    exec .rdvln s = pushMany [BitVec.ofNat 56 (a.toNat + 2 * ws.length), BitVec.ofNat 56 (vlnValue ws)]
      (s.setCur { s.cur with stack := rest }) .next := by
  rw [exec_rdvln_cons hs, readVlnFrom_words (s := s.setCur _) ws 4 0 0 a.toNat (isVln_ne_nil hv) hl ha hv
    (holdsWords_congr (s := s) (t := s.setCur _) rfl rfl ws _ hh)]
  simp

theorem exec_rdvln_room {s : State} {a : W56} {rest : List W56} {ws : List Word16} (hs : s.cur.stack = a :: rest)
    (hd : rest.length + 2 ≤ s.cfg.dstackSize) (ha : a.toNat % 2 = 0) (hv : isVln s.cfg.typeMap ws = true) (hl : ws.length ≤ 4)
    (hh : s.HoldsWords ws a.toNat) :
    exec .rdvln s = .next (s.setCur
      { s.cur with stack := BitVec.ofNat 56 (vlnValue ws) :: BitVec.ofNat 56 (a.toNat + 2 * ws.length) :: rest }) := by
  rw [exec_rdvln_words hs ha hv hl hh, pushMany_room _ (by simpa using hd)]
  simp

/-- A thread that finds the address of a VLN on its data stack reads it. -/
theorem exec_rdvln_over {t : State} {a : W56} {rest : List W56} {ws : List Word16} (hd : rest.length + 2 ≤ t.cfg.dstackSize)
    (ha : a.toNat % 2 = 0) (hv : isVln t.cfg.typeMap ws = true) (hl : ws.length ≤ 4) (hh : t.HoldsWords ws a.toNat) :
    exec .rdvln (t.setCur { t.cur with stack := a :: rest }) = .next (t.setCur
      { t.cur with stack := BitVec.ofNat 56 (vlnValue ws) :: BitVec.ofNat 56 (a.toNat + 2 * ws.length) :: rest }) := by
  rw [exec_rdvln_room (s := t.setCur _) (by rw [cur_setCur]) hd ha hv hl (holdsWords_congr (s := t) (t := t.setCur _) rfl rfl _ _ hh),
    cur_setCur, setCur_setCur]

/-- Words stored in RAM stand there. -/
theorem storeBytes_holdsWords : ∀ (ws : List Word16) (s : State) (a : Nat), s.mem.wf = true → s.Ram a (2 * ws.length) →
    a + 2 * ws.length ≤ 2 ^ 28 → (s.storeBytes a (ws.flatMap wordBytes)).HoldsWords ws a
  | [], _, _, _, _, _ => trivial
  | w :: ws, s, a, hw, hp, hr => by
    rw [List.length_cons] at hp hr
    have hlen : ((w :: ws).flatMap wordBytes).length = 2 * (ws.length + 1) := by
      rw [flatMap_wordBytes_length, List.length_cons]
    have hpl : (s.storeBytes a ((w :: ws).flatMap wordBytes)).Plain a 2 := fun i hi => by
      rw [storeBytes_cfg]
      exact .inl (hp i (by omega))
    have hread (i : Nat) (hi : i < ((w :: ws).flatMap wordBytes).length) :=
      storeBytes_read_inside (s := s) (a := a) hw (fun j hj => by simp [hp j (by omega)]) hi
    refine ⟨hpl, by omega, ?_, ?_⟩
    · have h0 := hread 0 (by omega)
      have h1 := hread 1 (by omega)
      rw [Nat.add_zero] at h0
      rw [wordAt_of_plain (plain_touches hpl), h0, h1]
      exact word_of_bytes w
    · rw [List.flatMap_cons, storeBytes_append]
      exact storeBytes_holdsWords ws _ (a + 2) (storeBytes_wf _ _ hw)
        (fun i hi => by rw [storeBytes_cfg, show a + 2 + i = a + (2 + i) by omega]; exact hp _ (by omega)) (by omega)

/-- What stands in memory after words have been stored over a state whose data stack has been popped: the words, and outside them what
stood there. -/
theorem storeWords_result {s : State} {t : Thread} {a : Nat} (ws : List Word16) (hw : s.mem.wf = true)
    (hp : s.Ram a (2 * ws.length)) (hr : a + 2 * ws.length ≤ 2 ^ 28) :
    ((s.setCur t).storeBytes a (ws.flatMap wordBytes)).HoldsWords ws a ∧
    ∀ b, b < a ∨ a + 2 * ws.length ≤ b →
      ((s.setCur t).storeBytes a (ws.flatMap wordBytes)).mem.read b = s.mem.read b :=
  ⟨storeBytes_holdsWords ws (s.setCur t) a hw hp hr,
    fun b hb => storeBytes_read_outside (s.setCur t) _ (by rwa [flatMap_wordBytes_length])⟩

/-- WRVLN whose first words go to RAM comes to the write of the next one. -/
theorem exec_wrvln_pre {s : State} {a x : W56} {rest : List W56} {pre post : List Word16} {w : Word16}
    (hs : s.cur.stack = a :: x :: rest) (hx : vlnWords s.cfg.typeMap x = pre ++ w :: post) (ha : a.toNat % 2 = 0)
    (hp : s.Ram a.toNat (2 * pre.length)) (hr : a.toNat + 2 * pre.length ≤ 2 ^ 28)
    (ho : s.hitsOwnWord a.toNat (2 * pre.length) = false) :
    ∃ k, exec .wrvln s = memWrite ((s.storeBytes a.toNat (pre.flatMap wordBytes)).setCur { s.cur with stack := rest })
      (a.toNat + 2 * pre.length) (wordBytes w) k := by
  rw [exec_wrvln_cons hs, hx, writeWords_append, writeWords_ram pre _ _ ha (ram_setCur hp _) hr (by rwa [hitsOwnWord_setStack]),
    storeBytes_setCur, writeWords]
  exact ⟨_, rfl⟩

/-- Whether a store hits the executing word does not depend on memory. -/
theorem hitsOwnWord_storeBytes (s : State) (xs : List W56) (a b n : Nat) (bs : List Byte) :
    ((s.storeBytes a bs).setCur { s.cur with stack := xs }).hitsOwnWord b n = s.hitsOwnWord b n := by
  simp [State.hitsOwnWord, State.here]

/-- WRVLN in RAM outside the executing word stores all words and pushes the address after them. -/
theorem exec_wrvln_ram {s : State} {a x : W56} {rest : List W56} (hs : s.cur.stack = a :: x :: rest)
    (hd : s.cur.stack.length ≤ s.cfg.dstackSize) (ha : a.toNat % 2 = 0)
    (hp : s.Ram a.toNat (2 * (vlnWords s.cfg.typeMap x).length))
    (hr : a.toNat + 2 * (vlnWords s.cfg.typeMap x).length ≤ 2 ^ 28)
    (ho : s.hitsOwnWord a.toNat (2 * (vlnWords s.cfg.typeMap x).length) = false) :
    exec .wrvln s = .next ((s.setCur
      { s.cur with stack := BitVec.ofNat 56 (a.toNat + 2 * (vlnWords s.cfg.typeMap x).length) :: rest }).storeBytes a.toNat
        ((vlnWords s.cfg.typeMap x).flatMap wordBytes)) := by
  have hroom : rest.length < s.cfg.dstackSize := by
    rw [hs] at hd
    simp only [List.length_cons] at hd
    omega
  rw [exec_wrvln_cons hs, writeWords_ram _ _ _ ha (ram_setCur hp _) hr (by rwa [hitsOwnWord_setStack]), storeBytes_setCur,
    push_setCur (by rwa [storeBytes_cfg]), storeBytes_setCur]

/-- Settles O54: RDVLN is the reading of groups, WRVLN their writing one after another, and the groups a value has make the value. -/
theorem storedConstantsReadBack : Obligations.StoredConstantsReadBack := by
  refine ⟨fun s a rest ws hs hd ha hv hl hh => exec_rdvln_room hs hd ha hv hl hh, fun s a rest ws w hs ha hv hh => ?_,
    fun s a rest ws hs ha hv hl hh hm => ?_, fun s a x rest pre post w hs hx hw ha hp hr ho => ?_,
    fun s a x rest n hs hd hm hw hn hp hr ha ho => ?_⟩
  · have hh' := holdsWords_congr (s := s) (t := s.setCur { s.cur with stack := rest }) rfl rfl _ _ hh
    rw [exec_rdvln_cons hs]
    exact ⟨fun hl hc => readVlnFrom_malformed (s := s.setCur _) ha hv hh' (.inl ⟨by omega, hc⟩),
      fun hl hc => readVlnFrom_malformed (s := s.setCur _) ha hv hh' (.inr ⟨by omega, hc⟩)⟩
  · have hh' := holdsWords_congr (s := s) (t := s.setCur { s.cur with stack := rest }) rfl rfl _ _ hh
    rw [exec_rdvln_cons hs, readVlnFrom_missing (s := s.setCur _) ha (by omega) hv hh' hm, raise_setStack]
  · obtain ⟨k, hk⟩ := exec_wrvln_pre hs hx ha hp hr ho
    rw [hk]
    refine ⟨fun hm => ?_, fun hin hv hrom => ?_, fun hin hram hown => ?_⟩
    · obtain ⟨hwords, hout⟩ := storeWords_result (t := s.cur) pre hw hp hr
      rw [setCur_cur] at hwords hout
      have hc : ((s.storeBytes a.toNat (pre.flatMap wordBytes)).setCur { s.cur with stack := rest }).accessCheck
          (a.toNat + 2 * pre.length) 2 = some .badMemory :=
        accessCheck_missing (by omega) (by rwa [setCur_cfg, storeBytes_cfg])
      rw [memWrite_fails (bs := wordBytes w) hc, raise_setCur]
      refine ⟨_, rfl, ⟨.badMemory, s.storeBytes a.toNat (pre.flatMap wordBytes), storeBytes_cfg _ _ _, rfl⟩,
        by rw [restart_thread_zero]; rfl, ?_, hout⟩
      exact holdsWords_congr (s := s.storeBytes a.toNat (pre.flatMap wordBytes)) (restart_mem _ _ _) (restart_cfg _ _ _) pre _ hwords
    · refine memWrite_rom (bs := wordBytes w) ?_ (touches_of_exists ?_)
      · exact accessCheck_ok hin (.inr (by omega)) (by rwa [setCur_cfg, storeBytes_cfg])
      · rwa [setCur_cfg, storeBytes_cfg]
    · refine memWrite_own (bs := wordBytes w) ?_ hin (.inr (by omega)) ?_
      · exact fun j hj => by rw [setCur_cfg, storeBytes_cfg]; exact hram j hj
      · rw [hitsOwnWord_storeBytes]
        exact hown
  · subst hn
    obtain ⟨hwords, hout⟩ := storeWords_result
      (t := { s.cur with stack := BitVec.ofNat 56 (a.toNat + 2 * (vlnWords s.cfg.typeMap x).length) :: rest }) _ hw hp hr
    refine ⟨_, exec_wrvln_ram hs hd ha hp hr ho, storeBytes_eq _ _ _, hwords, hout, ?_⟩
    rw [hs] at hd
    simp only [List.length_cons] at hd
    have hread := exec_rdvln_over (rest := rest) (ws := vlnWords s.cfg.typeMap x) (a := a)
      (t := (s.setCur { s.cur with stack := BitVec.ofNat 56 (a.toNat + 2 * (vlnWords s.cfg.typeMap x).length) :: rest }).storeBytes
        a.toNat ((vlnWords s.cfg.typeMap x).flatMap wordBytes))
      (by rw [storeBytes_cfg, setCur_cfg]; omega) ha (by rw [storeBytes_cfg, setCur_cfg]; exact vlnWords_isVln hm x)
      (vlnWords_length_le (by decide) x.isLt) hwords
    rwa [vlnValue_vlnWords, BitVec.ofNat_toNat, BitVec.setWidth_eq] at hread

/-! ## Pushes on a full stack (R199, R316) -/

/-- Settles O57: each of these ends in a push, or in two, that meets the full stack. -/
theorem fullStackRestarts : Obligations.FullStackRestarts := by
  intro s hfull
  refine ⟨fun i hi => ?_, ?_, fun hne => ?_, fun a rest ws hs ha hv hl hh => ?_⟩
  · simp only [List.mem_cons, List.not_mem_nil, or_false] at hi
    obtain rfl | rfl | rfl := hi
    · rw [exec_depth, push_full hfull, raise]
    · rw [exec_maxthds, push_full hfull, raise]
    · rw [exec_threads, push_full hfull, raise]
  · rw [exec_random, push_full (by rwa [drawn_cur, drawn_cfg]), raise, drawn_here]
  · obtain ⟨v, rest, hs⟩ := List.exists_cons_of_ne_nil hne
    rw [hs, List.length_cons] at hfull
    rw [exec_dup_cons hs, pushMany_full _ (by simp) (by simp; omega), here_setStack, restart_setCur]
  · rw [hs, List.length_cons] at hfull
    rw [exec_rdvln_words hs ha hv hl hh, pushMany_full _ (by simp) (by simp; omega), here_setStack, restart_setCur]

end Sys2Proof.Machine

/-!
PROOF. System functions (spec/46_system.md R300 to R302): SYSFN in each case of its code, and the two parts of a system function, the stack
effect and what comes after it.
-/
namespace Sys2Proof.Machine

/-! ## SYSFN in each case of its code (R300, R301) -/

/-- SYSFN has one turn for each element of the data stack, and one more. -/
theorem exec_sysfn (s : State) : exec .sysfn s = sysfnTurns (s.cur.stack.length + 1) s := rfl

/-- The turn after the code of SYSFN itself is SYSFN from the state without that code, so every instruction is run by `exec`. -/
theorem execNested_sysfnTurns (i : Instr) {s : State} {rest : List W56} {n : Nat} (hs : s.cur.stack = rest) (hn : n = rest.length + 1) :
    execNested (sysfnTurns n) i s = exec i s := by
  by_cases hi : i = .sysfn
  · subst hi hn hs
    rfl
  · exact execNested_of_ne hi s

theorem exec_sysfn_instruction {s : State} {x : W56} {rest : List W56} {i : Instr} (hs : s.cur.stack = x :: rest)
    (hx : x.toNat < 0x80) (hi : decodeCode s.cfg.sysfnOpcode (BitVec.ofNat 7 x.toNat) = .ok i) :
    exec .sysfn s = exec i (s.setCur { s.cur with stack := rest }) := by
  rw [exec_sysfn, sysfnTurns, pop_cons hs, if_pos hx, withStack_eq, setCur_cfg, hi]
  exact execNested_sysfnTurns i (rest := rest) (by rw [cur_setCur]) (by rw [hs, List.length_cons])

theorem exec_sysfn_invalid {s : State} {x : W56} {rest : List W56} {c : Code7} (hs : s.cur.stack = x :: rest)
    (hx : x.toNat < 0x80) (hc : decodeCode s.cfg.sysfnOpcode (BitVec.ofNat 7 x.toNat) = .error (.invalidCode c)) :
    exec .sysfn s = .next (s.restart .invalidCode s.here.toNat) := by
  rw [exec_sysfn, sysfnTurns, pop_cons hs, if_pos hx, withStack_eq, setCur_cfg, hc]
  exact raise_setStack s rest .invalidCode

theorem exec_sysfn_unset {s : State} {x : W56} {rest : List W56} {c : Code7} (hs : s.cur.stack = x :: rest)
    (hx : x.toNat < 0x80) (hc : decodeCode s.cfg.sysfnOpcode (BitVec.ofNat 7 x.toNat) = .error (.invalidOrSysfn c)) :
    exec .sysfn s = .refused .unassignedWhileUnset := by
  rw [exec_sysfn, sysfnTurns, pop_cons hs, if_pos hx, withStack_eq, setCur_cfg, hc]

theorem exec_sysfn_ignored {s : State} {x : W56} {rest : List W56} (hs : s.cur.stack = x :: rest) (hx : 0x80 ≤ x.toNat)
    (hc : x ∉ s.cfg.sysfnCodes) : exec .sysfn s = .next (s.setCur { s.cur with stack := rest }) := by
  rw [exec_sysfn, sysfnTurns, pop_cons hs, if_neg (by omega), if_neg (by simpa using hc), withStack_eq]

theorem exec_sysfn_function {s : State} {x : W56} {rest : List W56} (hs : s.cur.stack = x :: rest) (hx : 0x80 ≤ x.toNat)
    (hc : x ∈ s.cfg.sysfnCodes) : exec .sysfn s =
      systemFunction (Config.sysfnImpl s.platform s.draws x rest s.mem) ((s.setCur { s.cur with stack := rest }).drawn 1) := by
  rw [exec_sysfn, sysfnTurns, pop_cons hs, if_neg (by omega), if_pos (by simpa using hc)]
  simp

/-! ## A system function (R302) -/

/-- The stores of a system function leave the executing instruction's address, which a restart after them answers. -/
theorem storeAll_here : ∀ (bs : List (A28 × Byte)) (s : State), (s.storeAll bs).here = s.here
  | [], _ => rfl
  | (a, b) :: bs, s => by
    rw [State.storeAll, storeAll_here bs]
    split
    · simp [State.here, State.cur, State.thread]
    · rfl

/-- Whether stores hit the executing word is decided store by store. -/
theorem storesOwnWord_eq_true {s : State} {stores : List (A28 × Byte)} : s.storesOwnWord stores = true ↔
    ∃ c ∈ stores, s.cfg.valid c.1.toNat = true ∧ s.hitsOwnWord c.1.toNat 1 = true := by
  simp only [State.storesOwnWord, List.any_eq_true, Bool.and_eq_true]

theorem not_storesOwnWord_setStack {s : State} {stores : List (A28 × Byte)}
    (h : ∀ c ∈ stores, s.cfg.valid c.1.toNat = true → s.hitsOwnWord c.1.toNat 1 = false) (xs : List W56) :
    ¬ (s.setCur { s.cur with stack := xs }).storesOwnWord stores = true := by
  rw [storesOwnWord_eq_true]
  rintro ⟨c, hc, hv, ho⟩
  rw [hitsOwnWord_setStack, h c hc hv] at ho
  exact Bool.false_ne_true ho

/-- A system function that has taken its parameters and left its results comes to one without either, from the state that leaves. -/
theorem systemFunction_room {s : State} {e : SysEffect} {taken kept : List W56} (hs : s.cur.stack = taken ++ kept)
    (ht : taken.length = e.pops) (hd : kept.length + e.pushes.length ≤ s.cfg.dstackSize) :
    systemFunction e s =
      systemFunction { e with pops := 0, pushes := [] } (s.setCur { s.cur with stack := e.pushes.reverse ++ kept }) := by
  rw [systemFunction, ← ht, popMany_take taken kept hs, pushMany_room _ (by simpa using hd), cur_setCur, setCur_setCur]
  rfl

theorem systemFunction_own {s : State} {e : SysEffect} (hp : e.pops = 0) (hq : e.pushes = []) (ho : s.storesOwnWord e.stores = true) :
    systemFunction e s = .refused .storeIntoOwnWord := by
  rw [systemFunction, hp, hq, popMany, pushMany, if_pos ho]

theorem systemFunction_done {s : State} {e : SysEffect} (hp : e.pops = 0) (hq : e.pushes = []) (ho : ¬ s.storesOwnWord e.stores = true)
    (hr : e.raises = none) : systemFunction e s = .next ({ s with platform := e.platform }.storeAll e.stores) := by
  rw [systemFunction, hp, hq, popMany, pushMany, if_neg ho, hr]

theorem systemFunction_restarts {s : State} {e : SysEffect} {c : Condition} (hp : e.pops = 0) (hq : e.pushes = [])
    (ho : ¬ s.storesOwnWord e.stores = true) (hr : e.raises = some c) :
    systemFunction e s = .next (({ s with platform := e.platform }.storeAll e.stores).restart c s.here.toNat) := by
  rw [systemFunction, hp, hq, popMany, pushMany, if_neg ho, hr]
  simp only [raise, storeAll_here]
  rfl

/-- Settles O55: SYSFN case by case of its code; a system function by its stack effect, then by whether it stores into the executing word
and whether it restarts in the end. -/
theorem sysfnRunsItsCode : Obligations.SysfnRunsItsCode := by
  refine ⟨fun s x rest hs => ⟨fun i hx hi => exec_sysfn_instruction hs hx hi, fun c hx hc => exec_sysfn_invalid hs hx hc,
    fun c hx hc => exec_sysfn_unset hs hx hc, exec_sysfn_ignored hs, exec_sysfn_function hs⟩,
    fun s e h => popMany_short _ h, fun s e taken kept hs ht => ⟨fun hne hd => ?_, fun hd => ?_⟩⟩
  · rw [systemFunction, ← ht, popMany_take taken kept hs, pushMany_full _ hne (by simpa using hd), here_setStack, restart_setCur]
  · rw [systemFunction_room hs ht hd]
    refine ⟨fun ⟨c, hc, hv, ho⟩ => ?_, fun hown => ⟨_, rfl, fun hr => ?_, fun c hr => ?_⟩⟩
    · exact systemFunction_own rfl rfl (storesOwnWord_eq_true.2 ⟨c, hc, hv, by rwa [hitsOwnWord_setStack]⟩)
    · exact systemFunction_done rfl rfl (not_storesOwnWord_setStack hown _) hr
    · rw [← here_setStack s (e.pushes.reverse ++ kept)]
      exact systemFunction_restarts rfl rfl (not_storesOwnWord_setStack hown _) hr

end Sys2Proof.Machine
